-- ==== Sys2Proof/Word.lean ====
section
/-!
DEFINITION. The bit vectors of the AGC: the 15-bit word, the 16-bit wide value of A, L and Q, addresses and channel
numbers (spec/00_scope.md R7, R12, R17). Bit i of the spec (R11, numbered from 1) is bit i - 1 here. The arithmetic on them
(overflow correction, the adder) stands in Machine/Flags.lean.
-/

namespace Sys2Proof

/-- A memory or channel word: 15 bits, bit 15 the sign (R12, R80). -/
abbrev Word := BitVec 15

/-- A wide value: the 16 bits of A, L or Q (R12, R20-R22). -/
abbrev Wide := BitVec 16

/-- A 12-bit address: Z, or the address field of a 12-bit operand (R17, R81). -/
abbrev Addr := BitVec 12

/-- A 10-bit address field: an address in erasable memory (R121). -/
abbrev EAddr := BitVec 10

/-- A 9-bit i/o channel number (R64, R121). -/
abbrev Chan := BitVec 9

end Sys2Proof
end

