-- ==== Sys2Proof/Syntax.lean ====
section
/-!
DEFINITION. The instructions: one constructor for each row of spec/opcode_table.json, in the table's order
(spec/30_encoding.md R140). Operands are the fields of the instruction word (R121): a 12-bit address `k : Addr`, a 10-bit
erasable address `k : EAddr`, a channel number `kc : Chan`, and `f` where the field holds K + 1 (R126).
-/

namespace Sys2Proof

inductive Instr where
  -- basic instructions (Extracode = 0)
  | tc (k : Addr)
  | xxalq
  | xlq
  | ret
  | relint
  | inhint
  | extend
  | ccs (k : EAddr)
  | tcf (k : Addr)
  /-- NOOP as assembled in fixed memory: TCF to the word after itself (R197). Its word depends on where it stands. -/
  | noopFixed
  | das (f : EAddr)
  | ddoubl
  | lxch (k : EAddr)
  | zl
  | incr (k : EAddr)
  | ads (k : EAddr)
  | ca (k : Addr)
  | noopErasable
  | cs (k : Addr)
  | com
  | index (k : EAddr)
  | resume
  | dxch (f : EAddr)
  | dtcf
  | dtcb
  | ts (k : EAddr)
  | ovsk
  | tcaa
  | xch (k : EAddr)
  | ad (k : Addr)
  | double
  | mask (k : Addr)
  -- extracode instructions (Extracode = 1)
  | read (kc : Chan)
  | write (kc : Chan)
  | rand (kc : Chan)
  | wand (kc : Chan)
  | ror (kc : Chan)
  | wor (kc : Chan)
  | rxor (kc : Chan)
  /-- The channel field of EDRUPT is ignored (R172). -/
  | edrupt (kc : Chan)
  | dv (k : EAddr)
  | bzf (k : Addr)
  | msu (k : EAddr)
  | qxch (k : EAddr)
  | zq
  | aug (k : EAddr)
  | dim (k : EAddr)
  | dca (f : Addr)
  | dcs (f : Addr)
  | dcom
  /-- INDEX decoded as an extracode: a 12-bit operand (R167). -/
  | indexExt (k : Addr)
  | su (k : EAddr)
  | bzmf (k : Addr)
  | mp (k : Addr)
  | square
  deriving DecidableEq, Repr

end Sys2Proof
end

