-- ==== Sys2Proof/WellFormed.lean ====
section
/-!
DEFINITION. Which terms of Instr are the reading of some word: the operand restrictions of spec/30_encoding.md. A general
instruction is ill formed at an operand whose word belongs to another row of the table (R127, R141), and TCF, BZF, BZMF need
an address in fixed memory (R124, R125: their QC is not 0). The meanings are defined on ill-formed terms all the same.
-/

namespace Sys2Proof

/-- Bits 12-11 of a 12-bit address are not 00: the address lies in fixed memory (R82, R141 'qc_nonzero'). -/
def Instr.fixedAddress (k : Addr) : Bool := decide (0o2000 ≤ k.toNat)

/-- The instruction is the reading of a word: its operand is not one that makes the word another row's (R127). -/
def Instr.wellFormed : Instr → Bool
  | .tc k => !(k == 0 || k == 1 || k == 2)
  | .tcf k => Instr.fixedAddress k
  | .bzf k => Instr.fixedAddress k
  | .bzmf k => Instr.fixedAddress k
  | .das f => !(f == 1)
  | .lxch k => !(k == 7)
  | .ca k => !(k == 0)
  | .cs k => !(k == 0)
  | .dxch f => !(f == 5 || f == 6)
  | .ts k => !(k == 0 || k == 5)
  | .ad k => !(k == 0)
  | .qxch k => !(k == 7)
  | .dcs f => !(f == 1)
  | .mp k => !(k == 0)
  | .xxalq | .xlq | .ret | .relint | .inhint | .extend | .ccs _ | .noopFixed | .ddoubl | .zl | .incr _ | .ads _
  | .noopErasable | .com | .index _ | .resume | .dtcf | .dtcb | .ovsk | .tcaa | .xch _ | .double | .mask _ | .read _
  | .write _ | .rand _ | .wand _ | .ror _ | .wor _ | .rxor _ | .edrupt _ | .dv _ | .msu _ | .zq | .aug _ | .dim _ | .dca _
  | .dcom | .indexExt _ | .su _ | .square => true

/-- Whether the instruction is decoded with the Extracode flag set (R140, column X). -/
def Instr.isExtracode : Instr → Bool
  | .read _ | .write _ | .rand _ | .wand _ | .ror _ | .wor _ | .rxor _ | .edrupt _ | .dv _ | .bzf _ | .msu _ | .qxch _ | .zq
  | .aug _ | .dim _ | .dca _ | .dcs _ | .dcom | .indexExt _ | .su _ | .bzmf _ | .mp _ | .square => true
  | .tc _ | .xxalq | .xlq | .ret | .relint | .inhint | .extend | .ccs _ | .tcf _ | .noopFixed | .das _ | .ddoubl | .lxch _
  | .zl | .incr _ | .ads _ | .ca _ | .noopErasable | .cs _ | .com | .index _ | .resume | .dxch _ | .dtcf | .dtcb | .ts _
  | .ovsk | .tcaa | .xch _ | .ad _ | .double | .mask _ => false

/-- Whether a word that was indexed (`indexed = true`) or fetched unmodified can be read as this instruction: RELINT, INHINT,
EXTEND and RESUME only in an unmodified word, TC 3, TC 4, TC 6 and INDEX 0o17 only in an indexed one (R122, R128). -/
def Instr.readableWhen (indexed : Bool) : Instr → Bool
  | .relint | .inhint | .extend | .resume => !indexed
  | .tc k => indexed || !(k == 3 || k == 4 || k == 6)
  | .index k => indexed || !(k == 0o17)
  | .xxalq | .xlq | .ret | .ccs _ | .tcf _ | .noopFixed | .das _ | .ddoubl | .lxch _ | .zl | .incr _ | .ads _ | .ca _
  | .noopErasable | .cs _ | .com | .dxch _ | .dtcf | .dtcb | .ts _ | .ovsk | .tcaa | .xch _ | .ad _ | .double | .mask _
  | .read _ | .write _ | .rand _ | .wand _ | .ror _ | .wor _ | .rxor _ | .edrupt _ | .dv _ | .bzf _ | .msu _ | .qxch _ | .zq
  | .aug _ | .dim _ | .dca _ | .dcs _ | .dcom | .indexExt _ | .su _ | .bzmf _ | .mp _ | .square => true

end Sys2Proof
end

