-- ==== Sys2Proof/Decode.lean ====
section
/-!
DEFINITION. The decoder and, after it, the encoder (spec/30_encoding.md R121-R127, R140, R141). What is decoded is the pair
(Extracode, word) together with whether the word was modified by a pending INDEX (R120, R122). Every word decodes (R123): there
is nothing to reject. Among the rows that match, the row of highest priority is read (R141), so a word of R127 is read under
its own name; the address-dependent fixed-memory NOOP is skipped, its word is TCF (R141; log 10).
-/

namespace Sys2Proof

/-- Field Code, bits 15-13 (R121). -/
def codeField (w : Word) : BitVec 3 := w.extractLsb' 12 3

/-- Field QC, bits 12-11 (R121). -/
def qcField (w : Word) : BitVec 2 := w.extractLsb' 10 2

/-- Field PC, bits 12-10 (R121). -/
def pcField (w : Word) : BitVec 3 := w.extractLsb' 9 3

/-- Field addr12, bits 12-1 (R121). -/
def addr12 (w : Word) : Addr := w.extractLsb' 0 12

/-- Field addr10, bits 10-1 (R121). -/
def addr10 (w : Word) : EAddr := w.extractLsb' 0 10

/-- Field KC, bits 9-1 (R121). -/
def chanField (w : Word) : Chan := w.extractLsb' 0 9

/-- Code 0 of the basic map: TC, its register forms, and the three words decoded apart when not indexed (R122, R127). -/
def decodeTc (indexed : Bool) (k : Addr) : Instr :=
  if k == 0 then .xxalq
  else if k == 1 then .xlq
  else if k == 2 then .ret
  else if k == 3 && !indexed then .relint
  else if k == 4 && !indexed then .inhint
  else if k == 6 && !indexed then .extend
  else .tc k

/-- Code 2 of the basic map (R124). -/
def decodeBasic2 (w : Word) : Instr :=
  let k := addr10 w
  match (qcField w).toNat with
  | 0 => if k == 1 then .ddoubl else .das k
  | 1 => if k == 7 then .zl else .lxch k
  | 2 => .incr k
  | _ => .ads k

/-- Code 5 of the basic map (R122, R124). -/
def decodeBasic5 (indexed : Bool) (w : Word) : Instr :=
  let k := addr10 w
  match (qcField w).toNat with
  | 0 => if k == 0o17 && !indexed then .resume else .index k
  | 1 => if k == 5 then .dtcf else if k == 6 then .dtcb else .dxch k
  | 2 => if k == 0 then .ovsk else if k == 5 then .tcaa else .ts k
  | _ => .xch k

/-- The basic map (R124). -/
def decodeBasic (indexed : Bool) (w : Word) : Instr :=
  match (codeField w).toNat with
  | 0 => decodeTc indexed (addr12 w)
  | 1 => if qcField w == 0 then .ccs (addr10 w) else .tcf (addr12 w)
  | 2 => decodeBasic2 w
  | 3 => if addr12 w == 0 then .noopErasable else .ca (addr12 w)
  | 4 => if addr12 w == 0 then .com else .cs (addr12 w)
  | 5 => decodeBasic5 indexed w
  | 6 => if addr12 w == 0 then .double else .ad (addr12 w)
  | _ => .mask (addr12 w)

/-- Code 0 of the extracode map: the i/o instructions and EDRUPT, by PC (R125). -/
def decodeIo (w : Word) : Instr :=
  let kc := chanField w
  match (pcField w).toNat with
  | 0 => .read kc
  | 1 => .write kc
  | 2 => .rand kc
  | 3 => .wand kc
  | 4 => .ror kc
  | 5 => .wor kc
  | 6 => .rxor kc
  | _ => .edrupt kc

/-- Code 2 of the extracode map (R125). -/
def decodeExtra2 (w : Word) : Instr :=
  let k := addr10 w
  match (qcField w).toNat with
  | 0 => .msu k
  | 1 => if k == 7 then .zq else .qxch k
  | 2 => .aug k
  | _ => .dim k

/-- The extracode map (R125). -/
def decodeExtra (w : Word) : Instr :=
  match (codeField w).toNat with
  | 0 => decodeIo w
  | 1 => if qcField w == 0 then .dv (addr10 w) else .bzf (addr12 w)
  | 2 => decodeExtra2 w
  | 3 => .dca (addr12 w)
  | 4 => if addr12 w == 1 then .dcom else .dcs (addr12 w)
  | 5 => .indexExt (addr12 w)
  | 6 => if qcField w == 0 then .su (addr10 w) else .bzmf (addr12 w)
  | _ => if addr12 w == 0 then .square else .mp (addr12 w)

/-- Decoding (R122): the Extracode flag as it stood at the fetch, whether the word was indexed, the word after indexing. -/
def decode (extracode indexed : Bool) (w : Word) : Instr :=
  if extracode then decodeExtra w else decodeBasic indexed w

/-- A word of Code `c` with a 12-bit address field (R121). -/
def word12 (c : BitVec 3) (k : Addr) : Word := c ++ k

/-- A word of Code `c`, quarter code `q`, with a 10-bit address field (R121). -/
def word10 (c : BitVec 3) (q : BitVec 2) (k : EAddr) : Word := c ++ (q ++ k : BitVec 12)

/-- A word of extracode Code 0 with peripheral code `p` and a channel number (R121). -/
def wordIo (p : BitVec 3) (kc : Chan) : Word := (0 : BitVec 3) ++ (p ++ kc : BitVec 12)

/-- The word of an instruction (R140, column octal). `next` is the address of the word after it: the fixed-memory NOOP is
assembled as a jump there (R197); no other instruction depends on it. -/
def encode (next : Addr) : Instr → Word
  | .tc k => word12 0 k
  | .xxalq => word12 0 0
  | .xlq => word12 0 1
  | .ret => word12 0 2
  | .relint => word12 0 3
  | .inhint => word12 0 4
  | .extend => word12 0 6
  | .ccs k => word10 1 0 k
  | .tcf k => word12 1 k
  | .noopFixed => word12 1 next
  | .das f => word10 2 0 f
  | .ddoubl => word10 2 0 1
  | .lxch k => word10 2 1 k
  | .zl => word10 2 1 7
  | .incr k => word10 2 2 k
  | .ads k => word10 2 3 k
  | .ca k => word12 3 k
  | .noopErasable => word12 3 0
  | .cs k => word12 4 k
  | .com => word12 4 0
  | .index k => word10 5 0 k
  | .resume => word10 5 0 0o17
  | .dxch f => word10 5 1 f
  | .dtcf => word10 5 1 5
  | .dtcb => word10 5 1 6
  | .ts k => word10 5 2 k
  | .ovsk => word10 5 2 0
  | .tcaa => word10 5 2 5
  | .xch k => word10 5 3 k
  | .ad k => word12 6 k
  | .double => word12 6 0
  | .mask k => word12 7 k
  | .read kc => wordIo 0 kc
  | .write kc => wordIo 1 kc
  | .rand kc => wordIo 2 kc
  | .wand kc => wordIo 3 kc
  | .ror kc => wordIo 4 kc
  | .wor kc => wordIo 5 kc
  | .rxor kc => wordIo 6 kc
  | .edrupt kc => wordIo 7 kc
  | .dv k => word10 1 0 k
  | .bzf k => word12 1 k
  | .msu k => word10 2 0 k
  | .qxch k => word10 2 1 k
  | .zq => word10 2 1 7
  | .aug k => word10 2 2 k
  | .dim k => word10 2 3 k
  | .dca f => word12 3 f
  | .dcs f => word12 4 f
  | .dcom => word12 4 1
  | .indexExt k => word12 5 k
  | .su k => word10 6 0 k
  | .bzmf k => word12 6 k
  | .mp k => word12 7 k
  | .square => word12 7 0

/-- The instruction a decoder reads from the bits `w` of one table row, as the first instruction after reset (not indexed). The
table's words have 15 bits; the 16th decoding bit is the Extracode flag (R120), which is not part of the word: bit 15 of `w`
stands for it here (log 9). More bits than that are no AGC instruction word. -/
def decodeTableWord (nbits w : Nat) : Option Instr :=
  if nbits ≤ 16 && decide (w < 2 ^ 16) then
    some (decode (w.testBit 15) false (BitVec.ofNat 15 w))
  else none

end Sys2Proof
end

