-- ==== Sys2Proof/Machine/State.lean ====
section
/-!
DEFINITION. The state of the machine as plain data (spec/10_state.md R36), what the environment can do to it
(spec/45_unprogrammed_sequences.md), the reasons a step can stop, and the machine after power-up (R70).
-/

namespace Sys2Proof.Machine

/-- A memory of 15-bit words as a list of (key, word) in one canonical form: keys strictly rising, no entry +0, which is what an
unlisted key reads as (log 1, log 2; `Memory.wf`). -/
abbrev Memory := List (Nat × Word)

/-- The ten interrupts, in the order of their vectors (60_exceptions.md R381). -/
inductive Rupt where
  | t6rupt | t5rupt | t3rupt | t4rupt | keyrupt1 | keyrupt2 | uprupt | downrupt | radarupt | rupt10
  deriving DecidableEq, Repr

/-- The interrupt-request latches Req[1..10] (R35). -/
structure Requests where
  t6 : Bool
  t5 : Bool
  t3 : Bool
  t4 : Bool
  key1 : Bool
  key2 : Bool
  up : Bool
  down : Bool
  radar : Bool
  r10 : Bool
  deriving DecidableEq, Repr

/-- The counters PINC counts as clocks: TIME1 to TIME5 (R351). That TIME2 can be pulsed by itself, and not by the overflow of TIME1
alone, is the model's choice (DESIGN CHOICE, log 18). -/
inductive TimeCounter where
  | time1 | time2 | time3 | time4 | time5
  deriving DecidableEq, Repr

/-- The counters that count pulses up and down by PINC and MINC: the PIPAs (conjecture U9) and the hand controller's (R353, R355). -/
inductive PulseCounter where
  | pipaX | pipaY | pipaZ | qRhc | pRhc | rRhc
  deriving DecidableEq, Repr

/-- The counters of PCDU and MCDU (R354). -/
inductive CduCounter where
  | cduX | cduY | cduZ | optY | optX
  deriving DecidableEq, Repr

/-- The counters of SHINC and SHANC (R358). -/
inductive ShiftCounter where
  | inlink | rnrad | outlink
  deriving DecidableEq, Repr

/-- The three hand-controller registers RhcDeposit writes (R367). -/
inductive RhcAxis where
  | pitch | yaw | roll
  deriving DecidableEq, Repr

/-- The three axes whose drive CduCmdDrain reads (R367). -/
inductive DriveAxis where
  | x | y | z
  deriving DecidableEq, Repr

/-- The vehicle the computer flies in, a parameter of the machine (00_scope.md R7; log 17). -/
inductive Vehicle where
  | lm | cm
  deriving DecidableEq, Repr

/-- One action of the environment at an instruction boundary (R350, R367, R383, 70_reset_and_hazards.md R456). What the spec
leaves to the environment is an argument (log 5, log 16). -/
inductive EnvAction where
  /-- PINC of a clock, TIME2 by itself among them (DESIGN CHOICE, log 18). -/
  | pincTime (c : TimeCounter)
  | pincPulse (c : PulseCounter)
  | minc (c : PulseCounter)
  | pcdu (c : CduCounter)
  | mcdu (c : CduCounter)
  | dinc
  | shinc (c : ShiftCounter)
  | shanc (c : ShiftCounter)
  /-- GOJ; Inhibit and Req are unspecified afterwards, so the action carries them (R364). -/
  | goj (inhibit : Bool) (req : Requests)
  | uplinkWord (w : Word)
  | rhcDeposit (c : RhcAxis) (w : Word) (outOfDetent : Bool)
  | gyroDrain (left : Word)
  | cduCmdDrain (axis : DriveAxis) (zeroed : Bool)
  | scalerTick
  | setChannel (c : Chan) (w : Word)
  | keystroke1
  | keystroke2
  | downlinkReady
  | rupt10Event
  deriving DecidableEq, Repr

/-- The whole state (R36). `draws` and `schedule` are the model's own (log 5, log 7). -/
@[ext]
structure State where
  /-- the accumulator, address 0o00 (R20) -/
  a : Wide
  /-- the lower product register, address 0o01 and channel 1 (R21) -/
  l : Wide
  /-- the return address register, address 0o02 and channel 2 (R22) -/
  q : Wide
  /-- the program counter, address 0o05 (R25) -/
  z : Addr
  /-- the field EEE of EB, its bits 11-9 (R23) -/
  eb : BitVec 3
  /-- the field FFFFF of FB, its bits 15-11 (R24) -/
  fb : BitVec 5
  /-- erasable core: the word E[b][o] has key b * 0o400 + o (R83) -/
  erasable : Memory
  /-- fixed memory: the word F[b][o] has key b * 0o2000 + o; never written (R84) -/
  fixed : Memory
  /-- the i/o channels but 1 and 2, which are L and Q (R64, R68) -/
  channels : Memory
  /-- the Extracode flag (R30) -/
  extracode : Bool
  /-- the interrupt-inhibit flag (R31) -/
  inhibit : Bool
  /-- the ISR-in-progress flag (R32) -/
  inIsr : Bool
  /-- an index is pending (R33) -/
  indexPending : Bool
  /-- the pending index (R33) -/
  indexValue : Word
  /-- the next word is taken from BRUPT (R34) -/
  substitute : Bool
  /-- the interrupt-request latches (R35) -/
  req : Requests
  /-- how many free values have been drawn (log 7) -/
  draws : Nat
  /-- the environment's actions at the coming boundaries, the next boundary's first (log 5) -/
  schedule : List (List EnvAction)
  /-- the vehicle, fixed for a machine: which registers and which use of vector 0o4050 it has (R7; log 17) -/
  vehicle : Vehicle
  deriving DecidableEq, Repr

/-- The faults: there are none. The AGC has no fault mechanism (60_exceptions.md R380; 93_implementation_defined.md, its opening), so
no step answers with one; whatever stops is a refusal. -/
inductive Fault where
  deriving DecidableEq, Repr

/-- A refusal: the spec gives the case no meaning (R17 `refuse`, 60_exceptions.md R380). -/
inductive Refusal where
  /-- An instruction without a meaning in this model; raised by exec's arms only. Safe. -/
  | notModelled (mnemonic : String)
  /-- An access (fetch or operand) selects one of the fixed banks 0o44-0o47, which do not exist (20_memory.md R85, decision D14).
  Raised by `locateSwitchedFixed`. Safe. -/
  | nonexistentFixedBank (bank : Nat)
  /-- An access at 0o1400-0o1460 with EB = 0: the registers seen through the switched window (20_memory.md R83). Raised by
  `locate`. Safe. -/
  | registerWindow
  /-- A double-word instruction with address field 0, the pair 'K = -1' (20_memory.md R97). Raised by `locatePair`. Safe. -/
  | doubleWordFieldZero
  /-- WRITE, WAND or WOR to the hardware counters on channels 3 and 4 (44_logic_io.md R322, U11). Raised by `chWrite`. Safe. -/
  | scalerChannelWrite
  /-- EDRUPT, which the spec gives no semantics (40_sequence_control.md R172, U5). Raised by `execEdrupt`. Safe. -/
  | edruptUndescribed
  deriving DecidableEq, Repr

/-- What a 12-bit address selects (20_memory.md R82, R90): a central register, a word of erasable core by its key, or a word of fixed
memory by its key. -/
inductive Place where
  | a | l | q | eb | fb | z | bb | zero
  | core (i : Nat)
  | fixed (i : Nat)
  deriving DecidableEq, Repr

/-- No request pending. -/
def Requests.empty : Requests :=
  { t6 := false, t5 := false, t3 := false, t4 := false, key1 := false, key2 := false, up := false, down := false,
    radar := false, r10 := false }

/-- The machine right after power-up (R70): Z = 0o4000, InIsr, Extracode, IndexPending, IndexValue and Substitute 0. Everything else
is unspecified by the spec and is given a value by log 2 (memories and channels), log 3 (A, L, Q, EB, FB), log 4 (Inhibit,
Req) and log 17 (the vehicle). -/
def State.reset : State :=
  { a := 0, l := 0, q := 0, z := 0o4000, eb := 0, fb := 0, erasable := [], fixed := [], channels := [],
    extracode := false, inhibit := false, inIsr := false, indexPending := false, indexValue := 0, substitute := false,
    req := Requests.empty, draws := 0, schedule := [], vehicle := .lm }

end Sys2Proof.Machine
end

