-- ==== Sys2Proof/Machine/Flags.lean ====
section
/-!
DEFINITION. Overflow, overflow correction, the adder and the signed readings of words (spec/00_scope.md R12-R17). The machine has
no overflow flag: overflow is a state of the two top bits of a wide value (R14, R29).
-/

namespace Sys2Proof.Machine

/-- Sign extension of a word, bit 16 := bit 15 (R15). -/
def sx16 (w : Word) : Wide := w.signExtend 16

/-- Overflow correction: bit 15 := bit 16, bits 14-1 kept (R15). -/
def ovc (v : Wide) : Word := v.extractLsb' 15 1 ++ v.extractLsb' 0 14

/-- Bit 16 of a wide value (R17 `bit16`). -/
def bit16 (v : Wide) : Bool := v.getLsbD 15

/-- Bit 15 of a word (R17 `bit15`). -/
def bit15 (w : Word) : Bool := w.getLsbD 14

/-- Positive overflow: bit 16 = 0, bit 15 = 1 (R14). -/
def posOverflow (v : Wide) : Bool := !v.getLsbD 15 && v.getLsbD 14

/-- Negative overflow: bit 16 = 1, bit 15 = 0 (R14). -/
def negOverflow (v : Wide) : Bool := v.getLsbD 15 && !v.getLsbD 14

/-- Overflow of either sign, ovf(v) ≠ 0 (R14). -/
def hasOverflow (v : Wide) : Bool := posOverflow v || negOverflow v

/-- The value is +0 or -0 in all 16 bits (R12). -/
def isZero16 (v : Wide) : Bool := v == 0 || v == 0o177777

/-- The word is +0 or -0 (R12). -/
def isZero15 (w : Word) : Bool := w == 0 || w == 0o77777

/-- The adder: 16-bit one's-complement addition with end-around carry (R16). -/
def add16 (a b : Wide) : Wide :=
  if a.toNat + b.toNat > 0o177777 then BitVec.ofNat 16 (a.toNat + b.toNat + 1) else BitVec.ofNat 16 (a.toNat + b.toNat)

/-- +1 as a wide value (R12). -/
def plusOne : Wide := 0o000001

/-- -1 as a wide value (R12). -/
def minusOne : Wide := 0o177776

/-- The integer a word stands for; both zeros stand for 0 (R12, R17 `val15`). -/
def val15 (w : Word) : Int := if bit15 w then -((~~~w).toNat : Int) else (w.toNat : Int)

/-- The integer a wide value without overflow stands for; both zeros stand for 0 (R12, R17 `val16`). -/
def val16 (v : Wide) : Int := if bit16 v then -((~~~v).toNat : Int) else (v.toNat : Int)

/-- The magnitude `n` (at most 0o37777) as a word, complemented when negative: the sign-and-magnitude result of MP and DV
(43_arithmetic.md R295, R305). -/
def signedWord (n : Nat) (negative : Bool) : Word :=
  if negative then ~~~(BitVec.ofNat 15 n) else BitVec.ofNat 15 n

/-- +1, -1 or +0 by the overflow of a value (43_arithmetic.md R276, last line). -/
def overflowUnit (v : Wide) : Wide :=
  if posOverflow v then plusOne else if negOverflow v then minusOne else 0

/-- A value with the overflow of the low word added in: the carry between the words of a DP sum (R276). -/
def addCarry (hi lo : Wide) : Wide :=
  if posOverflow lo then add16 hi plusOne else if negOverflow lo then add16 hi minusOne else hi

end Sys2Proof.Machine
end

