-- ==== Sys2Proof/Machine/Ops.lean ====
section
/-!
DEFINITION. The named operations over memory, registers, banks, channels and interrupts that every meaning is written with
(spec/20_memory.md R80-R97, 44_logic_io.md R321-R322, 60_exceptions.md R383-R389).
-/

namespace Sys2Proof.Machine

/-! ### Memories of words -/

/-- The word at a key; an unlisted key reads +0 (log 2). -/
def Memory.read : Memory → Nat → Word
  | [], _ => 0#15
  | (k, v) :: rest, i => if i = k then v else Memory.read rest i

/-- The memory with the word `w` at the key `i`, in canonical form again: writing +0 removes the entry. -/
def Memory.write : Memory → Nat → Word → Memory
  | [], i, w => if w = 0#15 then [] else [(i, w)]
  | (k, v) :: rest, i, w =>
    if i < k then (if w = 0#15 then (k, v) :: rest else (i, w) :: (k, v) :: rest)
    else if i = k then (if w = 0#15 then rest else (i, w) :: rest)
    else (k, v) :: Memory.write rest i w

/-- The keys are at least `lo`, strictly rising, and no word is +0. -/
def Memory.wfFrom : Nat → Memory → Bool
  | _, [] => true
  | lo, (k, v) :: rest => decide (lo ≤ k) && !(v == 0#15) && Memory.wfFrom (k + 1) rest

/-- The canonical form: keys strictly rising, no word +0 (log 1). -/
def Memory.wf (m : Memory) : Bool := Memory.wfFrom 0 m

/-! ### Updates of one field -/

def State.setA (s : State) (v : Wide) : State := { s with a := v }
def State.setL (s : State) (v : Wide) : State := { s with l := v }
def State.setQ (s : State) (v : Wide) : State := { s with q := v }
def State.setZ (s : State) (v : Addr) : State := { s with z := v }
def State.setEb (s : State) (v : BitVec 3) : State := { s with eb := v }
def State.setFb (s : State) (v : BitVec 5) : State := { s with fb := v }
def State.setErasable (s : State) (v : Memory) : State := { s with erasable := v }
def State.setFixed (s : State) (v : Memory) : State := { s with fixed := v }
def State.setChannels (s : State) (v : Memory) : State := { s with channels := v }
def State.setExtracode (s : State) (v : Bool) : State := { s with extracode := v }
def State.setInhibit (s : State) (v : Bool) : State := { s with inhibit := v }
def State.setInIsr (s : State) (v : Bool) : State := { s with inIsr := v }
def State.setIndexPending (s : State) (v : Bool) : State := { s with indexPending := v }
def State.setIndexValue (s : State) (v : Word) : State := { s with indexValue := v }
def State.setSubstitute (s : State) (v : Bool) : State := { s with substitute := v }
def State.setReq (s : State) (v : Requests) : State := { s with req := v }
def State.setDraws (s : State) (v : Nat) : State := { s with draws := v }
def State.setSchedule (s : State) (v : List (List EnvAction)) : State := { s with schedule := v }

/-! ### Outcomes -/

/-- The outcome of an operation that gives a state or is refused. -/
def finish : Except Refusal State → Host.Outcome State Fault Refusal
  | .ok s => .next s
  | .error e => .refused e

/-! ### The words of the bank registers, Z and BB -/

/-- EB as a word: 000 0EE E00 000 000 (R23). -/
def ebWord (e : BitVec 3) : Word := (0 : BitVec 4) ++ (e ++ (0 : BitVec 8) : BitVec 11)

/-- FB as a word: FFF FF0 000 000 000 (R24). -/
def fbWord (f : BitVec 5) : Word := f ++ (0 : BitVec 10)

/-- Z as a word, bits 15-13 zero (R25). -/
def zWord (z : Addr) : Word := (0 : BitVec 3) ++ z

/-- Z as a wide value, as TC and DTCF put it into a 16-bit register: bits 16-13 zero (R192, R212). -/
def zWide (z : Addr) : Wide := (0 : BitVec 4) ++ z

/-- BB as a word: FFF FF0 000 000 EEE (R26). -/
def bbWord (f : BitVec 5) (e : BitVec 3) : Word := f ++ ((0 : BitVec 7) ++ e : BitVec 10)

/-- Bits 11-9 of a word, what a write to EB keeps (R91). -/
def ebField (w : Word) : BitVec 3 := w.extractLsb' 8 3

/-- Bits 15-11 of a word, what a write to FB or BB keeps for FB (R91). -/
def fbField (w : Word) : BitVec 5 := w.extractLsb' 10 5

/-- Bits 3-1 of a word, what a write to BB keeps for EB (R91). -/
def bbEbField (w : Word) : BitVec 3 := w.extractLsb' 0 3

/-- Bits 12-1 of a word, what a write to Z keeps (R91). -/
def zField (w : Word) : Addr := w.extractLsb' 0 12

/-! ### Addresses -/

/-- A 10-bit address is the 12-bit address whose top two bits are 0 (20_memory.md section 2). -/
def erasableAddr (k : EAddr) : Addr := k.setWidth 12

/-- The superbank bit, bit 7 of channel 7 (R65). -/
def superbank (s : State) : Bool := (s.channels.read 7).getLsbD 6

/-- A fixed word by its bank and its offset in the bank (R84). -/
def fixedKey (bank offset : Nat) : Nat := bank * 0o2000 + offset

/-- The word of switched fixed memory at an offset of the window 0o2000-0o3777 (R85). -/
def locateSwitchedFixed (s : State) (offset : Nat) : Except Refusal Place :=
  let f := s.fb.toNat
  if !superbank s || decide (f < 0o30) then .ok (.fixed (fixedKey f offset))
  else if f ≤ 0o33 then .ok (.fixed (fixedKey (f + 0o10) offset))
  else .error (.nonexistentFixedBank (f + 0o10))

/-- The word of switched erasable memory at an offset of the window 0o1400-0o1777; the registers are not seen through it (R83). -/
def locateSwitchedErasable (s : State) (offset : Nat) : Except Refusal Place :=
  if s.eb == 0 && decide (offset ≤ 0o60) then .error .registerWindow
  else .ok (.core (s.eb.toNat * 0o400 + offset))

/-- The central register at an address 0-7 (R28). -/
def centralPlace : Nat → Place
  | 0 => .a
  | 1 => .l
  | 2 => .q
  | 3 => .eb
  | 4 => .fb
  | 5 => .z
  | 6 => .bb
  | _ => .zero

/-- What a 12-bit address selects through the bank registers (R82, R83, R85, R90). Unswitched erasable is E[k div 0o400][k mod
0o400], fixed-fixed memory F[k div 0o2000][k mod 0o2000]: in both the key is the address itself. -/
def locate (s : State) (k : Addr) : Except Refusal Place :=
  let n := k.toNat
  if n < 0o10 then .ok (centralPlace n)
  else if n < 0o1400 then .ok (.core n)
  else if n < 0o2000 then locateSwitchedErasable s (n - 0o1400)
  else if n < 0o4000 then locateSwitchedFixed s (n - 0o2000)
  else .ok (.fixed (fixedKey (n / 0o2000) (n % 0o2000)))

/-- The two words of a double-word operand with address field `f`: the less significant at `f`, the more significant at `f - 1`;
field 0 is refused (R97). -/
def locatePair (s : State) (f : Addr) : Except Refusal (Place × Place) :=
  if f == 0 then .error .doubleWordFieldZero
  else
    match locate s f with
    | .error e => .error e
    | .ok lo =>
      match locate s (f - 1) with
      | .error e => .error e
      | .ok hi => .ok (lo, hi)

/-! ### Reading and writing places -/

/-- `Read15`: the 15-bit word seen at a place (R90). -/
def getWord (s : State) : Place → Word
  | .a => ovc s.a
  | .l => ovc s.l
  | .q => ovc s.q
  | .eb => ebWord s.eb
  | .fb => fbWord s.fb
  | .z => zWord s.z
  | .bb => bbWord s.fb s.eb
  | .zero => 0
  | .core i => s.erasable.read i
  | .fixed i => s.fixed.read i

/-- What a write to an erasable word stores: the four editing registers transform it (R47-R50, R91). -/
def edit (i : Nat) (w : Word) : Word :=
  if i = 0o20 then w.extractLsb' 0 1 ++ w.extractLsb' 1 14
  else if i = 0o21 then w.extractLsb' 14 1 ++ w.extractLsb' 1 14
  else if i = 0o22 then w.extractLsb' 0 14 ++ w.extractLsb' 14 1
  else if i = 0o23 then (0 : BitVec 8) ++ w.extractLsb' 7 7
  else w

/-- `Write15`: storing a word at a place, under the registers' masks, with editing; address 7 and fixed memory discard it (R91,
R96). -/
def putWord (s : State) (p : Place) (w : Word) : State :=
  match p with
  | .a => s.setA (sx16 w)
  | .l => s.setL (sx16 w)
  | .q => s.setQ (sx16 w)
  | .eb => s.setEb (ebField w)
  | .fb => s.setFb (fbField w)
  | .z => s.setZ (zField w)
  | .bb => (s.setFb (fbField w)).setEb (bbEbField w)
  | .zero => s
  | .core i => s.setErasable (s.erasable.write i (edit i w))
  | .fixed _ => s

/-- `Rewrite`: A, L, Q and fixed memory are left alone, any other place is written with the word it holds, so that an editing
register is edited once more (R94). -/
def rewrite (s : State) (p : Place) : State :=
  match p with
  | .a => s
  | .l => s
  | .q => s
  | .fixed _ => s
  | p => putWord s p (getWord s p)

/-- `Skip(n)` (41_transfer_control.md R190). -/
def skip (n : Addr) (s : State) : State := s.setZ (s.z + n)

/-! ### Channels -/

/-- `ChRead16`: channels 1 and 2 are L and Q, every other channel is sign-extended (R321). -/
def chRead (s : State) (c : Chan) : Wide :=
  if c = 1 then s.l else if c = 2 then s.q else sx16 (s.channels.read c.toNat)

/-- What a write to a channel keeps of a word: channel 7 has bits 7-5 only (R65, R322). -/
def channelMask (c : Chan) (w : Word) : Word := if c = 7 then w &&& 0o160 else w

/-- `ChWrite16`: channels 1 and 2 are L and Q, the scaler channels 3 and 4 are refused (R322). -/
def chWrite (s : State) (c : Chan) (v : Wide) : Except Refusal State :=
  if c = 1 then .ok (s.setL v)
  else if c = 2 then .ok (s.setQ v)
  else if c = 3 ∨ c = 4 then .error .scalerChannelWrite
  else .ok (s.setChannels (s.channels.write c.toNat (channelMask c (ovc v))))

/-! ### Interrupts -/

/-- Whether a request is pending (R35). -/
def Requests.pending (r : Requests) : Rupt → Bool
  | .t6rupt => r.t6
  | .t5rupt => r.t5
  | .t3rupt => r.t3
  | .t4rupt => r.t4
  | .keyrupt1 => r.key1
  | .keyrupt2 => r.key2
  | .uprupt => r.up
  | .downrupt => r.down
  | .radarupt => r.radar
  | .rupt10 => r.r10

/-- The latches with one of them set to a value. -/
def Requests.put (r : Requests) (n : Rupt) (b : Bool) : Requests :=
  match n with
  | .t6rupt => { r with t6 := b }
  | .t5rupt => { r with t5 := b }
  | .t3rupt => { r with t3 := b }
  | .t4rupt => { r with t4 := b }
  | .keyrupt1 => { r with key1 := b }
  | .keyrupt2 => { r with key2 := b }
  | .uprupt => { r with up := b }
  | .downrupt => { r with down := b }
  | .radarupt => { r with radar := b }
  | .rupt10 => { r with r10 := b }

/-- `RequestInterrupt`: the latch is set; a second request of a pending interrupt changes nothing (R383, R386). -/
def requestInterrupt (n : Rupt) (s : State) : State := s.setReq (s.req.put n true)

/-- The number n of an interrupt, 1 to 10 (R381). -/
def ruptNumber : Rupt → Nat
  | .t6rupt => 1
  | .t5rupt => 2
  | .t3rupt => 3
  | .t4rupt => 4
  | .keyrupt1 => 5
  | .keyrupt2 => 6
  | .uprupt => 7
  | .downrupt => 8
  | .radarupt => 9
  | .rupt10 => 10

/-- The entry point of an interrupt, 0o4000 + 4 n (R387). -/
def vector (n : Rupt) : Addr := BitVec.ofNat 12 (0o4000 + 4 * ruptNumber n)

/-- The pending request of highest priority: the lowest vector address (R388). -/
def bestRequest (r : Requests) : Option Rupt :=
  if r.t6 then some .t6rupt
  else if r.t5 then some .t5rupt
  else if r.t3 then some .t3rupt
  else if r.t4 then some .t4rupt
  else if r.key1 then some .keyrupt1
  else if r.key2 then some .keyrupt2
  else if r.up then some .uprupt
  else if r.down then some .downrupt
  else if r.radar then some .radarupt
  else if r.r10 then some .rupt10
  else none

/-- The acceptance condition: all six clauses (R385). -/
def acceptsInterrupt (s : State) : Bool :=
  !s.inhibit && !s.inIsr && !hasOverflow s.a && !s.extracode && !s.indexPending && !s.substitute

/-- The interrupt taken at this boundary, if one is (R384). -/
def interruptTaken (s : State) : Option Rupt := if acceptsInterrupt s then bestRequest s.req else none

/-- Taking an interrupt: the request is cleared, ZRUPT takes Z, BRUPT takes the word at Z, Z goes to the vector, InIsr is set
(R387). It stops where the word at Z cannot be read. -/
def enterInterrupt (n : Rupt) (s : State) : Except Refusal State :=
  let s1 := putWord (s.setReq (s.req.put n false)) (.core 0o15) (zWord s.z)
  match locate s1 s1.z with
  | .error e => .error e
  | .ok p => .ok (((putWord s1 (.core 0o17) (getWord s1 p)).setZ (vector n)).setInIsr true)

/-- Returning from an interrupt: Z takes ZRUPT, the next word comes from BRUPT, InIsr is cleared (40_sequence_control.md R170, R389). -/
def resumeInterrupted (s : State) : State :=
  ((s.setZ (zField (s.erasable.read 0o15))).setSubstitute true).setInIsr false

end Sys2Proof.Machine
end

