-- ==== Sys2Proof/Machine/Operands.lean ====
section
/-!
DEFINITION. The operand forms of the instructions (spec/20_memory.md R92, R93, R97; 42_load_store_exchange.md header): a memory operand by
a 12-bit or a 10-bit address, a double-word operand by an address field, a channel. `Rd16` and `Wr16` on a place, and the two
combinators that find an operand's place and go on with a total operation there.
-/

namespace Sys2Proof.Machine

/-- `is16`: the place is one of the 16-bit registers A, L, Q (R92). -/
def Place.is16 : Place → Bool
  | .a | .l | .q => true
  | .eb | .fb | .z | .bb | .zero | .core _ | .fixed _ => false

/-- `Rd16`: all 16 bits of A, L, Q, any other word sign-extended (R92). -/
def getWide (s : State) : Place → Wide
  | .a => s.a
  | .l => s.l
  | .q => s.q
  | p => sx16 (getWord s p)

/-- `Wr16`: all 16 bits into A, L, Q, overflow-corrected anywhere else (R93). -/
def putWide (s : State) (p : Place) (v : Wide) : State :=
  match p with
  | .a => s.setA v
  | .l => s.setL v
  | .q => s.setQ v
  | p => putWord s p (ovc v)

/-- An instruction whose memory operand is at the address `k`: it stops where the address selects nothing readable (R83, R85),
and otherwise goes on at the place found. -/
def onOperand (s : State) (k : Addr) (f : Place → State) : Host.Outcome State Fault Refusal :=
  match locate s k with
  | .error e => .refused e
  | .ok p => .next (f p)

/-- An instruction with a double-word operand whose address field is `f`: `g lo hi` with `lo` the less significant word's place
(at `f`) and `hi` the more significant one's (at `f - 1`) (R97). No instruction's first access changes where its second one is:
only a field of at most 7 names a bank register. -/
def onPair (s : State) (f : Addr) (g : Place → Place → State) : Host.Outcome State Fault Refusal :=
  match locatePair s f with
  | .error e => .refused e
  | .ok (lo, hi) => .next (g lo hi)

/-! ### Operations several instructions share -/

/-- L overflow-corrected, the last line of DCA, DCS and DXCH (42_load_store_exchange.md R240, R243, R258). -/
def correctL (s : State) : State := s.setL (sx16 (ovc s.l))

/-- L and the word at a place exchanged (R255, and the low words of R258). -/
def exchangeL (s : State) (p : Place) : State :=
  let t := putWide s p s.l
  if p = .l then t else t.setL (getWide s p)

/-- A and the word at a place exchanged (R253, and the high words of R258). -/
def exchangeA (s : State) (p : Place) : State :=
  let t := putWide s p s.a
  if p = .a then t else t.setA (getWide s p)

/-- Q and the word at a place exchanged (R256). -/
def exchangeQ (s : State) (p : Place) : State :=
  let t := putWide s p s.q
  if p = .q then t else t.setQ (getWide s p)

/-- A,L and a double word exchanged, the less significant words first (R258, R102). -/
def exchangePair (s : State) (lo hi : Place) : State := correctL (exchangeA (exchangeL s lo) hi)

/-- A copied to storage; with overflow A becomes +1 or -1 and the next word is skipped (R250). -/
def storeA (s : State) (p : Place) : State :=
  let t := putWide s p s.a
  if hasOverflow s.a then skip 1 (t.setA (overflowUnit s.a)) else t

/-- The next word skipped if A holds overflow (41_transfer_control.md R210). -/
def overflowSkip (s : State) : State := if hasOverflow s.a then skip 1 s else s

/-- A jump to bits 12-1 of A; with overflow A becomes +1 or -1, and nothing is skipped (R211). -/
def jumpToA (s : State) : State :=
  let t := s.setZ (s.a.extractLsb' 0 12)
  if hasOverflow s.a then t.setA (overflowUnit s.a) else t

end Sys2Proof.Machine
end

