-- ==== Sys2Proof/Machine/Counters.lean ====
section
/-!
DEFINITION. The counter registers in motion: the unprogrammed sequences PINC, PCDU, MINC, MCDU, DINC, SHINC, SHANC and GOJ, and the overflow
effects that INCR, AUG and DIM share with them (spec/45_unprogrammed_sequences.md R350-R364). A counter is named by its
address, which is its key in erasable core.
-/

namespace Sys2Proof.Machine

/-- A counter word is written directly, without editing (R350). -/
def setCore (s : State) (i : Nat) (w : Word) : State := s.setErasable (s.erasable.write i w)

/-- A channel word is written by the hardware. -/
def setChannelWord (s : State) (c : Nat) (w : Word) : State := s.setChannels (s.channels.write c w)

/-- What PINC stores: one more in one's complement, +0 after overflow (R353). -/
def pincWord (c : Word) : Word :=
  let t := add16 (sx16 c) plusOne
  if posOverflow t then 0 else ovc t

/-- Whether PINC of this count overflows (R353). -/
def pincOverflows (c : Word) : Bool := posOverflow (add16 (sx16 c) plusOne)

/-- PINC's count without the effect of its overflow. -/
def countUp (i : Nat) (s : State) : State := setCore s i (pincWord (s.erasable.read i))

/-- `CounterOverflow(K)`: TIME1 carries into TIME2, TIME3 to TIME6 request their interrupts, nothing for any other word (R352). The
PINC of TIME2 that TIME1 causes has no further effect (D25). -/
def counterOverflow (i : Nat) (s : State) : State :=
  if i = 0o25 then countUp 0o24 s
  else if i = 0o26 then requestInterrupt .t3rupt s
  else if i = 0o27 then requestInterrupt .t4rupt s
  else if i = 0o30 then requestInterrupt .t5rupt s
  else if i = 0o31 then requestInterrupt .t6rupt s
  else s

/-- What an overflow of the word at an address does when INCR or AUG causes it: as `CounterOverflow`, but TIME1 does not carry into
TIME2 (92_eei_decisions.md D32, 70_reset_and_hazards.md R435; log 11). -/
def instructionOverflow (i : Nat) (s : State) : State := if i = 0o25 then s else counterOverflow i s

/-- PINC (R353). -/
def pinc (i : Nat) (s : State) : State :=
  if pincOverflows (s.erasable.read i) then counterOverflow i (countUp i s) else countUp i s

/-- PCDU: +1 modulo 2^15 (R354). -/
def pcdu (i : Nat) (s : State) : State := setCore s i (s.erasable.read i + 1)

/-- What MINC stores: one less in one's complement, -0 after overflow (R355). -/
def mincWord (c : Word) : Word :=
  let t := add16 (sx16 c) minusOne
  if negOverflow t then 0o77777 else ovc t

/-- MINC (R355). -/
def minc (i : Nat) (s : State) : State := setCore s i (mincWord (s.erasable.read i))

/-- MCDU: -1 modulo 2^15 (R356). -/
def mcdu (i : Nat) (s : State) : State := setCore s i (s.erasable.read i - 1)

/-- One step toward zero; both zeros stay (R357). -/
def dincWord (c : Word) : Word :=
  if isZero15 c then c
  else if bit15 c then ovc (add16 (sx16 c) plusOne)
  else ovc (add16 (sx16 c) minusOne)

/-- `Time6Zero()`: T6RUPT is requested and the counting of TIME6 turned off, bit 15 of channel 0o13 (R357). -/
def time6Zero (s : State) : State :=
  setChannelWord (requestInterrupt .t6rupt s) 0o13 (s.channels.read 0o13 &&& 0o37777)

/-- TIME6 counting is enabled: bit 15 of channel 0o13 (R55, R66). -/
def time6Enabled (s : State) : Bool := bit15 (s.channels.read 0o13)

/-- DINC on TIME6; with counting disabled there is none (R357). -/
def dinc (s : State) : State :=
  if time6Enabled s then
    let r := dincWord (s.erasable.read 0o31)
    if isZero15 r then time6Zero (setCore s 0o31 r) else setCore s 0o31 r
  else s

/-- The pulse a DINC sends to peripheral hardware (R351, R357). -/
inductive Pulse where
  | pout | mout | zout
  deriving DecidableEq, Repr

/-- The pulse that goes with DINC's result `r`: by its sign (R357; it changes no state, log 14). -/
def dincPulse (r : Word) : Pulse := if isZero15 r then .zout else if bit15 r then .mout else .pout

/-- The address of a shifted counter (R358). -/
def shiftAddress : ShiftCounter → Nat
  | .inlink => 0o45
  | .rnrad => 0o46
  | .outlink => 0o57

/-- The interrupt a shifted counter requests (R358). -/
def shiftRupt : ShiftCounter → Rupt
  | .inlink => .uprupt
  | .rnrad => .radarupt
  | .outlink => .downrupt

/-- Shifting a counter left by one and adding `bit`; a 1 leaving bit 15 requests the interrupt (R358, R359). -/
def shiftCounter (c : ShiftCounter) (bit : Word) (s : State) : State :=
  let w := s.erasable.read (shiftAddress c)
  let t := setCore s (shiftAddress c) (w + w + bit)
  if bit15 w then requestInterrupt (shiftRupt c) t else t

/-- SHINC (R358). -/
def shinc (c : ShiftCounter) (s : State) : State := shiftCounter c 0 s

/-- SHANC (R359). -/
def shanc (c : ShiftCounter) (s : State) : State := shiftCounter c 1 s

/-- GOJ, with what Inhibit and Req are afterwards (R364). -/
def goj (inhibit : Bool) (req : Requests) (s : State) : State :=
  { s with z := 0o4000, inIsr := false, extracode := false, indexPending := false, indexValue := 0, substitute := false,
           inhibit := inhibit, req := req }

end Sys2Proof.Machine
end

