-- ==== Sys2Proof/Machine/Environment.lean ====
section
/-!
DEFINITION. What the environment does at an instruction boundary (spec/45_unprogrammed_sequences.md R350, R367; 60_exceptions.md R383;
70_reset_and_hazards.md R456). An action whose precondition does not hold changes nothing.
-/

namespace Sys2Proof.Machine

/-- The addresses of TIME1 to TIME5 (R51-R54), the clocks the environment may pulse (TIME2 by itself: log 18). -/
def timeAddress : TimeCounter → Nat
  | .time1 => 0o25
  | .time2 => 0o24
  | .time3 => 0o26
  | .time4 => 0o27
  | .time5 => 0o30

/-- The addresses of the PIPA and hand-controller counters (R58, R59). -/
def pulseAddress : PulseCounter → Nat
  | .pipaX => 0o37
  | .pipaY => 0o40
  | .pipaZ => 0o41
  | .qRhc => 0o42
  | .pRhc => 0o43
  | .rRhc => 0o44

/-- The addresses of the CDU and optics counters (R56, R57). -/
def cduAddress : CduCounter → Nat
  | .cduX => 0o32
  | .cduY => 0o33
  | .cduZ => 0o34
  | .optY => 0o35
  | .optX => 0o36

/-- The addresses of the hand-controller registers (R59). -/
def rhcAddress : RhcAxis → Nat
  | .pitch => 0o42
  | .yaw => 0o43
  | .roll => 0o44

/-- The addresses of CDUXCMD, CDUYCMD, CDUZCMD (R63). -/
def driveAddress : DriveAxis → Nat
  | .x => 0o50
  | .y => 0o51
  | .z => 0o52

/-- The drive-enable bit of an axis: bits 15, 14, 13 of channel 0o14 (R63, R67). -/
def driveEnabled (s : State) : DriveAxis → Bool
  | .x => (s.channels.read 0o14).getLsbD 14
  | .y => (s.channels.read 0o14).getLsbD 13
  | .z => (s.channels.read 0o14).getLsbD 12

/-- The counters a vehicle has: those marked "LM only" are absent from the CM (R59, R63, R7). -/
def registerPresent (v : Vehicle) (i : Nat) : Bool :=
  v == .lm || !(i == 0o42 || i == 0o43 || i == 0o44 || i == 0o55 || i == 0o56 || i == 0o60)

/-- What vector 0o4050 serves: landing guidance in the LM (RUPT10), hand control in the CM (HANDRUPT) (60_exceptions.md R381). -/
inductive Rupt10Use where
  | landingGuidance | handControl
  deriving DecidableEq, Repr

/-- The use of vector 0o4050 in a vehicle; the entry is the same in both (R381, R387). -/
def rupt10Use : Vehicle → Rupt10Use
  | .lm => .landingGuidance
  | .cm => .handControl

/-- The hand-controller counts are enabled and requested: bits 8 and 9 of channel 0o13 (R59, R66). -/
def rhcEnabled (s : State) : Bool := (s.channels.read 0o13).getLsbD 7 && (s.channels.read 0o13).getLsbD 8

/-- The hand controller may change its count at an address: the register is there and the counts are enabled and requested (R59, R366,
60_exceptions.md R386). -/
def rhcCounts (s : State) (i : Nat) : Bool := registerPresent s.vehicle i && rhcEnabled s

/-- A pulse reaches a counter: the PIPAs' always (U9), the hand controller's under its gate (R366). -/
def pulseCounts (s : State) : PulseCounter → Bool
  | .pipaX | .pipaY | .pipaZ => true
  | .qRhc => rhcCounts s 0o42
  | .pRhc => rhcCounts s 0o43
  | .rRhc => rhcCounts s 0o44

/-- The count left in GYROCTR lies between zero and the count that was there (93_implementation_defined.md U10; log 16). -/
def drainsToward (left count : Word) : Bool :=
  decide ((val15 left).natAbs ≤ (val15 count).natAbs) && (isZero15 left || bit15 left == bit15 count)

/-- The channels the environment may change: none that is a register (1, 2), the superbank (7) or a described output (5, 6, 0o13, 0o14,
0o34, 0o35) (R64-R67, R456; log 15). -/
def environmentChannel (c : Chan) : Bool :=
  !(c == 1 || c == 2 || c == 5 || c == 6 || c == 7 || c == 0o13 || c == 0o14 || c == 0o34 || c == 0o35)

/-- Out of detent: bit 15 of channel 0o31 is cleared (R59). -/
def clearDetent (s : State) : State := setChannelWord s 0o31 (s.channels.read 0o31 &&& 0o37777)

/-- One pulse of the scaler: channel 4 counts, and its overflow counts channel 3 (R64, 90_conflicts.md C12; log 15). -/
def scalerTick (s : State) : State :=
  let t := setChannelWord s 4 (pincWord (s.channels.read 4))
  if pincOverflows (s.channels.read 4) then setChannelWord t 3 (pincWord (t.channels.read 3)) else t

/-- One action of the environment. -/
def applyAction (e : EnvAction) (s : State) : State :=
  match e with
  | .pincTime c => pinc (timeAddress c) s
  | .pincPulse c => if pulseCounts s c then pinc (pulseAddress c) s else s
  | .minc c => if pulseCounts s c then minc (pulseAddress c) s else s
  | .pcdu c => pcdu (cduAddress c) s
  | .mcdu c => mcdu (cduAddress c) s
  | .dinc => dinc s
  | .shinc c => shinc c s
  | .shanc c => shanc c s
  | .goj inhibit req => goj inhibit req s
  | .uplinkWord w => requestInterrupt .uprupt (setCore s 0o45 w)
  | .rhcDeposit c w outOfDetent =>
    if rhcCounts s (rhcAddress c) && decide ((val15 w).natAbs ≤ 57) then
      (if outOfDetent then clearDetent (setCore s (rhcAddress c) w) else setCore s (rhcAddress c) w)
    else s
  | .gyroDrain left =>
    if (s.channels.read 0o14).getLsbD 9 && !(s.erasable.read 0o47 == 0) && drainsToward left (s.erasable.read 0o47) then
      setCore s 0o47 left
    else s
  | .cduCmdDrain axis zeroed => if driveEnabled s axis && zeroed then setCore s (driveAddress axis) 0 else s
  | .scalerTick => scalerTick s
  | .setChannel c w => if environmentChannel c then setChannelWord s c.toNat w else s
  | .keystroke1 => requestInterrupt .keyrupt1 s
  | .keystroke2 => requestInterrupt .keyrupt2 s
  | .downlinkReady => requestInterrupt .downrupt s
  | .rupt10Event => requestInterrupt .rupt10 s

/-- The actions of one boundary, in their order (R350). -/
def applyActions : List EnvAction → State → State
  | [], s => s
  | e :: rest, s => applyActions rest (applyAction e s)

/-- The environment's actions of the coming boundary are done and leave the schedule (log 5). -/
def environmentActs (s : State) : State := applyActions (s.schedule.headD []) (s.setSchedule s.schedule.tail)

end Sys2Proof.Machine
end

