-- ==== Sys2Proof/Machine/Cycle.lean ====
section
/-!
DEFINITION. What a step does around an instruction: the environment's actions and the interrupt of a boundary
(spec/45_unprogrammed_sequences.md R350, 60_exceptions.md R384), and steps 1 to 4 of the instruction cycle
(40_sequence_control.md R160, R161). Step.lean puts them together.
-/

namespace Sys2Proof.Machine

/-- One instruction boundary: the environment acts, then at most one interrupt is entered (R350, R384, D33). -/
def boundary (s : State) : Except Refusal State :=
  match interruptTaken (environmentActs s) with
  | some n => enterInterrupt n (environmentActs s)
  | none => .ok (environmentActs s)

/-- Step 1 of R160: the word fetched, from BRUPT when resuming, else from the address in Z. -/
def fetchWord (s : State) : Except Refusal Word :=
  if s.substitute then .ok (s.erasable.read 0o17)
  else
    match locate s s.z with
    | .error e => .error e
    | .ok p => .ok (getWord s p)

/-- Step 3 of R160: the word that is decoded, the fetched one with a pending index added (R161). -/
def indexedWord (s : State) (w : Word) : Word :=
  if s.indexPending then ovc (add16 (sx16 w) (sx16 s.indexValue)) else w

/-- The hidden state and Z after steps 1 to 4 of R160: Substitute, the pending index and Extracode are consumed, Z is advanced. -/
def advanced (s : State) : State :=
  { s with substitute := false, z := s.z + 1, indexPending := false,
           indexValue := if s.indexPending then 0 else s.indexValue, extracode := false }

/-- The instruction that is executed when `w` is the word fetched (steps 3 to 5 of R160). -/
def instructionOf (s : State) (w : Word) : Instr := decode s.extracode s.indexPending (indexedWord s w)

/-- A word stored where a fetch at Z finds it, Z kept if some word can be stored there, else Z sent to 0o4000. -/
def placeAtZ (s : State) (w : Word) : State :=
  match locate s s.z with
  | .ok .a => s.setA (sx16 w)
  | .ok .l => s.setL (sx16 w)
  | .ok .q => s.setQ (sx16 w)
  | .ok (.core i) => s.setErasable (s.erasable.write i w)
  | .ok (.fixed i) => s.setFixed (s.fixed.write i w)
  | _ => (s.setFixed (s.fixed.write 0o4000 w)).setZ 0o4000

/-- No action at the coming boundary, no index pending, Extracode as given: what a step needs so that the next word fetched is
read as it stands. -/
def quiet (s : State) (extracode : Bool) : State :=
  { s with extracode := extracode, indexPending := false, indexValue := 0,
           schedule := if s.schedule.headD [] = [] then s.schedule else [] :: s.schedule.tail }

/-- The requests dropped if one of them would be taken at this boundary. -/
def withoutInterrupt (s : State) : State := if interruptTaken s = none then s else s.setReq Requests.empty

/-- The state whose very next step fetches and runs the word `w` with the Extracode flag `extracode` (log 9). Nothing is changed that
already allows it. -/
def placeInstruction (s : State) (extracode : Bool) (w : Word) : State :=
  let t := quiet s extracode
  if t.substitute then (withoutInterrupt t).setErasable (t.erasable.write 0o17 w)
  else placeAtZ (withoutInterrupt t) w

end Sys2Proof.Machine
end

