-- ==== Sys2Proof/Config.lean ====
section
/-!
DEFINITION. What the spec leaves open and a run cannot fix: the free values. A free value has no body, so that no proof can
see which value it is.
-/

namespace Sys2Proof

/-- What a draw of a 16-bit value gives: the n-th draw of a run. DV leaves two of them in A and L where the spec says only
'any 16-bit value' (spec/43_arithmetic.md R305, 93_implementation_defined.md U1; log 7). -/
opaque Config.drawnWide : Nat → Wide

end Sys2Proof
end

