-- ==== Sys2Proof/Machine/Arithmetic.lean ====
section
/-!
DEFINITION. The meanings of the arithmetic instructions (spec/43_arithmetic.md R271-R305). A meaning is given the state of step 5 of
R160: Z already at the next word, Extracode already cleared.
-/

namespace Sys2Proof.Machine

/-- AD (R271). -/
def execAd (k : Addr) (s : State) : Host.Outcome State Fault Refusal :=
  onOperand s k fun p => rewrite (s.setA (add16 s.a (getWide s p))) p

/-- DOUBLE, AD A (R272). -/
def execDouble (s : State) : Host.Outcome State Fault Refusal := .next (s.setA (add16 s.a s.a))

/-- A and the word at a place added, the sum stored in both (R274). -/
def addToStorage (s : State) (p : Place) : State :=
  let sum := add16 s.a (getWide s p)
  putWide (s.setA sum) p sum

/-- ADS (R274). -/
def execAds (k : EAddr) (s : State) : Host.Outcome State Fault Refusal :=
  onOperand s (erasableAddr k) fun p => addToStorage s p

/-- A,L added to a double word in storage; L becomes +0 and A the overflow of the sum (R276). -/
def addPairToStorage (s : State) (lo hi : Place) : State :=
  let low := add16 s.l (getWide s lo)
  let high := addCarry (add16 s.a (getWide s hi)) low
  let t := putWide (putWide s lo (sx16 (ovc low))) hi high
  (t.setL 0).setA (overflowUnit high)

/-- A,L doubled in place (R277). -/
def doublePair (s : State) : State :=
  let low := add16 s.l s.l
  (s.setL (sx16 (ovc low))).setA (addCarry (add16 s.a s.a) low)

/-- DAS; address field 1 is DDOUBL (R276). -/
def execDas (f : EAddr) (s : State) : Host.Outcome State Fault Refusal :=
  if f = 1 then .next (doublePair s)
  else onPair s (erasableAddr f) fun lo hi => addPairToStorage s lo hi

/-- DDOUBL, DAS A (R277). -/
def execDdoubl (s : State) : Host.Outcome State Fault Refusal := .next (doublePair s)

/-- SU (R280). -/
def execSu (k : EAddr) (s : State) : Host.Outcome State Fault Refusal :=
  onOperand s (erasableAddr k) fun p => rewrite (s.setA (add16 s.a (~~~(getWide s p)))) p

/-- A two's-complement difference of wide values turned into one's complement (R283). -/
def modularWide (x y : Wide) : Wide :=
  let d := x - y
  if bit16 d then d - 1 else d

/-- A two's-complement difference of words turned into one's complement (R283). -/
def modularWord (x y : Word) : Word :=
  let d := x - y
  if bit15 d then d - 1 else d

/-- What MSU leaves in A (R283). -/
def modularDifference (s : State) (p : Place) : Wide :=
  if p.is16 then modularWide s.a (getWide s p) else sx16 (modularWord (ovc s.a) (getWord s p))

/-- MSU (R283). -/
def execMsu (k : EAddr) (s : State) : Host.Outcome State Fault Refusal :=
  onOperand s (erasableAddr k) fun p => rewrite (s.setA (modularDifference s p)) p

/-- A new value stored at a place whose address is `k`; an overflow of it in a 15-bit location has the counter's effect (R285, R287,
decision D32). -/
def storeCount (s : State) (k : EAddr) (p : Place) (r : Wide) : State :=
  if decide (2 < k.toNat) && hasOverflow r then instructionOverflow k.toNat (putWide s p r) else putWide s p r

/-- INCR (R285). -/
def execIncr (k : EAddr) (s : State) : Host.Outcome State Fault Refusal :=
  onOperand s (erasableAddr k) fun p => storeCount s k p (add16 (getWide s p) plusOne)

/-- One step away from zero (R287). -/
def augmented (v : Wide) : Wide := if bit16 v then add16 v minusOne else add16 v plusOne

/-- AUG (R287). -/
def execAug (k : EAddr) (s : State) : Host.Outcome State Fault Refusal :=
  onOperand s (erasableAddr k) fun p => storeCount s k p (augmented (getWide s p))

/-- One step toward zero; both zeros stay (R289). -/
def diminished (v : Wide) : Wide :=
  if isZero16 v then v else if bit16 v then add16 v plusOne else add16 v minusOne

/-- The diminished value stored; TIME6 brought to zero has its effect (R289). -/
def diminish (s : State) (k : EAddr) (p : Place) : State :=
  let v := getWide s p
  let t := putWide s p (diminished v)
  if k = 0o31 ∧ isZero16 v = false ∧ isZero16 (diminished v) = true then time6Zero t else t

/-- DIM (R289). -/
def execDim (k : EAddr) (s : State) : Host.Outcome State Fault Refusal :=
  onOperand s (erasableAddr k) fun p => diminish s k p

/-- The sign of a zero product: -0 when A was +0 and the other factor negative, or A was -0 and it was positive (R295). -/
def zeroProductNegative (a k : Word) : Bool :=
  (a == 0 && decide (val15 k < 0)) || (a == 0o77777 && decide (0 < val15 k))

/-- Whether a product is negative, zero products included (R295). -/
def productNegative (a k : Word) : Bool :=
  if val15 a * val15 k = 0 then zeroProductNegative a k else decide (val15 a * val15 k < 0)

/-- A,L := the double-precision product of ovc(A) and a word, both words with the product's sign (R295). -/
def multiply (s : State) (k : Word) : State :=
  let a := ovc s.a
  let m := (val15 a * val15 k).natAbs
  let neg := productNegative a k
  (s.setA (sx16 (signedWord (m / 2 ^ 14) neg))).setL (sx16 (signedWord (m % 2 ^ 14) neg))

/-- MP (R295). -/
def execMp (k : Addr) (s : State) : Host.Outcome State Fault Refusal :=
  onOperand s k fun p => multiply s (getWord s p)

/-- SQUARE, MP A (R300). -/
def execSquare (s : State) : Host.Outcome State Fault Refusal := .next (multiply s (ovc s.a))

/-- The double-precision dividend as an integer (R305). -/
def dividend (a l : Word) : Int := val15 a * 2 ^ 14 + val15 l

/-- The sign of the dividend: L's where A is ±0, else A's (R305). -/
def dividendNegative (a l : Word) : Bool := if isZero15 a then bit15 l else bit15 a

/-- The magnitude of the quotient; 0o37777 where dividend and divisor are of equal magnitude (R305). -/
def quotientOf (d m : Nat) : Nat := if d = m * 2 ^ 14 then 0o37777 else d / m

/-- The magnitude of the remainder; the divisor where dividend and divisor are of equal magnitude (R305). -/
def remainderOf (d m : Nat) : Nat := if d = m * 2 ^ 14 then m else d % m

/-- A,L divided by a word; where the dividend is the larger in magnitude, A and L are two free values (R305, U1; log 7). -/
def divide (s : State) (k : Word) : State :=
  let a := ovc s.a
  let l := ovc s.l
  let d := (dividend a l).natAbs
  let m := (val15 k).natAbs
  let dneg := dividendNegative a l
  if d > m * 2 ^ 14 then
    ((s.setA (Config.drawnWide s.draws)).setL (Config.drawnWide (s.draws + 1))).setDraws (s.draws + 2)
  else
    (s.setA (sx16 (signedWord (quotientOf d m) (dneg != bit15 k)))).setL (sx16 (signedWord (remainderOf d m) dneg))

/-- DV (R305). -/
def execDv (k : EAddr) (s : State) : Host.Outcome State Fault Refusal :=
  onOperand s (erasableAddr k) fun p => divide s (getWord s p)

end Sys2Proof.Machine
end

