-- ==== Sys2Proof/Machine/LoadStore.lean ====
section
/-!
DEFINITION. The meanings of the load, store and exchange instructions (spec/42_load_store_exchange.md R231-R263). A meaning is given
the state of step 5 of R160: Z already at the next word, Extracode already cleared.
-/

namespace Sys2Proof.Machine

/-- CA (R231). -/
def execCa (k : Addr) (s : State) : Host.Outcome State Fault Refusal :=
  onOperand s k fun p => rewrite (s.setA (getWide s p)) p

/-- NOOP in erasable memory, CA A (R232). -/
def execNoopErasable (s : State) : Host.Outcome State Fault Refusal := .next (s.setA s.a)

/-- CS (R234). -/
def execCs (k : Addr) (s : State) : Host.Outcome State Fault Refusal :=
  onOperand s k fun p => rewrite (s.setA (~~~(getWide s p))) p

/-- COM, CS A (R235). -/
def execCom (s : State) : Host.Outcome State Fault Refusal := .next (s.setA (~~~s.a))

/-- A double word loaded through `f` into A,L, the less significant word first (R240, R243). -/
def loadPair (f : Wide → Wide) (s : State) (lo hi : Place) : State :=
  let t := rewrite (s.setL (f (getWide s lo))) lo
  correctL (rewrite (t.setA (f (getWide t hi))) hi)

/-- DCA (R240). -/
def execDca (f : Addr) (s : State) : Host.Outcome State Fault Refusal :=
  onPair s f fun lo hi => loadPair (fun v => v) s lo hi

/-- DCS (R243). -/
def execDcs (f : Addr) (s : State) : Host.Outcome State Fault Refusal :=
  onPair s f fun lo hi => loadPair (fun v => ~~~v) s lo hi

/-- DCOM, DCS A (R245). -/
def execDcom (s : State) : Host.Outcome State Fault Refusal := .next (loadPair (fun v => ~~~v) s .l .a)

/-- TS; TS A is OVSK and TS Z is TCAA (R250). -/
def execTs (k : EAddr) (s : State) : Host.Outcome State Fault Refusal :=
  if k = 0 then .next (overflowSkip s)
  else if k = 5 then .next (jumpToA s)
  else onOperand s (erasableAddr k) fun p => storeA s p

/-- XCH (R253). -/
def execXch (k : EAddr) (s : State) : Host.Outcome State Fault Refusal :=
  onOperand s (erasableAddr k) fun p => exchangeA s p

/-- LXCH (R255). -/
def execLxch (k : EAddr) (s : State) : Host.Outcome State Fault Refusal :=
  onOperand s (erasableAddr k) fun p => exchangeL s p

/-- QXCH (R256). -/
def execQxch (k : EAddr) (s : State) : Host.Outcome State Fault Refusal :=
  onOperand s (erasableAddr k) fun p => exchangeQ s p

/-- DXCH (R258). -/
def execDxch (f : EAddr) (s : State) : Host.Outcome State Fault Refusal :=
  onPair s (erasableAddr f) fun lo hi => exchangePair s lo hi

/-- ZL, LXCH with address 7 (R262). -/
def execZl (s : State) : Host.Outcome State Fault Refusal := .next (exchangeL s .zero)

/-- ZQ, QXCH with address 7 (R263). -/
def execZq (s : State) : Host.Outcome State Fault Refusal := .next (exchangeQ s .zero)

end Sys2Proof.Machine
end

