-- ==== Sys2Proof/Machine/LogicIo.lean ====
section
/-!
DEFINITION. The meanings of MASK and of the seven i/o instructions (spec/44_logic_io.md R320-R330). A meaning is given the state of
step 5 of R160: Z already at the next word, Extracode already cleared.
-/

namespace Sys2Proof.Machine

/-- A AND the word at a place: 16 bits of each for A, L, Q, else 15 bits, sign-extended (R320). -/
def maskedWith (s : State) (p : Place) : Wide :=
  if p.is16 then s.a &&& getWide s p else sx16 (ovc s.a &&& getWord s p)

/-- MASK; the operand is not rewritten (R320). -/
def execMask (k : Addr) (s : State) : Host.Outcome State Fault Refusal :=
  onOperand s k fun p => s.setA (maskedWith s p)

/-- `Comb(op, c)`: A and a channel combined, in 16 bits on channels 1 and 2, else in 15 bits and sign-extended (44_logic_io.md section 3). -/
def combine (op16 : Wide → Wide → Wide) (op15 : Word → Word → Word) (s : State) (c : Chan) : Wide :=
  if c = 1 ∨ c = 2 then op16 s.a (chRead s c) else sx16 (op15 (ovc s.a) (s.channels.read c.toNat))

/-- `Comb(AND, c)`. -/
def combineAnd (s : State) (c : Chan) : Wide := combine (· &&& ·) (· &&& ·) s c

/-- `Comb(OR, c)`. -/
def combineOr (s : State) (c : Chan) : Wide := combine (· ||| ·) (· ||| ·) s c

/-- `Comb(XOR, c)`. -/
def combineXor (s : State) (c : Chan) : Wide := combine (· ^^^ ·) (· ^^^ ·) s c

/-- READ (R323). -/
def execRead (kc : Chan) (s : State) : Host.Outcome State Fault Refusal := .next (s.setA (chRead s kc))

/-- WRITE (R324). -/
def execWrite (kc : Chan) (s : State) : Host.Outcome State Fault Refusal := finish (chWrite s kc s.a)

/-- RAND (R325). -/
def execRand (kc : Chan) (s : State) : Host.Outcome State Fault Refusal := .next (s.setA (combineAnd s kc))

/-- WAND (R326). -/
def execWand (kc : Chan) (s : State) : Host.Outcome State Fault Refusal :=
  finish (chWrite (s.setA (combineAnd s kc)) kc (combineAnd s kc))

/-- ROR (R327). -/
def execRor (kc : Chan) (s : State) : Host.Outcome State Fault Refusal := .next (s.setA (combineOr s kc))

/-- WOR (R328). -/
def execWor (kc : Chan) (s : State) : Host.Outcome State Fault Refusal :=
  finish (chWrite (s.setA (combineOr s kc)) kc (combineOr s kc))

/-- RXOR (R329). -/
def execRxor (kc : Chan) (s : State) : Host.Outcome State Fault Refusal := .next (s.setA (combineXor s kc))

end Sys2Proof.Machine
end

