-- ==== Sys2Proof/Machine/SequenceControl.lean ====
section
/-!
DEFINITION. The meanings of EXTEND, INDEX (both forms), RELINT, INHINT, RESUME and EDRUPT (spec/40_sequence_control.md R165-R172).
A meaning is given the state of step 5 of R160: Z already at the next word, Extracode already cleared.
-/

namespace Sys2Proof.Machine

/-- EXTEND (R165). -/
def execExtend (s : State) : Host.Outcome State Fault Refusal := .next (s.setExtracode true)

/-- The index value taken from a place, the place rewritten, the index pending (R166). -/
def pendIndex (s : State) (p : Place) : State :=
  (rewrite (s.setIndexValue (ovc (getWide s p))) p).setIndexPending true

/-- INDEX, basic form; Extracode was 0 at its decoding and stays 0 (R166). -/
def execIndex (k : EAddr) (s : State) : Host.Outcome State Fault Refusal :=
  onOperand s (erasableAddr k) fun p => (pendIndex s p).setExtracode false

/-- INDEX, extracode form: Extracode stays set (R167). -/
def execIndexExt (k : Addr) (s : State) : Host.Outcome State Fault Refusal :=
  onOperand s k fun p => (pendIndex s p).setExtracode true

/-- RELINT (R168). -/
def execRelint (s : State) : Host.Outcome State Fault Refusal := .next (s.setInhibit false)

/-- INHINT (R169). -/
def execInhint (s : State) : Host.Outcome State Fault Refusal := .next (s.setInhibit true)

/-- RESUME (R170). -/
def execResume (s : State) : Host.Outcome State Fault Refusal := .next (resumeInterrupted s)

/-- EDRUPT: the spec gives it no semantics and refuses it (R172, 92_eei_decisions.md D21). -/
def execEdrupt (_kc : Chan) (_s : State) : Host.Outcome State Fault Refusal := .refused .edruptUndescribed

end Sys2Proof.Machine
end

