-- ==== Sys2Proof/Machine/TransferControl.lean ====
section
/-!
DEFINITION. The meanings of the transfer-of-control instructions (spec/41_transfer_control.md R192-R213). A meaning is given the state of
step 5 of R160: Z already at the next word, Extracode already cleared.
-/

namespace Sys2Proof.Machine

/-- A call: Q takes the address of the next word, Z the target (R192). -/
def callTo (k : Addr) (s : State) : State := (s.setQ (zWide s.z)).setZ k

/-- TC: a call, but TC 2 does not write Q (R192, R195). -/
def execTc (k : Addr) (s : State) : Host.Outcome State Fault Refusal :=
  .next (if k = 2 then s.setZ 2 else callTo k s)

/-- XXALQ, TC A (R193). -/
def execXxalq (s : State) : Host.Outcome State Fault Refusal := .next (callTo 0 s)

/-- XLQ, TC L (R194). -/
def execXlq (s : State) : Host.Outcome State Fault Refusal := .next (callTo 1 s)

/-- RETURN, TC Q: Q is not written (R195). -/
def execRet (s : State) : Host.Outcome State Fault Refusal := .next (s.setZ 2)

/-- TCF (R196). -/
def execTcf (k : Addr) (s : State) : Host.Outcome State Fault Refusal := .next (s.setZ k)

/-- NOOP in fixed memory: TCF to the next word (R197). -/
def execNoopFixed (s : State) : Host.Outcome State Fault Refusal := .next (s.setZ s.z)

/-- CCS on the operand value `v`: the diminished absolute value into A, and the four-way skip (R200). -/
def countCompareSkip (v : Wide) (s : State) : State :=
  if v = 0 then skip 1 (s.setA 0)
  else if v = 0o177777 then skip 3 (s.setA 0)
  else if bit16 v then skip 2 (s.setA (~~~v - 1))
  else s.setA (v - 1)

/-- CCS (R200). -/
def execCcs (k : EAddr) (s : State) : Host.Outcome State Fault Refusal :=
  onOperand s (erasableAddr k) fun p => countCompareSkip (getWide s p) (rewrite s p)

/-- BZF (R205). -/
def execBzf (k : Addr) (s : State) : Host.Outcome State Fault Refusal :=
  .next (if isZero16 s.a then s.setZ k else s)

/-- BZMF (R207). -/
def execBzmf (k : Addr) (s : State) : Host.Outcome State Fault Refusal :=
  .next (if s.a == 0 || bit16 s.a then s.setZ k else s)

/-- OVSK, TS A (R210). -/
def execOvsk (s : State) : Host.Outcome State Fault Refusal := .next (overflowSkip s)

/-- TCAA, TS Z (R211). -/
def execTcaa (s : State) : Host.Outcome State Fault Refusal := .next (jumpToA s)

/-- DTCF, DXCH with address field 5: the pair FB, Z (R212). -/
def execDtcf (s : State) : Host.Outcome State Fault Refusal := .next (exchangePair s .z .fb)

/-- DTCB, DXCH with address field 6: the pair Z, BB (R213). -/
def execDtcb (s : State) : Host.Outcome State Fault Refusal := .next (exchangePair s .bb .z)

end Sys2Proof.Machine
end

