-- ==== Sys2Proof/Machine/Dispatch.lean ====
section
/-! DEFINITION. What each instruction does: one arm per constructor of Instr, in the order of spec/opcode_table.json. -/

namespace Sys2Proof.Machine

def exec (i : Instr) (s : State) : Host.Outcome State Fault Refusal :=
  match i with
  | .tc k => Sys2Proof.Machine.execTc k s
  | .xxalq => Sys2Proof.Machine.execXxalq s
  | .xlq => Sys2Proof.Machine.execXlq s
  | .ret => Sys2Proof.Machine.execRet s
  | .relint => Sys2Proof.Machine.execRelint s
  | .inhint => Sys2Proof.Machine.execInhint s
  | .extend => Sys2Proof.Machine.execExtend s
  | .ccs k => Sys2Proof.Machine.execCcs k s
  | .tcf k => Sys2Proof.Machine.execTcf k s
  | .noopFixed => Sys2Proof.Machine.execNoopFixed s
  | .das f => Sys2Proof.Machine.execDas f s
  | .ddoubl => Sys2Proof.Machine.execDdoubl s
  | .lxch k => Sys2Proof.Machine.execLxch k s
  | .zl => Sys2Proof.Machine.execZl s
  | .incr k => Sys2Proof.Machine.execIncr k s
  | .ads k => Sys2Proof.Machine.execAds k s
  | .ca k => Sys2Proof.Machine.execCa k s
  | .noopErasable => Sys2Proof.Machine.execNoopErasable s
  | .cs k => Sys2Proof.Machine.execCs k s
  | .com => Sys2Proof.Machine.execCom s
  | .index k => Sys2Proof.Machine.execIndex k s
  | .resume => Sys2Proof.Machine.execResume s
  | .dxch f => Sys2Proof.Machine.execDxch f s
  | .dtcf => Sys2Proof.Machine.execDtcf s
  | .dtcb => Sys2Proof.Machine.execDtcb s
  | .ts k => Sys2Proof.Machine.execTs k s
  | .ovsk => Sys2Proof.Machine.execOvsk s
  | .tcaa => Sys2Proof.Machine.execTcaa s
  | .xch k => Sys2Proof.Machine.execXch k s
  | .ad k => Sys2Proof.Machine.execAd k s
  | .double => Sys2Proof.Machine.execDouble s
  | .mask k => Sys2Proof.Machine.execMask k s
  | .read kc => Sys2Proof.Machine.execRead kc s
  | .write kc => Sys2Proof.Machine.execWrite kc s
  | .rand kc => Sys2Proof.Machine.execRand kc s
  | .wand kc => Sys2Proof.Machine.execWand kc s
  | .ror kc => Sys2Proof.Machine.execRor kc s
  | .wor kc => Sys2Proof.Machine.execWor kc s
  | .rxor kc => Sys2Proof.Machine.execRxor kc s
  | .edrupt kc => Sys2Proof.Machine.execEdrupt kc s
  | .dv k => Sys2Proof.Machine.execDv k s
  | .bzf k => Sys2Proof.Machine.execBzf k s
  | .msu k => Sys2Proof.Machine.execMsu k s
  | .qxch k => Sys2Proof.Machine.execQxch k s
  | .zq => Sys2Proof.Machine.execZq s
  | .aug k => Sys2Proof.Machine.execAug k s
  | .dim k => Sys2Proof.Machine.execDim k s
  | .dca f => Sys2Proof.Machine.execDca f s
  | .dcs f => Sys2Proof.Machine.execDcs f s
  | .dcom => Sys2Proof.Machine.execDcom s
  | .indexExt k => Sys2Proof.Machine.execIndexExt k s
  | .su k => Sys2Proof.Machine.execSu k s
  | .bzmf k => Sys2Proof.Machine.execBzmf k s
  | .mp k => Sys2Proof.Machine.execMp k s
  | .square => Sys2Proof.Machine.execSquare s

end Sys2Proof.Machine
end

