-- ==== Sys2Proof/Machine/Step.lean ====
section
/-! DEFINITION. One step of the machine: a boundary, then one execution of R160 (spec/40_sequence_control.md; log 6). -/

namespace Sys2Proof.Machine

/-- One execution of R160 (without the boundary before it). -/
def cycle (s : State) : Host.Outcome State Fault Refusal :=
  match fetchWord s with
  | .error e => .refused e
  | .ok w => exec (instructionOf s w) (advanced s)

/-- One step: the environment's actions of this boundary, the interrupt if one is taken, one instruction. -/
def step (s : State) : Host.Outcome State Fault Refusal :=
  match boundary s with
  | .error e => .refused e
  | .ok t => cycle t

/-- The state with the instruction whose bits are `w` stored where the next step fetches it; bit 15 of `w`, above the 15-bit word,
stands for the Extracode flag, the 16th decoding bit (R120; log 9). -/
def State.withFetchWord (s : State) (_nbits w : Nat) : State :=
  placeInstruction s (w.testBit 15) (BitVec.ofNat 15 w)

end Sys2Proof.Machine
end

