-- ==== Sys2Proof/Safety.lean ====
section
/-!
DEFINITION. The terms statements use: the coherence of a state, which every step keeps; what an instruction leaves unchanged and
what a place holds after a store or a Rewrite (spec/20_memory.md R90-R94); the results of MP and DV; the end of a run
(70_reset_and_hazards.md R455).
-/

namespace Sys2Proof.Machine

/-- Every key of a memory satisfies a test. -/
def Memory.keysSatisfy (m : Memory) (test : Nat → Bool) : Bool := m.all fun cell => test cell.1

/-- The keys of erasable core: 8 banks of 0o400 words, less the eight central registers (R36, R83). -/
def erasableKey (i : Nat) : Bool := decide (0o10 ≤ i) && decide (i < 8 * 0o400)

/-- The keys of fixed memory: 36 banks of 0o2000 words (R84). -/
def fixedMemoryKey (i : Nat) : Bool := decide (i < 36 * 0o2000)

/-- The keys of channel storage: 512 channels, of which 1 and 2 are L and Q (R36, R64). -/
def channelKey (i : Nat) : Bool := decide (i < 512) && !(i == 1) && !(i == 2)

/-- A state in which every piece of data is in its form: the three memories canonical and within their spaces, channel 7 with no
bit but 7-5 (R65), an index value only while an index is pending (R33, R160), and no index and no Extracode flag while a BRUPT
substitution is due (R161, R170). -/
structure Coherent (s : State) : Prop where
  erasable_wf : s.erasable.wf = true
  fixed_wf : s.fixed.wf = true
  channels_wf : s.channels.wf = true
  erasable_keys : s.erasable.keysSatisfy erasableKey = true
  fixed_keys : s.fixed.keysSatisfy fixedMemoryKey = true
  channels_keys : s.channels.keysSatisfy channelKey = true
  superbank_bits : s.channels.read 7 &&& 0o160 = s.channels.read 7
  index_value : s.indexPending = false → s.indexValue = 0
  substitute_plain : s.substitute = true → s.extracode = false ∧ s.indexPending = false

/-! ### Frames -/

/-- A store at one of the two places can change what the other reads as: they are one place, or BB and one of its fields (R26). -/
def Place.sharesState : Place → Place → Bool
  | .bb, .eb => true
  | .bb, .fb => true
  | .eb, .bb => true
  | .fb, .bb => true
  | x, y => x == y

/-- A store at any of the places `changed` leaves what `x` reads as. -/
def Place.apartFrom (x : Place) (changed : List Place) : Bool := changed.all fun y => !y.sharesState x

/-- Every register and every word of memory but the places `changed` reads in `t` as in `s`; the channels, the hidden state, the
interrupt requests and the model's own fields are equal. -/
structure UnchangedBut (changed : List Place) (s t : State) : Prop where
  places : ∀ x : Place, x.apartFrom changed = true → getWide t x = getWide s x
  channels : t.channels = s.channels
  extracode : t.extracode = s.extracode
  inhibit : t.inhibit = s.inhibit
  inIsr : t.inIsr = s.inIsr
  indexPending : t.indexPending = s.indexPending
  indexValue : t.indexValue = s.indexValue
  substitute : t.substitute = s.substitute
  req : t.req = s.req
  draws : t.draws = s.draws
  schedule : t.schedule = s.schedule
  vehicle : t.vehicle = s.vehicle

/-- What a place reads as, in 16 bits, once the wide value `v` has been stored there (R91, R93): all of it in A, L, Q, under the
masks in EB, FB, Z, BB, nothing in address 7 and fixed memory, edited in the editing registers. -/
def storedAs (s : State) (v : Wide) : Place → Wide
  | .a => v
  | .l => v
  | .q => v
  | .eb => sx16 (ebWord (ebField (ovc v)))
  | .fb => sx16 (fbWord (fbField (ovc v)))
  | .z => sx16 (zWord (zField (ovc v)))
  | .bb => sx16 (bbWord (fbField (ovc v)) (bbEbField (ovc v)))
  | .zero => 0
  | .core i => sx16 (edit i (ovc v))
  | .fixed i => sx16 (s.fixed.read i)

/-- The places a Rewrite can change: the four editing registers (R94). -/
def Place.edited : Place → List Place
  | .core i => if 0o20 ≤ i ∧ i ≤ 0o23 then [.core i] else []
  | _ => []

/-- What a place reads as after a Rewrite (R94). -/
def rewrittenAs (s : State) : Place → Wide
  | .core i => sx16 (edit i (s.erasable.read i))
  | p => getWide s p

/-- `t` is `s` after an instruction that left `v` in A and rewrote its operand at `p`. -/
structure LoadedA (s t : State) (p : Place) (v : Wide) : Prop where
  a : t.a = v
  operand : p ≠ .a → getWide t p = rewrittenAs s p
  others : UnchangedBut (.a :: p.edited) s t

/-- `t` is `s` after A and L received the word pair at `hi`, `lo`, read through `f`, and the pair was rewritten (R240, R243). -/
structure LoadedPair (s t : State) (lo hi : Place) (f : Wide → Wide) : Prop where
  a : t.a = f (getWide s hi)
  l : t.l = sx16 (ovc (f (getWide s lo)))
  low : getWide t lo = rewrittenAs s lo
  high : getWide t hi = rewrittenAs s hi
  others : UnchangedBut (.a :: .l :: (lo.edited ++ hi.edited)) s t

/-- Two wide values that are words sign-extended: no overflow in either. -/
def bothClear (x y : Wide) : Prop := hasOverflow x = false ∧ hasOverflow y = false

/-- `t` is `s` after A,L received the product of ovc(A) and the word `k` (R295, R300): the integer product, both words with its
sign, and the sign of a zero product. -/
structure Multiplied (s t : State) (k : Word) : Prop where
  clear : bothClear t.a t.l
  value : val15 (ovc t.a) * 2 ^ 14 + val15 (ovc t.l) = val15 (ovc s.a) * val15 k
  sign : bit15 (ovc t.a) = bit15 (ovc t.l)
  nonzero : val15 (ovc s.a) * val15 k ≠ 0 → bit15 (ovc t.a) = decide (val15 (ovc s.a) * val15 k < 0)
  zero : val15 (ovc s.a) * val15 k = 0 →
    t.a = if (ovc s.a = 0 ∧ val15 k < 0) ∨ (ovc s.a = 0o77777 ∧ 0 < val15 k) then 0o177777 else 0
  others : UnchangedBut [.a, .l] s t

/-- `t` is `s` after A,L was divided by the word `k`, the dividend being at most the divisor in magnitude (R305): quotient and
remainder, and their signs. -/
structure Divided (s t : State) (k : Word) : Prop where
  clear : bothClear t.a t.l
  below : (dividend (ovc s.a) (ovc s.l)).natAbs < (val15 k).natAbs * 2 ^ 14 →
    val15 (ovc t.a) * val15 k + val15 (ovc t.l) = dividend (ovc s.a) (ovc s.l) ∧
      (val15 (ovc t.l)).natAbs < (val15 k).natAbs
  equal : (dividend (ovc s.a) (ovc s.l)).natAbs = (val15 k).natAbs * 2 ^ 14 →
    (val15 (ovc t.a)).natAbs = 0o37777 ∧ (val15 (ovc t.l)).natAbs = (val15 k).natAbs
  quotientSign : bit15 (ovc t.a) = (dividendNegative (ovc s.a) (ovc s.l) != bit15 k)
  remainderSign : bit15 (ovc t.l) = dividendNegative (ovc s.a) (ovc s.l)
  others : UnchangedBut [.a, .l] s t

/-! ### Runs -/

/-- The word at Z is a jump to itself: `TCF Z` in fixed memory, or `TC Z` in erasable memory at or above 0o10 (R455). -/
def jumpsToItself (s : State) (w : Word) : Bool :=
  (Instr.fixedAddress s.z && w == word12 1 s.z) || (!Instr.fixedAddress s.z && decide (0o10 ≤ s.z.toNat) && w == zWord s.z)

/-- A run ends at the first boundary at which this holds (R455). -/
def runEnds (s : State) : Bool :=
  !s.extracode && !s.indexPending && !s.substitute &&
    match locate s s.z with
    | .ok p => jumpsToItself s (getWord s p)
    | .error _ => false

end Sys2Proof.Machine
end

