-- ==== Sys2Proof/Certificates/Slice0/Obligations.lean ====
section
/-!
DEFINITION. The statements for the provers. `exec` is given the state of step 5 of spec/40_sequence_control.md R160: Z is already
the address of the next word, Extracode already cleared.
-/

open Sys2Proof Sys2Proof.Machine

/-! ### Encoding -/

/-- Every well-formed instruction is the reading of its own word (30_encoding.md; the fixed-memory NOOP is the TCF it is assembled
as). -/
def Obligations.DecodeEncode : Prop :=
  ∀ (i : Instr) (next : Addr) (indexed : Bool), i.wellFormed = true → i.readableWhen indexed = true →
    (i = .noopFixed → Instr.fixedAddress next = true) →
    decode i.isExtracode indexed (encode next i) = if i = .noopFixed then .tcf next else i

/-- Every word decodes, in each of the two instruction sets and indexed or not, to a well-formed instruction of that set whose word
it is: no bit is dropped and no word is rejected (30_encoding.md section 2). -/
def Obligations.EncodeDecode : Prop :=
  ∀ (extracode indexed : Bool) (w : Word) (next : Addr),
    encode next (decode extracode indexed w) = w ∧ (decode extracode indexed w).wellFormed = true ∧
      (decode extracode indexed w).isExtracode = extracode ∧ (decode extracode indexed w).readableWhen indexed = true

/-- Some words of the instruction table, one or more of each family. -/
def Obligations.KnownWords : Prop :=
  decode false false 0o00006 = .extend ∧ decode true false 0o00006 = .read 6 ∧ decode false false 0o50017 = .resume ∧
    decode true false 0o50017 = .indexExt 0o17 ∧ decode false false 0o12345 = .tcf 0o2345 ∧
    decode false false 0o10100 = .ccs 0o100 ∧ decode true false 0o10100 = .dv 0o100 ∧ decode false false 0o52101 = .dxch 0o101 ∧
    decode true false 0o26031 = .dim 0o31 ∧ decode true false 0o40001 = .dcom ∧ decode false false 0o70777 = .mask 0o777 ∧
    decode true false 0o03011 = .wand 0o11

/-! ### The step -/

/-- A step runs the decoded instruction: after the boundary and the fetch, `exec` is applied to what the word, a pending index
added, decodes to under the Extracode flag, in the state with Z advanced and the hidden state consumed; a boundary or a fetch that
stops, stops the step. -/
def Obligations.StepRunsDecodedInstruction : Prop :=
  ∀ s : State,
    (∀ t w, boundary s = .ok t → fetchWord t = .ok w →
      step s = exec (decode t.extracode t.indexPending (if t.indexPending then ovc (add16 (sx16 w) (sx16 t.indexValue)) else w))
        { t with substitute := false, z := t.z + 1, indexPending := false,
                 indexValue := if t.indexPending then 0 else t.indexValue, extracode := false }) ∧
    (∀ e, boundary s = .error e → step s = .refused e) ∧
    (∀ t e, boundary s = .ok t → fetchWord t = .error e → step s = .refused e)

/-- A boundary with nothing scheduled and no interrupt taken changes nothing; one with an interrupt taken enters it after the
environment's actions. What is fetched then is BRUPT while a substitution is due, else the word at Z through the banks in force; a
fetch, or an interrupt entry, that finds no word at Z stops (for the entry DEDUCED, log 6). -/
def Obligations.BoundaryAndFetch : Prop :=
  ∀ s : State,
    (s.schedule = [] → interruptTaken s = none → boundary s = .ok s) ∧
    (interruptTaken (environmentActs s) = none → boundary s = .ok (environmentActs s)) ∧
    (∀ n, interruptTaken (environmentActs s) = some n → boundary s = enterInterrupt n (environmentActs s)) ∧
    (s.substitute = true → fetchWord s = .ok (s.erasable.read 0o17)) ∧
    (∀ p, s.substitute = false → locate s s.z = .ok p → fetchWord s = .ok (getWord s p)) ∧
    (∀ e, s.substitute = false → locate s s.z = .error e → fetchWord s = .error e) ∧
    (∀ n e, locate s s.z = .error e → enterInterrupt n s = .error e)

/-- After reset Z is 0o4000, no service routine is in progress and no prefix, index or substitution is pending; whatever program is
loaded, the first word fetched is the first word of fixed bank 2, read as a basic, un-indexed instruction. (The values of the rest
are the model's choices, log 2 to 4, and are not stated here.) -/
def Obligations.ResetFetchesBank2 : Prop :=
  State.reset.z = 0o4000 ∧ State.reset.inIsr = false ∧ State.reset.extracode = false ∧ State.reset.indexPending = false ∧
    State.reset.indexValue = 0 ∧ State.reset.substitute = false ∧
    ∀ (program : Memory) (fb : BitVec 5) (channels : Memory),
      fetchWord { State.reset with fixed := program, fb := fb, channels := channels } = .ok (program.read (2 * 0o2000)) ∧
      ∀ w, instructionOf { State.reset with fixed := program, fb := fb, channels := channels } w = decode false false w

/-- The state after reset is coherent. -/
def Obligations.ResetCoherent : Prop := Coherent State.reset

/-- Every step from a coherent state that answers a next state answers a coherent one: the memories canonical and within their
spaces, channel 7 with no bit but 7-5, no index value without a pending index, no index and no Extracode flag while a BRUPT
substitution is due. -/
def Obligations.StepKeepsCoherent : Prop := ∀ s t : State, Coherent s → step s = .next t → Coherent t

/-- No step, whatever the environment does in it, changes a word of fixed memory (20_memory.md R84, R96) or the vehicle. The vehicle
is an open parameter of the spec (00_scope.md R7); that it is a field of the state which no step changes is the model's choice
(DESIGN CHOICE, log 17). -/
def Obligations.StepKeepsFixedMemory : Prop := ∀ s t : State, step s = .next t → t.fixed = s.fixed ∧ t.vehicle = s.vehicle

/-- The hidden state changes only where the spec says: InIsr by RESUME, Inhibit by RELINT and INHINT, Extracode by EXTEND and
INDEX, whether an index is pending and its value by INDEX, Substitute by RESUME. (What the cycle itself consumes before `exec` is in
StepRunsDecodedInstruction.) -/
def Obligations.HiddenStateWriters : Prop :=
  ∀ (i : Instr) (s t : State), exec i s = .next t →
    (t.inIsr ≠ s.inIsr → i = .resume) ∧
    (t.inhibit ≠ s.inhibit → i = .relint ∨ i = .inhint) ∧
    (t.extracode ≠ s.extracode → i = .extend ∨ (∃ k, i = .index k) ∨ ∃ k, i = .indexExt k) ∧
    (t.indexPending ≠ s.indexPending → (∃ k, i = .index k) ∨ ∃ k, i = .indexExt k) ∧
    (t.indexValue ≠ s.indexValue → (∃ k, i = .index k) ∨ ∃ k, i = .indexExt k) ∧
    (t.substitute ≠ s.substitute → i = .resume)

/-- Only WRITE, WAND and WOR change a channel, but for the enable bit that DIM clears when it brings TIME6 to zero. -/
def Obligations.ChannelWriters : Prop :=
  ∀ (i : Instr) (s t : State), exec i s = .next t → t.channels ≠ s.channels →
    (∃ c, i = .write c) ∨ (∃ c, i = .wand c) ∨ (∃ c, i = .wor c) ∨ i = .dim 0o31

/-- No instruction clears an interrupt request, and only INCR, AUG and DIM make one. -/
def Obligations.RequestWriters : Prop :=
  ∀ (i : Instr) (s t : State), exec i s = .next t →
    (∀ n, s.req.pending n = true → t.req.pending n = true) ∧
    (t.req ≠ s.req → (∃ k, i = .incr k) ∨ (∃ k, i = .aug k) ∨ i = .dim 0o31)

/-- One action of the environment, other than GOJ, leaves the central registers, fixed memory, the hidden flags and every word of
erasable core outside the counters 0o24 to 0o60 as they are; and it clears no request. GOJ leaves A, L, Q, EB, FB and all
memories and channels. That the vehicle is a field it leaves
as it is, is the model's choice (log 17). -/
def Obligations.EnvironmentFrame : Prop :=
  ∀ (e : EnvAction) (s : State),
    let t := applyAction e s
    (t.a = s.a ∧ t.l = s.l ∧ t.q = s.q ∧ t.eb = s.eb ∧ t.fb = s.fb ∧ t.fixed = s.fixed ∧ t.vehicle = s.vehicle ∧
      ∀ i, (i < 0o24 ∨ 0o60 < i) → t.erasable.read i = s.erasable.read i) ∧
    ((∀ inhibit req, e ≠ .goj inhibit req) →
      t.z = s.z ∧ t.extracode = s.extracode ∧ t.inhibit = s.inhibit ∧ t.inIsr = s.inIsr ∧ t.indexPending = s.indexPending ∧
        t.indexValue = s.indexValue ∧ t.substitute = s.substitute ∧ ∀ n, s.req.pending n = true → t.req.pending n = true) ∧
    (∀ inhibit req, e = .goj inhibit req →
      t = { s with z := 0o4000, inIsr := false, extracode := false, indexPending := false, indexValue := 0,
                   substitute := false, inhibit := inhibit, req := req })

/-- A run that has reached its jump to itself stays there while nothing is scheduled and no interrupt is taken: the next step is
at the same address, still at the jump, and differs at most in Q (70_reset_and_hazards.md section 5). -/
def Obligations.EndOfRunIsStable : Prop :=
  ∀ s : State, s.schedule = [] → interruptTaken s = none → runEnds s = true →
    ∃ t, step s = .next t ∧ runEnds t = true ∧ t = { s with q := t.q }

/-! ### Interrupts -/

/-- An interrupt is taken exactly when the six conditions hold and it is pending, and no interrupt with a lower vector is: the
acceptance condition and the priority order (60_exceptions.md section 3). -/
def Obligations.InterruptTakenIff : Prop :=
  ∀ (s : State) (n : Rupt),
    interruptTaken s = some n ↔
      s.inhibit = false ∧ s.inIsr = false ∧ hasOverflow s.a = false ∧ s.extracode = false ∧ s.indexPending = false ∧
        s.substitute = false ∧ s.req.pending n = true ∧ ∀ m, vector m < vector n → s.req.pending m = false

/-- Taking interrupt n clears its request, saves Z in ZRUPT and the word at Z, through the current banks, in BRUPT, goes to
0o4000 + 4 n with InIsr set, and changes nothing else. -/
def Obligations.InterruptEntry : Prop :=
  ∀ (n : Rupt) (s : State), Coherent s →
    ∀ p, locate s s.z = .ok p →
      ∃ t, enterInterrupt n s = .ok t ∧ t.erasable.read 0o15 = zWord s.z ∧
        t.erasable.read 0o17 = (if p = .core 0o15 then zWord s.z else getWord s p) ∧
        t.z.toNat = 0o4000 + 4 * ruptNumber n ∧ t.inIsr = true ∧ t.req = s.req.put n false ∧
        UnchangedBut [.z, .core 0o15, .core 0o17] { s with inIsr := true, req := s.req.put n false } t

/-- After an interrupt, RESUME in any state that still holds the ZRUPT and BRUPT of its entry makes the very next fetch at the
interrupted address read the very word that would have been fetched there, with InIsr clear and Inhibit as the service routine
left it. (Z = 0o15 is left out: there the entry itself overwrites the word at Z.) -/
def Obligations.ResumeRestoresInterrupted : Prop :=
  ∀ (n : Rupt) (s t u : State), Coherent s → s.substitute = false → s.z ≠ 0o15 → enterInterrupt n s = .ok t →
    u.erasable.read 0o15 = t.erasable.read 0o15 → u.erasable.read 0o17 = t.erasable.read 0o17 →
    ∃ v, exec .resume u = .next v ∧ v.z = s.z ∧ fetchWord v = fetchWord s ∧ v.inIsr = false ∧ v.inhibit = u.inhibit

/-! ### The counters in motion -/

/-- PINC: one more, +0 after overflow. Of a clock: the overflow of TIME1 counts TIME2, that of TIME3, TIME4, TIME5 requests its
interrupt, that of TIME2 does nothing. Of a PIPA (conjecture U9): no other effect. Of a hand-controller counter: the same where the
counter is there (LM only) and bits 8 and 9 of channel 0o13 are set, else nothing happens. Nothing else changes. The clocks are
R352, R353; that TIME2 can be pulsed by itself is log 18 (DESIGN CHOICE). The gate of bits 8 and 9 is that of R59, R366 and R386;
that a pulse at a closed gate is an action that changes nothing is log 16 (DESIGN CHOICE), that the CM has none of these counters is
log 17 (DESIGN CHOICE). -/
def Obligations.PincCounts : Prop :=
  (∀ (c : TimeCounter) (i : Nat) (s : State),
    (c, i) ∈ [(TimeCounter.time1, 0o25), (.time2, 0o24), (.time3, 0o26), (.time4, 0o27), (.time5, 0o30)] → Coherent s →
    let w := s.erasable.read i
    let t := applyAction (.pincTime c) s
    t.erasable.read i = (if w = 0o37777 then 0 else ovc (add16 (sx16 w) 1)) ∧
    (w ≠ 0o37777 → UnchangedBut [.core i] s t) ∧
    (w = 0o37777 →
      (c = .time1 → t.erasable.read 0o24 = (if s.erasable.read 0o24 = 0o37777 then 0
          else ovc (add16 (sx16 (s.erasable.read 0o24)) 1)) ∧ UnchangedBut [.core 0o25, .core 0o24] s t) ∧
      (c = .time2 → UnchangedBut [.core 0o24] s t) ∧
      (c = .time3 → UnchangedBut [.core 0o26] (requestInterrupt .t3rupt s) t) ∧
      (c = .time4 → UnchangedBut [.core 0o27] (requestInterrupt .t4rupt s) t) ∧
      (c = .time5 → UnchangedBut [.core 0o30] (requestInterrupt .t5rupt s) t))) ∧
  ∀ (c : PulseCounter) (i : Nat) (rhc : Bool) (s : State),
    (c, i, rhc) ∈ [(PulseCounter.pipaX, 0o37, false), (.pipaY, 0o40, false), (.pipaZ, 0o41, false), (.qRhc, 0o42, true),
      (.pRhc, 0o43, true), (.rRhc, 0o44, true)] → Coherent s →
    let w := s.erasable.read i
    let gate := s.vehicle = .lm ∧ (s.channels.read 0o13).getLsbD 7 = true ∧ (s.channels.read 0o13).getLsbD 8 = true
    let t := applyAction (.pincPulse c) s
    (rhc = false ∨ gate →
      t.erasable.read i = (if w = 0o37777 then 0 else ovc (add16 (sx16 w) 1)) ∧ UnchangedBut [.core i] s t) ∧
    (rhc = true → ¬gate → t = s)

/-- MINC of a PIPA or hand-controller counter: -1 in one's complement; after negative overflow the counter is -0; no other effect.
The hand controller's counters count where they are there (LM only) and bits 8 and 9 of channel 0o13 are set; else nothing
happens. The count is R355, for the PIPAs by the conjecture U9. The gate of bits 8 and 9 is that of R59, R366
and R386; that a pulse at a closed gate is an action that changes nothing is log 16 (DESIGN CHOICE), that the CM has none of these
counters is log 17 (DESIGN CHOICE). -/
def Obligations.MincCounts : Prop :=
  ∀ (c : PulseCounter) (i : Nat) (rhc : Bool) (s : State),
    (c, i, rhc) ∈ [(PulseCounter.pipaX, 0o37, false), (.pipaY, 0o40, false), (.pipaZ, 0o41, false), (.qRhc, 0o42, true),
      (.pRhc, 0o43, true), (.rRhc, 0o44, true)] → Coherent s →
    let sum := add16 (sx16 (s.erasable.read i)) 0o177776
    let gate := s.vehicle = .lm ∧ (s.channels.read 0o13).getLsbD 7 = true ∧ (s.channels.read 0o13).getLsbD 8 = true
    let t := applyAction (.minc c) s
    (rhc = false ∨ gate →
      t.erasable.read i = (if s.erasable.read i = 0o40000 then 0o77777 else ovc sum) ∧ UnchangedBut [.core i] s t) ∧
    (rhc = true → ¬gate → t = s)

/-- PCDU and MCDU count modulo 2^15, undo each other, and have no other effect (R354, R356). -/
def Obligations.CduCountersWrap : Prop :=
  ∀ (c : CduCounter) (i : Nat) (s : State),
    (c, i) ∈ [(CduCounter.cduX, 0o32), (.cduY, 0o33), (.cduZ, 0o34), (.optY, 0o35), (.optX, 0o36)] → Coherent s →
    let up := applyAction (.pcdu c) s
    let down := applyAction (.mcdu c) s
    (up.erasable.read i).toNat = ((s.erasable.read i).toNat + 1) % 2 ^ 15 ∧ UnchangedBut [.core i] s up ∧
    (down.erasable.read i).toNat = ((s.erasable.read i).toNat + (2 ^ 15 - 1)) % 2 ^ 15 ∧ UnchangedBut [.core i] s down ∧
    applyAction (.mcdu c) up = s ∧ applyAction (.pcdu c) down = s

/-- DINC: with counting enabled TIME6 goes one unit toward zero: the sign is kept, +1 and -1 give -0, both zeros stay; where it is
then zero, T6RUPT is requested and the enable bit cleared; with counting disabled nothing happens (R357). -/
def Obligations.DincCounts : Prop :=
  ∀ s : State, Coherent s →
    let w := s.erasable.read 0o31
    let t := applyAction .dinc s
    let zeroed := setChannelWord (requestInterrupt .t6rupt s) 0o13 (s.channels.read 0o13 &&& 0o37777)
    ((s.channels.read 0o13).getLsbD 14 = false → t = s) ∧
    ((s.channels.read 0o13).getLsbD 14 = true →
      (val15 (t.erasable.read 0o31)).natAbs = (val15 w).natAbs - 1 ∧
      (1 < (val15 w).natAbs → bit15 (t.erasable.read 0o31) = bit15 w) ∧
      (w = 0o00001 ∨ w = 0o77776 → t.erasable.read 0o31 = 0o77777) ∧
      (w = 0 ∨ w = 0o77777 → t.erasable.read 0o31 = w) ∧
      t.erasable.read 0o31 = dincWord w ∧
      (1 < (val15 w).natAbs → UnchangedBut [.core 0o31] s t) ∧
      ((val15 w).natAbs ≤ 1 → UnchangedBut [.core 0o31] zeroed t))

/-- SHINC and SHANC: the counter is shifted left by one, the bit shifted in is 0 or 1, and a 1 leaving bit 15 requests the counter's
interrupt (R358, R359, decision D39). -/
def Obligations.ShiftCountersShift : Prop :=
  ∀ (c : ShiftCounter) (i : Nat) (n : Rupt) (s : State),
    (c, i, n) ∈ [(ShiftCounter.inlink, 0o45, Rupt.uprupt), (.rnrad, 0o46, .radarupt), (.outlink, 0o57, .downrupt)] →
    Coherent s →
    let w := s.erasable.read i
    let after := if w.getLsbD 14 then requestInterrupt n s else s
    ((applyAction (.shinc c) s).erasable.read i).toNat = 2 * w.toNat % 2 ^ 15 ∧
    UnchangedBut [.core i] after (applyAction (.shinc c) s) ∧
    ((applyAction (.shanc c) s).erasable.read i).toNat = (2 * w.toNat + 1) % 2 ^ 15 ∧
    UnchangedBut [.core i] after (applyAction (.shanc c) s)

/-- A word received serially: a counter that holds the marker bit 1, given the fifteen bits of a word from the most significant one
by SHANC and SHINC, ends holding the word with its interrupt requested (D39, vector S22). -/
def Obligations.SerialWordArrives : Prop :=
  ∀ (c : ShiftCounter) (i : Nat) (n : Rupt) (w : Word) (s : State),
    (c, i, n) ∈ [(ShiftCounter.inlink, 0o45, Rupt.uprupt), (.rnrad, 0o46, .radarupt), (.outlink, 0o57, .downrupt)] →
    Coherent s → s.erasable.read i = 1 →
    let bits := (List.range 15).map fun j => if w.getLsbD (14 - j) then EnvAction.shanc c else EnvAction.shinc c
    let t := applyActions bits s
    t.erasable.read i = w ∧ t.req = s.req.put n true

/-- What requests an interrupt from outside sets that interrupt's latch and changes nothing else; a second request of a pending one
changes nothing. An uplinked word goes to INLINK with UPRUPT; a channel that is no register and no output of the machine takes what
the environment sends. A hand-controller count of magnitude at most 57 is deposited where its register is there (LM only) and bits 8
and 9 of channel 0o13 are set, out of detent clearing bit 15 of channel 0o31; else nothing happens. Which channels is log 15, the
bounds and the closed gate log 16, the vehicle log 17 (each DESIGN CHOICE). -/
def Obligations.EnvironmentRequests : Prop :=
  ∀ s : State, Coherent s →
    (∀ (e : EnvAction) (n : Rupt),
      (e, n) ∈ [(EnvAction.keystroke1, Rupt.keyrupt1), (.keystroke2, .keyrupt2), (.downlinkReady, .downrupt),
        (.rupt10Event, .rupt10)] →
      applyAction e s = { s with req := s.req.put n true } ∧ applyAction e (applyAction e s) = applyAction e s) ∧
    (∀ n m : Rupt, (s.req.put n true).pending m = (decide (m = n) || s.req.pending m)) ∧
    (∀ w : Word, let t := applyAction (.uplinkWord w) s
      t.erasable.read 0o45 = w ∧ UnchangedBut [.core 0o45] (requestInterrupt .uprupt s) t) ∧
    (∀ (c : Chan) (w : Word), environmentChannel c = true →
      let t := applyAction (.setChannel c w) s
      t.channels.read c.toNat = w ∧ (∀ d, d ≠ c.toNat → t.channels.read d = s.channels.read d) ∧
        t = { s with channels := t.channels }) ∧
    (∀ (c : RhcAxis) (i : Nat) (w : Word) (outOfDetent : Bool),
      (c, i) ∈ [(RhcAxis.pitch, 0o42), (.yaw, 0o43), (.roll, 0o44)] →
      let gate := s.vehicle = .lm ∧ (s.channels.read 0o13).getLsbD 7 = true ∧ (s.channels.read 0o13).getLsbD 8 = true ∧
        (val15 w).natAbs ≤ 57
      let t := applyAction (.rhcDeposit c w outOfDetent) s
      (gate → t.erasable.read i = w ∧
        t.channels.read 0o31 = (if outOfDetent then s.channels.read 0o31 &&& 0o37777 else s.channels.read 0o31) ∧
        (∀ d, d ≠ 0o31 → t.channels.read d = s.channels.read d) ∧ UnchangedBut [.core i] { s with channels := t.channels } t) ∧
      (¬gate → t = s))

/-! ### Places, stores and words -/

/-- Where each address leads: the central registers, unswitched erasable, the window of EB (with EB = 0 the register area is
refused), the window of FB and the superbank bit (banks 0o44 to 0o47 do not exist), fixed banks 2 and 3. -/
def Obligations.AddressMap : Prop :=
  ∀ (s : State) (k : Addr),
    let n := k.toNat
    let f := s.fb.toNat
    (n < 0o10 → locate s k = .ok (([.a, .l, .q, .eb, .fb, .z, .bb, .zero] : List Place).getD n .zero)) ∧
    (0o10 ≤ n → n < 0o1400 → locate s k = .ok (.core n)) ∧
    (0o1400 ≤ n → n < 0o2000 → s.eb = 0 → n ≤ 0o1460 → locate s k = .error .registerWindow) ∧
    (0o1400 ≤ n → n < 0o2000 → (s.eb ≠ 0 ∨ 0o1460 < n) → locate s k = .ok (.core (0o400 * s.eb.toNat + (n - 0o1400)))) ∧
    (0o2000 ≤ n → n < 0o4000 → ((s.channels.read 7).getLsbD 6 = false ∨ f < 0o30) →
      locate s k = .ok (.fixed (0o2000 * f + (n - 0o2000)))) ∧
    (0o2000 ≤ n → n < 0o4000 → (s.channels.read 7).getLsbD 6 = true → 0o30 ≤ f → f ≤ 0o33 →
      locate s k = .ok (.fixed (0o2000 * (f + 0o10) + (n - 0o2000)))) ∧
    (0o2000 ≤ n → n < 0o4000 → (s.channels.read 7).getLsbD 6 = true → 0o34 ≤ f →
      locate s k = .error (.nonexistentFixedBank (f + 0o10))) ∧
    (0o4000 ≤ n → n < 0o6000 → locate s k = .ok (.fixed (0o2000 * 2 + (n - 0o4000)))) ∧
    (0o6000 ≤ n → locate s k = .ok (.fixed (0o2000 * 3 + (n - 0o6000))))

/-- A double-word operand with address field f is the word at f and, before it, the more significant one; field 0 is refused; where
one of the words is not found the pair stops as that word does, the low one first. -/
def Obligations.PairAddress : Prop :=
  ∀ (s : State) (f : Addr),
    locatePair s 0 = .error .doubleWordFieldZero ∧
    (∀ lo hi, f ≠ 0 → locate s f = .ok lo → locate s (f - 1) = .ok hi →
      locatePair s f = .ok (lo, hi) ∧ lo.sharesState hi = false) ∧
    (∀ e, f ≠ 0 → locate s f = .error e → locatePair s f = .error e) ∧
    (∀ lo e, f ≠ 0 → locate s f = .ok lo → locate s (f - 1) = .error e → locatePair s f = .error e)

/-- `Wr16`: all 16 bits into A, L, Q; anywhere else `Write15` of the overflow-corrected value. -/
def Obligations.WideStore : Prop :=
  ∀ (s : State) (v : Wide),
    putWide s .a v = { s with a := v } ∧ putWide s .l v = { s with l := v } ∧ putWide s .q v = { s with q := v } ∧
    ∀ p : Place, p ≠ .a → p ≠ .l → p ≠ .q → putWide s p v = putWord s p (ovc v)

/-- A store is read back under the masks and the editing of its place, and no place that shares no state with it reads differently;
a store to address 7 or to fixed memory leaves the state as it is. EB keeps bits 11-9, FB bits 15-11, Z bits 12-1, BB bits 15-11
and 3-1; BB reads as FB with the three bits of EB lowest, so that a store to one of the three is seen in the others. A Rewrite
edits an editing register once more and changes nothing else. -/
def Obligations.StoreThenRead : Prop :=
  (∀ (s : State) (p : Place) (v : Wide), Coherent s →
    getWide (putWide s p v) p = storedAs s v p ∧ UnchangedBut [p] s (putWide s p v) ∧
    ((p = .zero ∨ ∃ i, p = .fixed i) → putWide s p v = s) ∧
    getWide (rewrite s p) p = rewrittenAs s p ∧ UnchangedBut p.edited s (rewrite s p)) ∧
  ∀ (s : State) (w : Word),
    let viaEb := putWord s .eb w
    let viaFb := putWord s .fb w
    let viaBb := putWord s .bb w
    getWord viaEb .eb = w &&& 0o03400 ∧ getWord viaFb .fb = w &&& 0o76000 ∧ getWord (putWord s .z w) .z = w &&& 0o07777 ∧
    getWord viaBb .bb = w &&& 0o76007 ∧
    getWord s .bb = getWord s .fb + (getWord s .eb >>> 8) ∧
    getWord viaEb .bb = getWord s .fb + ((w &&& 0o03400) >>> 8) ∧ getWord viaEb .fb = getWord s .fb ∧
    getWord viaFb .bb = (w &&& 0o76000) + (getWord s .eb >>> 8) ∧ getWord viaFb .eb = getWord s .eb ∧
    getWord viaBb .fb = w &&& 0o76000 ∧ getWord viaBb .eb = (w &&& 0o00007) <<< 8

/-- Editing, bit by bit (bits numbered from 0): CYR cycles right, SR shifts right keeping the sign, CYL cycles left, EDOP keeps
bits 13 to 7 as bits 6 to 0 (its other bits are left out here, log 12); any other word is stored as it is. -/
def Obligations.EditingRegisters : Prop :=
  ∀ (w : Word) (b : Nat), b < 15 →
    (edit 0o20 w).getLsbD b = w.getLsbD ((b + 1) % 15) ∧
    (edit 0o21 w).getLsbD b = w.getLsbD (min (b + 1) 14) ∧
    (edit 0o22 w).getLsbD b = w.getLsbD ((b + 14) % 15) ∧
    (b < 7 → (edit 0o23 w).getLsbD b = w.getLsbD (b + 7)) ∧
    ∀ i, (i < 0o20 ∨ 0o23 < i) → edit i w = w

/-- Overflow is the state of the two top bits: positive where bit 16 is 0 and bit 15 is 1, negative where bit 16 is 1 and bit 15
is 0, none where they agree. -/
def Obligations.OverflowState : Prop :=
  ∀ v : Wide,
    (posOverflow v = true ↔ v.getLsbD 15 = false ∧ v.getLsbD 14 = true) ∧
    (negOverflow v = true ↔ v.getLsbD 15 = true ∧ v.getLsbD 14 = false) ∧
    (hasOverflow v = false ↔ v.getLsbD 15 = v.getLsbD 14)

/-- A wide value without overflow stands for the same integer as its word. The adder on words: without overflow it is integer
addition of the values; with overflow the corrected sum is the true sum less or plus 2^14 (43_arithmetic.md section 1). -/
def Obligations.AdderIsIntegerSum : Prop :=
  (∀ v : Wide, hasOverflow v = false → val16 v = val15 (ovc v)) ∧
  ∀ x y : Word,
    let sum := add16 (sx16 x) (sx16 y)
    (hasOverflow sum = false → val16 sum = val15 x + val15 y ∧ val15 (ovc sum) = val15 x + val15 y) ∧
    (posOverflow sum = true → val15 (ovc sum) = val15 x + val15 y - 2 ^ 14) ∧
    (negOverflow sum = true → val15 (ovc sum) = val15 x + val15 y + 2 ^ 14)

/-! ### Sequence control -/

/-- EXTEND, RELINT, INHINT set or clear their flag and change nothing else; after EXTEND and INHINT requests wait. They are the
words 6, 3, 4 fetched un-indexed; an indexed word is never one of them, nor RESUME: 3, 4, 6 are then TC, 50017 is INDEX 17. -/
def Obligations.FlagInstructions : Prop :=
  (∀ s : State,
    exec .extend s = .next { s with extracode := true } ∧ exec .relint s = .next { s with inhibit := false } ∧
    exec .inhint s = .next { s with inhibit := true } ∧
    interruptTaken { s with extracode := true } = none ∧ interruptTaken { s with inhibit := true } = none) ∧
  (∀ w : Word, (decode false false w = .relint ↔ w = 0o00003) ∧ (decode false false w = .inhint ↔ w = 0o00004) ∧
    (decode false false w = .extend ↔ w = 0o00006) ∧ (decode false false w = .resume ↔ w = 0o50017)) ∧
  (∀ w : Word, decode false true w ≠ .relint ∧ decode false true w ≠ .inhint ∧ decode false true w ≠ .extend ∧
    decode false true w ≠ .resume) ∧
  decode false true 0o00003 = .tc 3 ∧ decode false true 0o00004 = .tc 4 ∧ decode false true 0o00006 = .tc 6 ∧
  decode false true 0o50017 = .index 0o17

/-- RESUME: Z takes ZRUPT, the next word is to come from BRUPT, InIsr is cleared, nothing else changes. -/
def Obligations.ResumeReturns : Prop :=
  ∀ s : State, ∃ t, exec .resume s = .next t ∧ t.z.toNat = (s.erasable.read 0o15).toNat % 2 ^ 12 ∧
    t = { s with z := t.z, substitute := true, inIsr := false }

/-- INDEX, both forms: the operand, overflow-corrected, is the pending index; the operand is rewritten; the extracode form keeps
the Extracode flag set, the basic form leaves it clear. -/
def Obligations.IndexPends : Prop :=
  ∀ (s : State) (p : Place), Coherent s →
    (∀ k : EAddr, locate s (erasableAddr k) = .ok p →
      ∃ t, exec (.index k) s = .next t ∧ getWide t p = rewrittenAs s p ∧
        UnchangedBut p.edited { s with indexPending := true, indexValue := ovc (getWide s p), extracode := false } t) ∧
    (∀ k : Addr, locate s k = .ok p →
      ∃ t, exec (.indexExt k) s = .next t ∧ getWide t p = rewrittenAs s p ∧
        UnchangedBut p.edited { s with indexPending := true, indexValue := ovc (getWide s p), extracode := true } t)

/-- EDRUPT is refused, whatever its operand and the state. -/
def Obligations.EdruptRefused : Prop := ∀ (kc : Chan) (s : State), exec (.edrupt kc) s = .refused .edruptUndescribed

/-! ### Transfer of control -/

/-- TC and its register forms, TCF and the fixed-memory NOOP: Q takes the address of the next word, but for TC 2, and Z the target;
TCF leaves Q; the NOOP changes nothing. -/
def Obligations.TransferJumps : Prop :=
  ∀ s : State,
    (∀ k : Addr, k ≠ 2 → exec (.tc k) s = .next { s with q := s.z.setWidth 16, z := k }) ∧
    exec (.tc 2) s = .next { s with z := 2 } ∧
    exec .xxalq s = .next { s with q := s.z.setWidth 16, z := 0 } ∧
    exec .xlq s = .next { s with q := s.z.setWidth 16, z := 1 } ∧
    exec .ret s = .next { s with z := 2 } ∧
    (∀ k : Addr, exec (.tcf k) s = .next { s with z := k }) ∧
    exec .noopFixed s = .next s

/-- BZF, the extracode word 10000 + K with K in fixed memory, branches on +0 and -0 in all 16 bits; BZMF, 60000 + K, on +0 and on a
set bit 16; else, as when they branch, nothing but Z changes. -/
def Obligations.ZeroBranches : Prop :=
  (∀ (s : State) (k : Addr),
    exec (.bzf k) s = .next (if s.a = 0 ∨ s.a = 0o177777 then { s with z := k } else s) ∧
    exec (.bzmf k) s = .next (if s.a = 0 ∨ s.a.getLsbD 15 = true then { s with z := k } else s)) ∧
  ∀ (indexed : Bool) (k : Addr), 0o2000 ≤ k.toNat →
    decode true indexed (0o10000 + k.setWidth 15) = .bzf k ∧ decode true indexed (0o60000 + k.setWidth 15) = .bzmf k

/-- CCS: A takes the diminished absolute value of the operand and Z skips 0, 1, 2 or 3 words for a positive, +0, negative, -0
operand; the operand is rewritten. For a 15-bit operand the value in A is exactly one less in magnitude. -/
def Obligations.CountCompareSkip : Prop :=
  ∀ (s : State) (k : EAddr) (p : Place), Coherent s → locate s (erasableAddr k) = .ok p →
    let v := getWide s p
    ∃ t, exec (.ccs k) s = .next t ∧
      (v = 0 → t.a = 0 ∧ t.z = s.z + 1) ∧
      (v = 0o177777 → t.a = 0 ∧ t.z = s.z + 3) ∧
      (v ≠ 0 → v.getLsbD 15 = false → t.a = v - 1 ∧ t.z = s.z) ∧
      (v ≠ 0o177777 → v.getLsbD 15 = true → t.a = ~~~v - 1 ∧ t.z = s.z + 2) ∧
      (p.is16 = false → hasOverflow t.a = false ∧ val15 (ovc t.a) = (val15 (getWord s p)).natAbs - 1 ∨
        val15 (getWord s p) = 0 ∧ t.a = 0) ∧
      (p ≠ .a → p ≠ .z → getWide t p = rewrittenAs s p) ∧
      UnchangedBut (.a :: .z :: p.edited) s t

/-- OVSK skips one word when A holds overflow; TCAA goes to bits 12 to 1 of A and replaces an A with overflow by +1 or -1. TS 0
and TS 5 are these two. -/
def Obligations.OverflowSkipAndJump : Prop :=
  ∀ s : State,
    exec .ovsk s = .next (if hasOverflow s.a then { s with z := s.z + 1 } else s) ∧
    exec .tcaa s = .next { s with
      z := s.a.setWidth 12,
      a := if posOverflow s.a then 0o000001 else if negOverflow s.a then 0o177776 else s.a } ∧
    exec (.ts 0) s = exec .ovsk s ∧ exec (.ts 5) s = exec .tcaa s

/-- DTCF exchanges A with FB and L with Z, DTCB A with Z and L with BB. -/
def Obligations.DoubleTransfers : Prop :=
  ∀ s : State,
    exec .dtcf s = .next { s with z := zField (ovc s.l), fb := fbField (ovc s.a), a := sx16 (fbWord s.fb), l := s.z.setWidth 16 } ∧
    exec .dtcb s = .next { s with fb := fbField (ovc s.l), eb := bbEbField (ovc s.l), z := zField (ovc s.a),
                                  a := s.z.setWidth 16, l := sx16 (bbWord s.fb s.eb) }

/-! ### Load, store, exchange, arithmetic on A -/

/-- CA, CS, AD, SU: A takes the operand, its complement, its sum with A, its difference from A; the operand is rewritten; nothing
else changes. Their words are 30000 + K, 40000 + K, 60000 + K, and the extracode 60000 + K; at K = 0 the first three are NOOP, COM
and DOUBLE. -/
def Obligations.AccumulatorTakesOperand : Prop :=
  (∀ (s : State) (p : Place), Coherent s →
    (∀ k : Addr, locate s k = .ok p →
      (∃ t, exec (.ca k) s = .next t ∧ LoadedA s t p (getWide s p)) ∧
      (∃ t, exec (.cs k) s = .next t ∧ LoadedA s t p (~~~(getWide s p))) ∧
      (∃ t, exec (.ad k) s = .next t ∧ LoadedA s t p (add16 s.a (getWide s p)))) ∧
    (∀ k : EAddr, locate s (erasableAddr k) = .ok p →
      ∃ t, exec (.su k) s = .next t ∧ LoadedA s t p (add16 s.a (~~~(getWide s p))))) ∧
  ∀ indexed : Bool,
    (∀ k : Addr, decode false indexed (0o30000 + k.setWidth 15) = (if k = 0 then .noopErasable else .ca k) ∧
      decode false indexed (0o40000 + k.setWidth 15) = (if k = 0 then .com else .cs k) ∧
      decode false indexed (0o60000 + k.setWidth 15) = (if k = 0 then .double else .ad k)) ∧
    ∀ k : EAddr, decode true indexed (0o60000 + k.setWidth 15) = .su k

/-- MSU: the two's-complement difference, one less where it is negative; for a 15-bit operand A then holds exactly the signed
difference, unless that is -2^14, which has no one's-complement form. -/
def Obligations.ModularSubtract : Prop :=
  ∀ (s : State) (p : Place) (k : EAddr), Coherent s → locate s (erasableAddr k) = .ok p →
    let wide := s.a - getWide s p
    let narrow := ovc s.a - getWord s p
    ∃ t, exec (.msu k) s = .next t ∧
      LoadedA s t p (if p.is16 then (if wide.getLsbD 15 then wide - 1 else wide)
        else sx16 (if narrow.getLsbD 14 then narrow - 1 else narrow)) ∧
      (p.is16 = false → narrow.toInt ≠ -2 ^ 14 → val15 (ovc t.a) = narrow.toInt)

/-- The forms on one register alone: NOOP in erasable memory, COM, DOUBLE, ZL, ZQ, each with its word and its whole effect. -/
def Obligations.RegisterForms : Prop :=
  (∀ s : State,
    exec .noopErasable s = .next s ∧
    exec .com s = .next { s with a := ~~~s.a } ∧
    exec .double s = .next { s with a := add16 s.a s.a } ∧
    exec .zl s = .next { s with l := 0 } ∧
    exec .zq s = .next { s with q := 0 }) ∧
  ∀ indexed : Bool,
    decode false indexed 0o30000 = .noopErasable ∧ decode false indexed 0o40000 = .com ∧ decode false indexed 0o60000 = .double ∧
    decode false indexed 0o22007 = .zl ∧ decode true indexed 0o22007 = .zq

/-- DCA and DCS on a pair that holds neither A nor L: A takes the more significant word, L the other one overflow-corrected, each
complemented for DCS; both words are rewritten. -/
def Obligations.DoubleLoads : Prop :=
  ∀ (s : State) (f : Addr) (lo hi : Place), Coherent s → 3 ≤ f.toNat → locatePair s f = .ok (lo, hi) →
    (∃ t, exec (.dca f) s = .next t ∧ LoadedPair s t lo hi fun v => v) ∧
    (∃ t, exec (.dcs f) s = .next t ∧ LoadedPair s t lo hi fun v => ~~~v)

/-- The double-word forms that overlap A, L: DCOM, DDOUBL, and fields 1 and 2 of DCA, DCS, DXCH (the low word goes first). -/
def Obligations.DoubleOverlaps : Prop :=
  ∀ s : State,
    let low := add16 s.l s.l
    let high := add16 s.a s.a
    exec (.dca 1) s = .next { s with l := sx16 (ovc s.l) } ∧
    exec (.dca 2) s = .next { s with a := s.q, l := sx16 (ovc s.q) } ∧
    exec .dcom s = .next { s with a := ~~~s.a, l := sx16 (ovc (~~~s.l)) } ∧
    exec (.dcs 1) s = exec .dcom s ∧
    exec (.dcs 2) s = .next { s with a := s.q, l := sx16 (ovc (~~~s.q)) } ∧
    exec (.dxch 1) s = .next { s with l := sx16 (ovc s.l) } ∧
    exec (.dxch 2) s = .next { s with a := s.q, l := sx16 (ovc s.a), q := s.l } ∧
    exec .ddoubl s = .next { s with
      l := sx16 (ovc low),
      a := if posOverflow low then add16 high 0o000001 else if negOverflow low then add16 high 0o177776 else high } ∧
    exec (.das 1) s = exec .ddoubl s

/-- TS at any address but 0 and 5: the operand takes A; without overflow that is all; with overflow A becomes +1 or -1 and one word
is skipped. -/
def Obligations.TransferToStorage : Prop :=
  ∀ (s : State) (k : EAddr) (p : Place), Coherent s → k ≠ 0 → k ≠ 5 → locate s (erasableAddr k) = .ok p →
    ∃ t, exec (.ts k) s = .next t ∧ getWide t p = storedAs s s.a p ∧
      (hasOverflow s.a = false → t.a = s.a ∧ t.z = s.z) ∧
      (posOverflow s.a = true → t.a = 0o000001 ∧ t.z = s.z + 1) ∧
      (negOverflow s.a = true → t.a = 0o177776 ∧ t.z = s.z + 1) ∧
      UnchangedBut [.a, .z, p] s t

/-- XCH, LXCH, QXCH: the register takes the operand and the operand the register; with address 7 the register becomes +0. Their
words are 56000 + K, 22000 + K, and the extracode 22000 + K; at K = 7 the last two are ZL and ZQ. -/
def Obligations.Exchanges : Prop :=
  (∀ (s : State) (k : EAddr) (p : Place), Coherent s → locate s (erasableAddr k) = .ok p →
    (∃ t, exec (.xch k) s = .next t ∧ t.a = getWide s p ∧ getWide t p = storedAs s s.a p ∧ UnchangedBut [.a, p] s t) ∧
    (∃ t, exec (.lxch k) s = .next t ∧ t.l = getWide s p ∧ getWide t p = storedAs s s.l p ∧ UnchangedBut [.l, p] s t) ∧
    (∃ t, exec (.qxch k) s = .next t ∧ t.q = getWide s p ∧ getWide t p = storedAs s s.q p ∧ UnchangedBut [.q, p] s t)) ∧
  ∀ (indexed : Bool) (k : EAddr),
    decode false indexed (0o56000 + k.setWidth 15) = .xch k ∧
    decode false indexed (0o22000 + k.setWidth 15) = (if k = 7 then .zl else .lxch k) ∧
    decode true indexed (0o22000 + k.setWidth 15) = (if k = 7 then .zq else .qxch k)

/-- DXCH on a pair that holds neither A nor L: A with the more significant word, L with the other one, L overflow-corrected. -/
def Obligations.DoubleExchange : Prop :=
  ∀ (s : State) (f : EAddr) (lo hi : Place), Coherent s → 3 ≤ f.toNat → locatePair s (erasableAddr f) = .ok (lo, hi) →
    ∃ t, exec (.dxch f) s = .next t ∧ t.a = getWide s hi ∧ t.l = sx16 (ovc (getWide s lo)) ∧
      getWide t lo = storedAs s s.l lo ∧ getWide t hi = storedAs s s.a hi ∧ UnchangedBut [.a, .l, lo, hi] s t

/-- ADS, the word 26000 + K: the sum goes to A and, overflow-corrected in a 15-bit location, to the operand. -/
def Obligations.AddToStorage : Prop :=
  (∀ (s : State) (k : EAddr) (p : Place), Coherent s → locate s (erasableAddr k) = .ok p →
    let sum := add16 s.a (getWide s p)
    ∃ t, exec (.ads k) s = .next t ∧ t.a = sum ∧ getWide t p = storedAs s sum p ∧ UnchangedBut [.a, p] s t) ∧
  ∀ (indexed : Bool) (k : EAddr), decode false indexed (0o26000 + k.setWidth 15) = .ads k

/-- DAS on a pair other than A,L: the low words are added, their overflow is carried into the sum of the high words, both sums are
stored, L becomes +0 and A the overflow of the high sum. -/
def Obligations.DoubleAddToStorage : Prop :=
  ∀ (s : State) (f : EAddr) (lo hi : Place), Coherent s → 2 ≤ f.toNat → locatePair s (erasableAddr f) = .ok (lo, hi) →
    let low := add16 s.l (getWide s lo)
    let high := addCarry (add16 s.a (getWide s hi)) low
    ∃ t, exec (.das f) s = .next t ∧ t.l = 0 ∧
      t.a = (if posOverflow high then 0o000001 else if negOverflow high then 0o177776 else 0) ∧
      getWide t lo = storedAs s (sx16 (ovc low)) lo ∧ (hi ≠ .l → getWide t hi = storedAs s high hi) ∧
      UnchangedBut [.a, .l, lo, hi] s t

/-- INCR, AUG and DIM where no overflow of TIME3 to TIME6 and no zero of TIME6 is involved: the operand takes the new value and nothing
else changes; so an overflow of TIME1 does not count TIME2 (decision D32, the model's choice between it and other places of the
spec, log 11). -/
def Obligations.IncrementAugmentDiminish : Prop :=
  ∀ (s : State) (k : EAddr) (p : Place), Coherent s → locate s (erasableAddr k) = .ok p →
    let v := getWide s p
    let more := add16 v 0o000001
    let away := if v.getLsbD 15 then add16 v 0o177776 else add16 v 0o000001
    let less := if v = 0 ∨ v = 0o177777 then v else if v.getLsbD 15 then add16 v 0o000001 else add16 v 0o177776
    (k.toNat < 0o26 ∨ 0o31 < k.toNat ∨ hasOverflow more = false →
      ∃ t, exec (.incr k) s = .next t ∧ getWide t p = storedAs s more p ∧ UnchangedBut [p] s t) ∧
    (k.toNat < 0o26 ∨ 0o31 < k.toNat ∨ hasOverflow away = false →
      ∃ t, exec (.aug k) s = .next t ∧ getWide t p = storedAs s away p ∧ UnchangedBut [p] s t) ∧
    (k ≠ 0o31 ∨ v = 0 ∨ v = 0o177777 ∨ (less ≠ 0 ∧ less ≠ 0o177777) →
      ∃ t, exec (.dim k) s = .next t ∧ getWide t p = storedAs s less p ∧ UnchangedBut [p] s t)

/-- INCR and AUG that overflow one of TIME3 to TIME6: the counter goes to zero and its interrupt is requested. (TIME1 does not carry
into TIME2, decision D32: it is under IncrementAugmentDiminish.) DIM that brings TIME6 to zero leaves -0 there, requests T6RUPT and
clears bit 15 of channel 0o13. -/
def Obligations.TimersByInstruction : Prop :=
  (∀ (s : State) (w : Word) (k : EAddr) (n : Rupt), Coherent s → (w = 0o37777 ∨ w = 0o40000) →
    (k, n) ∈ [((0o26 : EAddr), Rupt.t3rupt), (0o27, .t4rupt), (0o30, .t5rupt), (0o31, .t6rupt)] →
    s.erasable.read k.toNat = w →
    (w = 0o37777 → ∃ t, exec (.incr k) s = .next t ∧ t.erasable.read k.toNat = 0 ∧
      UnchangedBut [.core k.toNat] (requestInterrupt n s) t) ∧
    ∃ t, exec (.aug k) s = .next t ∧ t.erasable.read k.toNat = (if w = 0o37777 then 0 else 0o77777) ∧
      UnchangedBut [.core k.toNat] (requestInterrupt n s) t) ∧
  ∀ s : State, Coherent s → (s.erasable.read 0o31 = 0o00001 ∨ s.erasable.read 0o31 = 0o77776) →
    ∃ t, exec (.dim 0o31) s = .next t ∧ t.erasable.read 0o31 = 0o77777 ∧
      UnchangedBut [.core 0o31] (setChannelWord (requestInterrupt .t6rupt s) 0o13 (s.channels.read 0o13 &&& 0o37777)) t

/-! ### Multiply and divide -/

/-- MP and SQUARE: A,L is the exact product of the overflow-corrected A and the operand's word. -/
def Obligations.Multiplication : Prop :=
  ∀ s : State,
    (∀ (k : Addr) (p : Place), locate s k = .ok p → ∃ t, exec (.mp k) s = .next t ∧ Multiplied s t (getWord s p)) ∧
    ∃ t, exec .square s = .next t ∧ Multiplied s t (ovc s.a)

/-- DV with a dividend at most the divisor in magnitude: quotient times divisor plus remainder is the dividend, the remainder is
smaller than the divisor, and both have the signs the rule gives; equal magnitudes give 37777 and the divisor's magnitude. -/
def Obligations.Division : Prop :=
  ∀ (s : State) (k : EAddr) (p : Place), locate s (erasableAddr k) = .ok p →
    (dividend (ovc s.a) (ovc s.l)).natAbs ≤ (val15 (getWord s p)).natAbs * 2 ^ 14 →
    ∃ t, exec (.dv k) s = .next t ∧ Divided s t (getWord s p)

/-- DV with a dividend larger than the divisor: it completes, and nothing but A and L changes (and the model's count of free values);
what they hold is open. -/
def Obligations.DivisionNonsense : Prop :=
  ∀ (s : State) (k : EAddr) (p : Place), locate s (erasableAddr k) = .ok p →
    (val15 (getWord s p)).natAbs * 2 ^ 14 < (dividend (ovc s.a) (ovc s.l)).natAbs →
    ∃ t, exec (.dv k) s = .next t ∧ UnchangedBut [.a, .l] { s with draws := s.draws + 2 } t

/-! ### Logic and input/output -/

/-- MASK, the basic word 70000 + K: A AND the operand, 16 bits with A, L, Q, else 15 bits sign-extended; the operand is not rewritten,
nothing else changes. -/
def Obligations.MaskOperand : Prop :=
  (∀ (s : State) (k : Addr) (p : Place), locate s k = .ok p →
    exec (.mask k) s = .next { s with
      a := if p = .a ∨ p = .l ∨ p = .q then s.a &&& getWide s p else sx16 (ovc s.a &&& getWord s p) }) ∧
  ∀ (indexed : Bool) (k : Addr), decode false indexed (0o70000 + k.setWidth 15) = .mask k

/-- READ, RAND, ROR, RXOR, the extracode words 00000, 02000, 04000, 06000 + KC: channels 1 and 2 are L and Q in 16 bits, any other
channel a word sign-extended; only A changes. -/
def Obligations.ChannelReads : Prop :=
  (∀ (s : State) (c : Chan),
    let w := s.channels.read c.toNat
    exec (.read c) s = .next { s with a := if c = 1 then s.l else if c = 2 then s.q else sx16 w } ∧
    exec (.rand c) s = .next { s with
      a := if c = 1 then s.a &&& s.l else if c = 2 then s.a &&& s.q else sx16 (ovc s.a &&& w) } ∧
    exec (.ror c) s = .next { s with
      a := if c = 1 then s.a ||| s.l else if c = 2 then s.a ||| s.q else sx16 (ovc s.a ||| w) } ∧
    exec (.rxor c) s = .next { s with
      a := if c = 1 then s.a ^^^ s.l else if c = 2 then s.a ^^^ s.q else sx16 (ovc s.a ^^^ w) }) ∧
  ∀ (indexed : Bool) (c : Chan),
    decode true indexed (c.setWidth 15) = .read c ∧ decode true indexed (0o02000 + c.setWidth 15) = .rand c ∧
    decode true indexed (0o04000 + c.setWidth 15) = .ror c ∧ decode true indexed (0o06000 + c.setWidth 15) = .rxor c

/-- WRITE, WAND, WOR to any channel but the registers and the scaler: the channel takes A, or the combined word, of which channel 7
keeps bits 7 to 5 only; A takes the combined word; no other channel and nothing else changes. -/
def Obligations.ChannelWrites : Prop :=
  ∀ (s : State) (c : Chan), Coherent s → c ≠ 1 → c ≠ 2 → c ≠ 3 → c ≠ 4 →
    let w := s.channels.read c.toNat
    let kept := fun x : Word => if c = 7 then x &&& 0o160 else x
    ∀ (i : Instr) (x : Word),
      (i = .write c ∧ x = ovc s.a) ∨ (i = .wand c ∧ x = ovc s.a &&& w) ∨ (i = .wor c ∧ x = ovc s.a ||| w) →
      ∃ t, exec i s = .next t ∧ t.channels.read c.toNat = kept x ∧
        (∀ d : Nat, d ≠ c.toNat → t.channels.read d = s.channels.read d) ∧
        t.a = (if i = .write c then s.a else sx16 x) ∧ UnchangedBut [.a] { s with channels := t.channels } t

/-- WRITE, WAND, WOR to channels 1 and 2 write L and Q, 16 bits; to the scaler channels 3 and 4 they are refused
(93_implementation_defined.md U11). -/
def Obligations.SpecialChannelWrites : Prop :=
  ∀ s : State,
    exec (.write 1) s = .next { s with l := s.a } ∧ exec (.write 2) s = .next { s with q := s.a } ∧
    exec (.wand 1) s = .next { s with a := s.a &&& s.l, l := s.a &&& s.l } ∧
    exec (.wand 2) s = .next { s with a := s.a &&& s.q, q := s.a &&& s.q } ∧
    exec (.wor 1) s = .next { s with a := s.a ||| s.l, l := s.a ||| s.l } ∧
    exec (.wor 2) s = .next { s with a := s.a ||| s.q, q := s.a ||| s.q } ∧
    ∀ c : Chan, (c = 3 ∨ c = 4) →
      exec (.write c) s = .refused .scalerChannelWrite ∧ exec (.wand c) s = .refused .scalerChannelWrite ∧
      exec (.wor c) s = .refused .scalerChannelWrite

/-- An instruction whose operand address finds no word stops as the access does; together with AddressMap and PairAddress this is
every stop of an operand (20_memory.md section 2). -/
def Obligations.OperandStops : Prop :=
  ∀ (s : State) (e : Refusal),
    (∀ k : Addr, locate s k = .error e →
      ∀ i : Instr, i ∈ [.ca k, .cs k, .ad k, .mask k, .mp k, .indexExt k] → exec i s = .refused e) ∧
    (∀ k : EAddr, locate s (erasableAddr k) = .error e →
      ∀ i : Instr, i ∈ [.index k, .ccs k, .ts k, .xch k, .lxch k, .qxch k, .ads k, .su k, .msu k, .incr k, .aug k, .dim k, .dv k] →
        exec i s = .refused e) ∧
    (∀ f : Addr, locatePair s f = .error e → ∀ i : Instr, i ∈ [.dca f, .dcs f] → exec i s = .refused e) ∧
    (∀ f : EAddr, locatePair s (erasableAddr f) = .error e → ∀ i : Instr, i ∈ [.das f, .dxch f] → exec i s = .refused e)
end

