-- ==== Sys2Proof/Laws/Arithmetic.lean ====
section
/-! SUPPORT. Small lemmas of the words' arithmetic (spec/00_scope.md R12-R16): sign bits and values as numbers. -/

namespace Sys2Proof.Machine

theorem bit15_eq (w : Word) : bit15 w = decide (2 ^ 14 ≤ w.toNat) := by
  simp only [bit15, BitVec.getLsbD, Nat.testBit_eq_decide_div_mod_eq]
  have := w.isLt
  congr 1
  apply propext
  constructor <;> intro h <;> omega

theorem toNat_complement (w : Word) : (~~~w).toNat = 2 ^ 15 - 1 - w.toNat := by
  rw [BitVec.toNat_not]

/-- The value of a word as a number (R12). -/
theorem val15_eq (w : Word) : val15 w = if w.toNat < 2 ^ 14 then (w.toNat : Int) else (w.toNat : Int) - (2 ^ 15 - 1) := by
  have := w.isLt
  unfold val15
  rw [bit15_eq, toNat_complement]
  by_cases h : w.toNat < 2 ^ 14
  · rw [if_pos h, if_neg (by simpa using h)]
  · rw [if_neg h, if_pos (by simpa using h)]
    omega

theorem toNat_sx16 (w : Word) : (sx16 w).toNat = if w.toNat < 2 ^ 14 then w.toNat else w.toNat + 2 ^ 15 := by
  have hw := w.isLt
  have hm : w.msb = decide (2 ^ 14 ≤ w.toNat) := by simp [BitVec.msb_eq_decide]
  unfold sx16
  rw [BitVec.toNat_signExtend, hm]
  by_cases h : w.toNat < 2 ^ 14
  · rw [if_pos h, if_neg (by simpa using h), BitVec.toNat_setWidth]
    omega
  · rw [if_neg h, if_pos (by simpa using h), BitVec.toNat_setWidth]
    omega

theorem toNat_ovc (v : Wide) : (ovc v).toNat = v.toNat % 2 ^ 14 + 2 ^ 14 * (v.toNat / 2 ^ 15) := by
  have hv := v.isLt
  have hlt : (v.extractLsb' 0 14).toNat < 2 ^ 14 := (v.extractLsb' 0 14).isLt
  unfold ovc
  rw [BitVec.toNat_append, Nat.shiftLeft_eq, Nat.mul_comm _ (2 ^ 14), ← Nat.two_pow_add_eq_or_of_lt hlt]
  simp only [BitVec.extractLsb'_toNat, Nat.shiftRight_eq_div_pow]
  omega

/-- Overflow correction undoes sign extension (R15). -/
@[simp] theorem ovc_sx16 (w : Word) : ovc (sx16 w) = w := by
  apply BitVec.eq_of_toNat_eq
  have := w.isLt
  rw [toNat_ovc, toNat_sx16]
  split <;> omega

theorem posOverflow_eq (v : Wide) : posOverflow v = decide (2 ^ 14 ≤ v.toNat ∧ v.toNat < 2 ^ 15) := by
  have := v.isLt
  rw [Bool.eq_iff_iff]
  simp only [posOverflow, BitVec.getLsbD, Nat.testBit_eq_decide_div_mod_eq, Bool.and_eq_true, Bool.not_eq_true', decide_eq_true_eq,
    decide_eq_false_iff_not]
  omega

theorem negOverflow_eq (v : Wide) : negOverflow v = decide (2 ^ 15 ≤ v.toNat ∧ v.toNat < 2 ^ 15 + 2 ^ 14) := by
  have := v.isLt
  rw [Bool.eq_iff_iff]
  simp only [negOverflow, BitVec.getLsbD, Nat.testBit_eq_decide_div_mod_eq, Bool.and_eq_true, Bool.not_eq_true', decide_eq_true_eq,
    decide_eq_false_iff_not]
  omega

/-- A sign-extended word holds no overflow (R14, R15). -/
@[simp] theorem hasOverflow_sx16 (w : Word) : hasOverflow (sx16 w) = false := by
  have := w.isLt
  have hs := toNat_sx16 w
  rw [hasOverflow, posOverflow_eq, negOverflow_eq, Bool.or_eq_false_iff, decide_eq_false_iff_not, decide_eq_false_iff_not]
  split at hs <;> omega

/-- A wide value without overflow stands for the integer of its word (R12, R14, R17 `val16`). -/
theorem val16_of_not_hasOverflow {v : Wide} (h : hasOverflow v = false) : val16 v = val15 (ovc v) := by
  have hv := v.isLt
  have hb : bit16 v = decide (2 ^ 15 ≤ v.toNat) := by
    simp only [bit16, BitVec.getLsbD, Nat.testBit_eq_decide_div_mod_eq]
    congr 1
    apply propext
    constructor <;> intro h <;> omega
  rw [hasOverflow, posOverflow_eq, negOverflow_eq, Bool.or_eq_false_iff, decide_eq_false_iff_not, decide_eq_false_iff_not] at h
  rw [val16, hb, BitVec.toNat_not, val15_eq, toNat_ovc]
  by_cases h15 : 2 ^ 15 ≤ v.toNat
  · rw [if_pos (by simpa using h15), if_neg (by omega)]; omega
  · rw [if_neg (by simpa using h15), if_pos (by omega)]; omega

/-- The adder as a number (R16). -/
theorem toNat_add16 (x y : Wide) : (add16 x y).toNat =
    if 2 ^ 16 ≤ x.toNat + y.toNat then x.toNat + y.toNat + 1 - 2 ^ 16 else x.toNat + y.toNat := by
  have hx := x.isLt
  have hy := y.isLt
  unfold add16
  by_cases h : 2 ^ 16 ≤ x.toNat + y.toNat
  · rw [if_pos (by omega), if_pos h, BitVec.toNat_ofNat]; omega
  · rw [if_neg (by omega), if_neg h, BitVec.toNat_ofNat]; omega

/-- A magnitude with a sign has that sign. -/
theorem bit15_signedWord {n : Nat} (h : n < 2 ^ 14) (negative : Bool) : bit15 (signedWord n negative) = negative := by
  rw [bit15_eq]
  cases negative <;> simp only [signedWord, if_true, if_false, Bool.false_eq_true, toNat_complement, BitVec.toNat_ofNat]
  · rw [decide_eq_false]; omega
  · rw [decide_eq_true]; omega

/-- A magnitude with a sign has that value. -/
theorem val15_signedWord {n : Nat} (h : n < 2 ^ 14) (negative : Bool) :
    val15 (signedWord n negative) = if negative then -(n : Int) else n := by
  rw [val15_eq]
  cases negative <;> simp only [signedWord, if_true, if_false, Bool.false_eq_true, toNat_complement, BitVec.toNat_ofNat]
  · rw [if_pos (by omega)]; omega
  · rw [if_neg (by omega)]; omega

theorem natAbs_val15_lt (w : Word) : (val15 w).natAbs < 2 ^ 14 := by
  have := w.isLt
  rw [val15_eq]
  split <;> omega

end Sys2Proof.Machine
end

