-- ==== Sys2Proof/Laws/Memory.lean ====
section
/-! SUPPORT. The laws of memories of words: read after write, the canonical form kept, equal reads make equal memories. -/

namespace Sys2Proof.Machine

theorem Memory.read_eq_zero_of_lt {m : Memory} {lo i : Nat} (h : Memory.wfFrom lo m = true) (hi : i < lo) : m.read i = 0#15 := by
  induction m generalizing lo with
  | nil => rfl
  | cons c rest ih =>
    obtain ⟨k, v⟩ := c
    simp only [Memory.wfFrom, Bool.and_eq_true, decide_eq_true_eq] at h
    have hne : i ≠ k := by omega
    simp only [Memory.read, if_neg hne]
    exact ih h.2 (by omega)

/-- Reading a key just written gives the word written. -/
theorem Memory.read_write_same {m : Memory} {lo : Nat} (h : Memory.wfFrom lo m = true) (i : Nat) (w : Word) :
    (m.write i w).read i = w := by
  induction m generalizing lo with
  | nil => by_cases hw : w = 0#15 <;> simp [Memory.write, Memory.read, hw]
  | cons c rest ih =>
    obtain ⟨k, v⟩ := c
    simp only [Memory.wfFrom, Bool.and_eq_true, decide_eq_true_eq] at h
    unfold Memory.write
    split
    · rename_i hlt
      by_cases hw : w = 0#15
      · have hne : i ≠ k := by omega
        simp only [hw, if_true, Memory.read, if_neg hne]
        exact Memory.read_eq_zero_of_lt h.2 (by omega)
      · simp [hw, Memory.read]
    · split
      · rename_i hik
        by_cases hw : w = 0#15
        · simp only [hw, if_true]
          exact Memory.read_eq_zero_of_lt h.2 (by omega)
        · simp [hw, Memory.read]
      · rename_i hne
        simp only [Memory.read, if_neg hne]
        exact ih h.2

/-- Reading another key gives what it gave before. -/
theorem Memory.read_write_other (m : Memory) {i j : Nat} (w : Word) (hij : j ≠ i) : (m.write i w).read j = m.read j := by
  induction m with
  | nil => by_cases hw : w = 0#15 <;> simp [Memory.write, Memory.read, hw, hij]
  | cons c rest ih =>
    obtain ⟨k, v⟩ := c
    unfold Memory.write
    split
    · by_cases hw : w = 0#15 <;> simp [hw, Memory.read, hij]
    · split
      · rename_i hik
        subst hik
        by_cases hw : w = 0#15 <;> simp [hw, Memory.read, hij]
      · simp only [Memory.read]
        split
        · rfl
        · exact ih

theorem Memory.wfFrom_mono {m : Memory} {lo lo' : Nat} (h : Memory.wfFrom lo m = true) (hle : lo' ≤ lo) :
    Memory.wfFrom lo' m = true := by
  cases m with
  | nil => rfl
  | cons c rest =>
    obtain ⟨k, v⟩ := c
    simp only [Memory.wfFrom, Bool.and_eq_true, decide_eq_true_eq] at h ⊢
    exact ⟨⟨by omega, h.1.2⟩, h.2⟩

theorem Memory.wfFrom_write {m : Memory} {lo i : Nat} (h : Memory.wfFrom lo m = true) (hlo : lo ≤ i) (w : Word) :
    Memory.wfFrom lo (m.write i w) = true := by
  induction m generalizing lo with
  | nil => by_cases hw : w = 0#15 <;> simp [Memory.write, Memory.wfFrom, hw, hlo]
  | cons c rest ih =>
    obtain ⟨k, v⟩ := c
    simp only [Memory.wfFrom, Bool.and_eq_true, decide_eq_true_eq] at h
    unfold Memory.write
    split
    · rename_i hlt
      by_cases hw : w = 0#15
      · simp only [hw, if_true, Memory.wfFrom, Bool.and_eq_true, decide_eq_true_eq]
        exact ⟨h.1, h.2⟩
      · simp only [hw, if_false, Memory.wfFrom, Bool.and_eq_true, decide_eq_true_eq]
        exact ⟨⟨hlo, by simp [hw]⟩, ⟨by omega, h.1.2⟩, h.2⟩
    · split
      · rename_i hik
        by_cases hw : w = 0#15
        · simp only [hw, if_true]
          exact Memory.wfFrom_mono h.2 (by omega)
        · simp only [hw, if_false, Memory.wfFrom, Bool.and_eq_true, decide_eq_true_eq]
          exact ⟨⟨hlo, by simp [hw]⟩, hik ▸ h.2⟩
      · simp only [Memory.wfFrom, Bool.and_eq_true, decide_eq_true_eq]
        exact ⟨h.1, ih h.2 (by omega)⟩

/-- A write keeps the canonical form. -/
theorem Memory.wf_write {m : Memory} (h : m.wf = true) (i : Nat) (w : Word) : (m.write i w).wf = true :=
  Memory.wfFrom_write h (Nat.zero_le i) w

/-- Reading after writing, in one equation. -/
theorem Memory.read_write {m : Memory} (h : m.wf = true) (i j : Nat) (w : Word) :
    (m.write i w).read j = if j = i then w else m.read j := by
  split
  · rename_i hij; subst hij; exact Memory.read_write_same h _ w
  · rename_i hij; exact Memory.read_write_other m w hij

theorem Memory.wf_nil : Memory.wf [] = true := rfl

/-- A write adds no key but its own. -/
theorem Memory.keysSatisfy_write {m : Memory} {test : Nat → Bool} (h : m.keysSatisfy test = true) {i : Nat} (hi : test i = true)
    (w : Word) : (m.write i w).keysSatisfy test = true := by
  unfold Memory.keysSatisfy at *
  induction m with
  | nil => by_cases hw : w = 0#15 <;> simp [Memory.write, hw, hi]
  | cons c rest ih =>
    obtain ⟨k, v⟩ := c
    rw [List.all_cons, Bool.and_eq_true] at h
    unfold Memory.write
    split
    · split
      · rw [List.all_cons, Bool.and_eq_true]; exact h
      · rw [List.all_cons, List.all_cons, Bool.and_eq_true, Bool.and_eq_true]; exact ⟨hi, h⟩
    · split
      · split
        · exact h.2
        · rw [List.all_cons, Bool.and_eq_true]; exact ⟨hi, h.2⟩
      · rw [List.all_cons, Bool.and_eq_true]; exact ⟨h.1, ih h.2⟩

end Sys2Proof.Machine
end

