-- ==== Sys2Proof/Laws/State.lean ====
section
/-! SUPPORT. One lemma per field per update of State: what a field reads after the update. All true by rfl. -/

namespace Sys2Proof.Machine

@[simp] theorem setA_a (s : State) (v : Wide) : (s.setA v).a = v := rfl
@[simp] theorem setA_l (s : State) (v : Wide) : (s.setA v).l = s.l := rfl
@[simp] theorem setA_q (s : State) (v : Wide) : (s.setA v).q = s.q := rfl
@[simp] theorem setA_z (s : State) (v : Wide) : (s.setA v).z = s.z := rfl
@[simp] theorem setA_eb (s : State) (v : Wide) : (s.setA v).eb = s.eb := rfl
@[simp] theorem setA_fb (s : State) (v : Wide) : (s.setA v).fb = s.fb := rfl
@[simp] theorem setA_erasable (s : State) (v : Wide) : (s.setA v).erasable = s.erasable := rfl
@[simp] theorem setA_fixed (s : State) (v : Wide) : (s.setA v).fixed = s.fixed := rfl
@[simp] theorem setA_channels (s : State) (v : Wide) : (s.setA v).channels = s.channels := rfl
@[simp] theorem setA_extracode (s : State) (v : Wide) : (s.setA v).extracode = s.extracode := rfl
@[simp] theorem setA_inhibit (s : State) (v : Wide) : (s.setA v).inhibit = s.inhibit := rfl
@[simp] theorem setA_inIsr (s : State) (v : Wide) : (s.setA v).inIsr = s.inIsr := rfl
@[simp] theorem setA_indexPending (s : State) (v : Wide) : (s.setA v).indexPending = s.indexPending := rfl
@[simp] theorem setA_indexValue (s : State) (v : Wide) : (s.setA v).indexValue = s.indexValue := rfl
@[simp] theorem setA_substitute (s : State) (v : Wide) : (s.setA v).substitute = s.substitute := rfl
@[simp] theorem setA_req (s : State) (v : Wide) : (s.setA v).req = s.req := rfl
@[simp] theorem setA_draws (s : State) (v : Wide) : (s.setA v).draws = s.draws := rfl
@[simp] theorem setA_schedule (s : State) (v : Wide) : (s.setA v).schedule = s.schedule := rfl
@[simp] theorem setA_vehicle (s : State) (v : Wide) : (s.setA v).vehicle = s.vehicle := rfl
@[simp] theorem setL_a (s : State) (v : Wide) : (s.setL v).a = s.a := rfl
@[simp] theorem setL_l (s : State) (v : Wide) : (s.setL v).l = v := rfl
@[simp] theorem setL_q (s : State) (v : Wide) : (s.setL v).q = s.q := rfl
@[simp] theorem setL_z (s : State) (v : Wide) : (s.setL v).z = s.z := rfl
@[simp] theorem setL_eb (s : State) (v : Wide) : (s.setL v).eb = s.eb := rfl
@[simp] theorem setL_fb (s : State) (v : Wide) : (s.setL v).fb = s.fb := rfl
@[simp] theorem setL_erasable (s : State) (v : Wide) : (s.setL v).erasable = s.erasable := rfl
@[simp] theorem setL_fixed (s : State) (v : Wide) : (s.setL v).fixed = s.fixed := rfl
@[simp] theorem setL_channels (s : State) (v : Wide) : (s.setL v).channels = s.channels := rfl
@[simp] theorem setL_extracode (s : State) (v : Wide) : (s.setL v).extracode = s.extracode := rfl
@[simp] theorem setL_inhibit (s : State) (v : Wide) : (s.setL v).inhibit = s.inhibit := rfl
@[simp] theorem setL_inIsr (s : State) (v : Wide) : (s.setL v).inIsr = s.inIsr := rfl
@[simp] theorem setL_indexPending (s : State) (v : Wide) : (s.setL v).indexPending = s.indexPending := rfl
@[simp] theorem setL_indexValue (s : State) (v : Wide) : (s.setL v).indexValue = s.indexValue := rfl
@[simp] theorem setL_substitute (s : State) (v : Wide) : (s.setL v).substitute = s.substitute := rfl
@[simp] theorem setL_req (s : State) (v : Wide) : (s.setL v).req = s.req := rfl
@[simp] theorem setL_draws (s : State) (v : Wide) : (s.setL v).draws = s.draws := rfl
@[simp] theorem setL_schedule (s : State) (v : Wide) : (s.setL v).schedule = s.schedule := rfl
@[simp] theorem setL_vehicle (s : State) (v : Wide) : (s.setL v).vehicle = s.vehicle := rfl
@[simp] theorem setQ_a (s : State) (v : Wide) : (s.setQ v).a = s.a := rfl
@[simp] theorem setQ_l (s : State) (v : Wide) : (s.setQ v).l = s.l := rfl
@[simp] theorem setQ_q (s : State) (v : Wide) : (s.setQ v).q = v := rfl
@[simp] theorem setQ_z (s : State) (v : Wide) : (s.setQ v).z = s.z := rfl
@[simp] theorem setQ_eb (s : State) (v : Wide) : (s.setQ v).eb = s.eb := rfl
@[simp] theorem setQ_fb (s : State) (v : Wide) : (s.setQ v).fb = s.fb := rfl
@[simp] theorem setQ_erasable (s : State) (v : Wide) : (s.setQ v).erasable = s.erasable := rfl
@[simp] theorem setQ_fixed (s : State) (v : Wide) : (s.setQ v).fixed = s.fixed := rfl
@[simp] theorem setQ_channels (s : State) (v : Wide) : (s.setQ v).channels = s.channels := rfl
@[simp] theorem setQ_extracode (s : State) (v : Wide) : (s.setQ v).extracode = s.extracode := rfl
@[simp] theorem setQ_inhibit (s : State) (v : Wide) : (s.setQ v).inhibit = s.inhibit := rfl
@[simp] theorem setQ_inIsr (s : State) (v : Wide) : (s.setQ v).inIsr = s.inIsr := rfl
@[simp] theorem setQ_indexPending (s : State) (v : Wide) : (s.setQ v).indexPending = s.indexPending := rfl
@[simp] theorem setQ_indexValue (s : State) (v : Wide) : (s.setQ v).indexValue = s.indexValue := rfl
@[simp] theorem setQ_substitute (s : State) (v : Wide) : (s.setQ v).substitute = s.substitute := rfl
@[simp] theorem setQ_req (s : State) (v : Wide) : (s.setQ v).req = s.req := rfl
@[simp] theorem setQ_draws (s : State) (v : Wide) : (s.setQ v).draws = s.draws := rfl
@[simp] theorem setQ_schedule (s : State) (v : Wide) : (s.setQ v).schedule = s.schedule := rfl
@[simp] theorem setQ_vehicle (s : State) (v : Wide) : (s.setQ v).vehicle = s.vehicle := rfl
@[simp] theorem setZ_a (s : State) (v : Addr) : (s.setZ v).a = s.a := rfl
@[simp] theorem setZ_l (s : State) (v : Addr) : (s.setZ v).l = s.l := rfl
@[simp] theorem setZ_q (s : State) (v : Addr) : (s.setZ v).q = s.q := rfl
@[simp] theorem setZ_z (s : State) (v : Addr) : (s.setZ v).z = v := rfl
@[simp] theorem setZ_eb (s : State) (v : Addr) : (s.setZ v).eb = s.eb := rfl
@[simp] theorem setZ_fb (s : State) (v : Addr) : (s.setZ v).fb = s.fb := rfl
@[simp] theorem setZ_erasable (s : State) (v : Addr) : (s.setZ v).erasable = s.erasable := rfl
@[simp] theorem setZ_fixed (s : State) (v : Addr) : (s.setZ v).fixed = s.fixed := rfl
@[simp] theorem setZ_channels (s : State) (v : Addr) : (s.setZ v).channels = s.channels := rfl
@[simp] theorem setZ_extracode (s : State) (v : Addr) : (s.setZ v).extracode = s.extracode := rfl
@[simp] theorem setZ_inhibit (s : State) (v : Addr) : (s.setZ v).inhibit = s.inhibit := rfl
@[simp] theorem setZ_inIsr (s : State) (v : Addr) : (s.setZ v).inIsr = s.inIsr := rfl
@[simp] theorem setZ_indexPending (s : State) (v : Addr) : (s.setZ v).indexPending = s.indexPending := rfl
@[simp] theorem setZ_indexValue (s : State) (v : Addr) : (s.setZ v).indexValue = s.indexValue := rfl
@[simp] theorem setZ_substitute (s : State) (v : Addr) : (s.setZ v).substitute = s.substitute := rfl
@[simp] theorem setZ_req (s : State) (v : Addr) : (s.setZ v).req = s.req := rfl
@[simp] theorem setZ_draws (s : State) (v : Addr) : (s.setZ v).draws = s.draws := rfl
@[simp] theorem setZ_schedule (s : State) (v : Addr) : (s.setZ v).schedule = s.schedule := rfl
@[simp] theorem setZ_vehicle (s : State) (v : Addr) : (s.setZ v).vehicle = s.vehicle := rfl
@[simp] theorem setEb_a (s : State) (v : BitVec 3) : (s.setEb v).a = s.a := rfl
@[simp] theorem setEb_l (s : State) (v : BitVec 3) : (s.setEb v).l = s.l := rfl
@[simp] theorem setEb_q (s : State) (v : BitVec 3) : (s.setEb v).q = s.q := rfl
@[simp] theorem setEb_z (s : State) (v : BitVec 3) : (s.setEb v).z = s.z := rfl
@[simp] theorem setEb_eb (s : State) (v : BitVec 3) : (s.setEb v).eb = v := rfl
@[simp] theorem setEb_fb (s : State) (v : BitVec 3) : (s.setEb v).fb = s.fb := rfl
@[simp] theorem setEb_erasable (s : State) (v : BitVec 3) : (s.setEb v).erasable = s.erasable := rfl
@[simp] theorem setEb_fixed (s : State) (v : BitVec 3) : (s.setEb v).fixed = s.fixed := rfl
@[simp] theorem setEb_channels (s : State) (v : BitVec 3) : (s.setEb v).channels = s.channels := rfl
@[simp] theorem setEb_extracode (s : State) (v : BitVec 3) : (s.setEb v).extracode = s.extracode := rfl
@[simp] theorem setEb_inhibit (s : State) (v : BitVec 3) : (s.setEb v).inhibit = s.inhibit := rfl
@[simp] theorem setEb_inIsr (s : State) (v : BitVec 3) : (s.setEb v).inIsr = s.inIsr := rfl
@[simp] theorem setEb_indexPending (s : State) (v : BitVec 3) : (s.setEb v).indexPending = s.indexPending := rfl
@[simp] theorem setEb_indexValue (s : State) (v : BitVec 3) : (s.setEb v).indexValue = s.indexValue := rfl
@[simp] theorem setEb_substitute (s : State) (v : BitVec 3) : (s.setEb v).substitute = s.substitute := rfl
@[simp] theorem setEb_req (s : State) (v : BitVec 3) : (s.setEb v).req = s.req := rfl
@[simp] theorem setEb_draws (s : State) (v : BitVec 3) : (s.setEb v).draws = s.draws := rfl
@[simp] theorem setEb_schedule (s : State) (v : BitVec 3) : (s.setEb v).schedule = s.schedule := rfl
@[simp] theorem setEb_vehicle (s : State) (v : BitVec 3) : (s.setEb v).vehicle = s.vehicle := rfl
@[simp] theorem setFb_a (s : State) (v : BitVec 5) : (s.setFb v).a = s.a := rfl
@[simp] theorem setFb_l (s : State) (v : BitVec 5) : (s.setFb v).l = s.l := rfl
@[simp] theorem setFb_q (s : State) (v : BitVec 5) : (s.setFb v).q = s.q := rfl
@[simp] theorem setFb_z (s : State) (v : BitVec 5) : (s.setFb v).z = s.z := rfl
@[simp] theorem setFb_eb (s : State) (v : BitVec 5) : (s.setFb v).eb = s.eb := rfl
@[simp] theorem setFb_fb (s : State) (v : BitVec 5) : (s.setFb v).fb = v := rfl
@[simp] theorem setFb_erasable (s : State) (v : BitVec 5) : (s.setFb v).erasable = s.erasable := rfl
@[simp] theorem setFb_fixed (s : State) (v : BitVec 5) : (s.setFb v).fixed = s.fixed := rfl
@[simp] theorem setFb_channels (s : State) (v : BitVec 5) : (s.setFb v).channels = s.channels := rfl
@[simp] theorem setFb_extracode (s : State) (v : BitVec 5) : (s.setFb v).extracode = s.extracode := rfl
@[simp] theorem setFb_inhibit (s : State) (v : BitVec 5) : (s.setFb v).inhibit = s.inhibit := rfl
@[simp] theorem setFb_inIsr (s : State) (v : BitVec 5) : (s.setFb v).inIsr = s.inIsr := rfl
@[simp] theorem setFb_indexPending (s : State) (v : BitVec 5) : (s.setFb v).indexPending = s.indexPending := rfl
@[simp] theorem setFb_indexValue (s : State) (v : BitVec 5) : (s.setFb v).indexValue = s.indexValue := rfl
@[simp] theorem setFb_substitute (s : State) (v : BitVec 5) : (s.setFb v).substitute = s.substitute := rfl
@[simp] theorem setFb_req (s : State) (v : BitVec 5) : (s.setFb v).req = s.req := rfl
@[simp] theorem setFb_draws (s : State) (v : BitVec 5) : (s.setFb v).draws = s.draws := rfl
@[simp] theorem setFb_schedule (s : State) (v : BitVec 5) : (s.setFb v).schedule = s.schedule := rfl
@[simp] theorem setFb_vehicle (s : State) (v : BitVec 5) : (s.setFb v).vehicle = s.vehicle := rfl
@[simp] theorem setErasable_a (s : State) (v : Memory) : (s.setErasable v).a = s.a := rfl
@[simp] theorem setErasable_l (s : State) (v : Memory) : (s.setErasable v).l = s.l := rfl
@[simp] theorem setErasable_q (s : State) (v : Memory) : (s.setErasable v).q = s.q := rfl
@[simp] theorem setErasable_z (s : State) (v : Memory) : (s.setErasable v).z = s.z := rfl
@[simp] theorem setErasable_eb (s : State) (v : Memory) : (s.setErasable v).eb = s.eb := rfl
@[simp] theorem setErasable_fb (s : State) (v : Memory) : (s.setErasable v).fb = s.fb := rfl
@[simp] theorem setErasable_erasable (s : State) (v : Memory) : (s.setErasable v).erasable = v := rfl
@[simp] theorem setErasable_fixed (s : State) (v : Memory) : (s.setErasable v).fixed = s.fixed := rfl
@[simp] theorem setErasable_channels (s : State) (v : Memory) : (s.setErasable v).channels = s.channels := rfl
@[simp] theorem setErasable_extracode (s : State) (v : Memory) : (s.setErasable v).extracode = s.extracode := rfl
@[simp] theorem setErasable_inhibit (s : State) (v : Memory) : (s.setErasable v).inhibit = s.inhibit := rfl
@[simp] theorem setErasable_inIsr (s : State) (v : Memory) : (s.setErasable v).inIsr = s.inIsr := rfl
@[simp] theorem setErasable_indexPending (s : State) (v : Memory) : (s.setErasable v).indexPending = s.indexPending := rfl
@[simp] theorem setErasable_indexValue (s : State) (v : Memory) : (s.setErasable v).indexValue = s.indexValue := rfl
@[simp] theorem setErasable_substitute (s : State) (v : Memory) : (s.setErasable v).substitute = s.substitute := rfl
@[simp] theorem setErasable_req (s : State) (v : Memory) : (s.setErasable v).req = s.req := rfl
@[simp] theorem setErasable_draws (s : State) (v : Memory) : (s.setErasable v).draws = s.draws := rfl
@[simp] theorem setErasable_schedule (s : State) (v : Memory) : (s.setErasable v).schedule = s.schedule := rfl
@[simp] theorem setErasable_vehicle (s : State) (v : Memory) : (s.setErasable v).vehicle = s.vehicle := rfl
@[simp] theorem setFixed_a (s : State) (v : Memory) : (s.setFixed v).a = s.a := rfl
@[simp] theorem setFixed_l (s : State) (v : Memory) : (s.setFixed v).l = s.l := rfl
@[simp] theorem setFixed_q (s : State) (v : Memory) : (s.setFixed v).q = s.q := rfl
@[simp] theorem setFixed_z (s : State) (v : Memory) : (s.setFixed v).z = s.z := rfl
@[simp] theorem setFixed_eb (s : State) (v : Memory) : (s.setFixed v).eb = s.eb := rfl
@[simp] theorem setFixed_fb (s : State) (v : Memory) : (s.setFixed v).fb = s.fb := rfl
@[simp] theorem setFixed_erasable (s : State) (v : Memory) : (s.setFixed v).erasable = s.erasable := rfl
@[simp] theorem setFixed_fixed (s : State) (v : Memory) : (s.setFixed v).fixed = v := rfl
@[simp] theorem setFixed_channels (s : State) (v : Memory) : (s.setFixed v).channels = s.channels := rfl
@[simp] theorem setFixed_extracode (s : State) (v : Memory) : (s.setFixed v).extracode = s.extracode := rfl
@[simp] theorem setFixed_inhibit (s : State) (v : Memory) : (s.setFixed v).inhibit = s.inhibit := rfl
@[simp] theorem setFixed_inIsr (s : State) (v : Memory) : (s.setFixed v).inIsr = s.inIsr := rfl
@[simp] theorem setFixed_indexPending (s : State) (v : Memory) : (s.setFixed v).indexPending = s.indexPending := rfl
@[simp] theorem setFixed_indexValue (s : State) (v : Memory) : (s.setFixed v).indexValue = s.indexValue := rfl
@[simp] theorem setFixed_substitute (s : State) (v : Memory) : (s.setFixed v).substitute = s.substitute := rfl
@[simp] theorem setFixed_req (s : State) (v : Memory) : (s.setFixed v).req = s.req := rfl
@[simp] theorem setFixed_draws (s : State) (v : Memory) : (s.setFixed v).draws = s.draws := rfl
@[simp] theorem setFixed_schedule (s : State) (v : Memory) : (s.setFixed v).schedule = s.schedule := rfl
@[simp] theorem setFixed_vehicle (s : State) (v : Memory) : (s.setFixed v).vehicle = s.vehicle := rfl
@[simp] theorem setChannels_a (s : State) (v : Memory) : (s.setChannels v).a = s.a := rfl
@[simp] theorem setChannels_l (s : State) (v : Memory) : (s.setChannels v).l = s.l := rfl
@[simp] theorem setChannels_q (s : State) (v : Memory) : (s.setChannels v).q = s.q := rfl
@[simp] theorem setChannels_z (s : State) (v : Memory) : (s.setChannels v).z = s.z := rfl
@[simp] theorem setChannels_eb (s : State) (v : Memory) : (s.setChannels v).eb = s.eb := rfl
@[simp] theorem setChannels_fb (s : State) (v : Memory) : (s.setChannels v).fb = s.fb := rfl
@[simp] theorem setChannels_erasable (s : State) (v : Memory) : (s.setChannels v).erasable = s.erasable := rfl
@[simp] theorem setChannels_fixed (s : State) (v : Memory) : (s.setChannels v).fixed = s.fixed := rfl
@[simp] theorem setChannels_channels (s : State) (v : Memory) : (s.setChannels v).channels = v := rfl
@[simp] theorem setChannels_extracode (s : State) (v : Memory) : (s.setChannels v).extracode = s.extracode := rfl
@[simp] theorem setChannels_inhibit (s : State) (v : Memory) : (s.setChannels v).inhibit = s.inhibit := rfl
@[simp] theorem setChannels_inIsr (s : State) (v : Memory) : (s.setChannels v).inIsr = s.inIsr := rfl
@[simp] theorem setChannels_indexPending (s : State) (v : Memory) : (s.setChannels v).indexPending = s.indexPending := rfl
@[simp] theorem setChannels_indexValue (s : State) (v : Memory) : (s.setChannels v).indexValue = s.indexValue := rfl
@[simp] theorem setChannels_substitute (s : State) (v : Memory) : (s.setChannels v).substitute = s.substitute := rfl
@[simp] theorem setChannels_req (s : State) (v : Memory) : (s.setChannels v).req = s.req := rfl
@[simp] theorem setChannels_draws (s : State) (v : Memory) : (s.setChannels v).draws = s.draws := rfl
@[simp] theorem setChannels_schedule (s : State) (v : Memory) : (s.setChannels v).schedule = s.schedule := rfl
@[simp] theorem setChannels_vehicle (s : State) (v : Memory) : (s.setChannels v).vehicle = s.vehicle := rfl
@[simp] theorem setExtracode_a (s : State) (v : Bool) : (s.setExtracode v).a = s.a := rfl
@[simp] theorem setExtracode_l (s : State) (v : Bool) : (s.setExtracode v).l = s.l := rfl
@[simp] theorem setExtracode_q (s : State) (v : Bool) : (s.setExtracode v).q = s.q := rfl
@[simp] theorem setExtracode_z (s : State) (v : Bool) : (s.setExtracode v).z = s.z := rfl
@[simp] theorem setExtracode_eb (s : State) (v : Bool) : (s.setExtracode v).eb = s.eb := rfl
@[simp] theorem setExtracode_fb (s : State) (v : Bool) : (s.setExtracode v).fb = s.fb := rfl
@[simp] theorem setExtracode_erasable (s : State) (v : Bool) : (s.setExtracode v).erasable = s.erasable := rfl
@[simp] theorem setExtracode_fixed (s : State) (v : Bool) : (s.setExtracode v).fixed = s.fixed := rfl
@[simp] theorem setExtracode_channels (s : State) (v : Bool) : (s.setExtracode v).channels = s.channels := rfl
@[simp] theorem setExtracode_extracode (s : State) (v : Bool) : (s.setExtracode v).extracode = v := rfl
@[simp] theorem setExtracode_inhibit (s : State) (v : Bool) : (s.setExtracode v).inhibit = s.inhibit := rfl
@[simp] theorem setExtracode_inIsr (s : State) (v : Bool) : (s.setExtracode v).inIsr = s.inIsr := rfl
@[simp] theorem setExtracode_indexPending (s : State) (v : Bool) : (s.setExtracode v).indexPending = s.indexPending := rfl
@[simp] theorem setExtracode_indexValue (s : State) (v : Bool) : (s.setExtracode v).indexValue = s.indexValue := rfl
@[simp] theorem setExtracode_substitute (s : State) (v : Bool) : (s.setExtracode v).substitute = s.substitute := rfl
@[simp] theorem setExtracode_req (s : State) (v : Bool) : (s.setExtracode v).req = s.req := rfl
@[simp] theorem setExtracode_draws (s : State) (v : Bool) : (s.setExtracode v).draws = s.draws := rfl
@[simp] theorem setExtracode_schedule (s : State) (v : Bool) : (s.setExtracode v).schedule = s.schedule := rfl
@[simp] theorem setExtracode_vehicle (s : State) (v : Bool) : (s.setExtracode v).vehicle = s.vehicle := rfl
@[simp] theorem setInhibit_a (s : State) (v : Bool) : (s.setInhibit v).a = s.a := rfl
@[simp] theorem setInhibit_l (s : State) (v : Bool) : (s.setInhibit v).l = s.l := rfl
@[simp] theorem setInhibit_q (s : State) (v : Bool) : (s.setInhibit v).q = s.q := rfl
@[simp] theorem setInhibit_z (s : State) (v : Bool) : (s.setInhibit v).z = s.z := rfl
@[simp] theorem setInhibit_eb (s : State) (v : Bool) : (s.setInhibit v).eb = s.eb := rfl
@[simp] theorem setInhibit_fb (s : State) (v : Bool) : (s.setInhibit v).fb = s.fb := rfl
@[simp] theorem setInhibit_erasable (s : State) (v : Bool) : (s.setInhibit v).erasable = s.erasable := rfl
@[simp] theorem setInhibit_fixed (s : State) (v : Bool) : (s.setInhibit v).fixed = s.fixed := rfl
@[simp] theorem setInhibit_channels (s : State) (v : Bool) : (s.setInhibit v).channels = s.channels := rfl
@[simp] theorem setInhibit_extracode (s : State) (v : Bool) : (s.setInhibit v).extracode = s.extracode := rfl
@[simp] theorem setInhibit_inhibit (s : State) (v : Bool) : (s.setInhibit v).inhibit = v := rfl
@[simp] theorem setInhibit_inIsr (s : State) (v : Bool) : (s.setInhibit v).inIsr = s.inIsr := rfl
@[simp] theorem setInhibit_indexPending (s : State) (v : Bool) : (s.setInhibit v).indexPending = s.indexPending := rfl
@[simp] theorem setInhibit_indexValue (s : State) (v : Bool) : (s.setInhibit v).indexValue = s.indexValue := rfl
@[simp] theorem setInhibit_substitute (s : State) (v : Bool) : (s.setInhibit v).substitute = s.substitute := rfl
@[simp] theorem setInhibit_req (s : State) (v : Bool) : (s.setInhibit v).req = s.req := rfl
@[simp] theorem setInhibit_draws (s : State) (v : Bool) : (s.setInhibit v).draws = s.draws := rfl
@[simp] theorem setInhibit_schedule (s : State) (v : Bool) : (s.setInhibit v).schedule = s.schedule := rfl
@[simp] theorem setInhibit_vehicle (s : State) (v : Bool) : (s.setInhibit v).vehicle = s.vehicle := rfl
@[simp] theorem setInIsr_a (s : State) (v : Bool) : (s.setInIsr v).a = s.a := rfl
@[simp] theorem setInIsr_l (s : State) (v : Bool) : (s.setInIsr v).l = s.l := rfl
@[simp] theorem setInIsr_q (s : State) (v : Bool) : (s.setInIsr v).q = s.q := rfl
@[simp] theorem setInIsr_z (s : State) (v : Bool) : (s.setInIsr v).z = s.z := rfl
@[simp] theorem setInIsr_eb (s : State) (v : Bool) : (s.setInIsr v).eb = s.eb := rfl
@[simp] theorem setInIsr_fb (s : State) (v : Bool) : (s.setInIsr v).fb = s.fb := rfl
@[simp] theorem setInIsr_erasable (s : State) (v : Bool) : (s.setInIsr v).erasable = s.erasable := rfl
@[simp] theorem setInIsr_fixed (s : State) (v : Bool) : (s.setInIsr v).fixed = s.fixed := rfl
@[simp] theorem setInIsr_channels (s : State) (v : Bool) : (s.setInIsr v).channels = s.channels := rfl
@[simp] theorem setInIsr_extracode (s : State) (v : Bool) : (s.setInIsr v).extracode = s.extracode := rfl
@[simp] theorem setInIsr_inhibit (s : State) (v : Bool) : (s.setInIsr v).inhibit = s.inhibit := rfl
@[simp] theorem setInIsr_inIsr (s : State) (v : Bool) : (s.setInIsr v).inIsr = v := rfl
@[simp] theorem setInIsr_indexPending (s : State) (v : Bool) : (s.setInIsr v).indexPending = s.indexPending := rfl
@[simp] theorem setInIsr_indexValue (s : State) (v : Bool) : (s.setInIsr v).indexValue = s.indexValue := rfl
@[simp] theorem setInIsr_substitute (s : State) (v : Bool) : (s.setInIsr v).substitute = s.substitute := rfl
@[simp] theorem setInIsr_req (s : State) (v : Bool) : (s.setInIsr v).req = s.req := rfl
@[simp] theorem setInIsr_draws (s : State) (v : Bool) : (s.setInIsr v).draws = s.draws := rfl
@[simp] theorem setInIsr_schedule (s : State) (v : Bool) : (s.setInIsr v).schedule = s.schedule := rfl
@[simp] theorem setInIsr_vehicle (s : State) (v : Bool) : (s.setInIsr v).vehicle = s.vehicle := rfl
@[simp] theorem setIndexPending_a (s : State) (v : Bool) : (s.setIndexPending v).a = s.a := rfl
@[simp] theorem setIndexPending_l (s : State) (v : Bool) : (s.setIndexPending v).l = s.l := rfl
@[simp] theorem setIndexPending_q (s : State) (v : Bool) : (s.setIndexPending v).q = s.q := rfl
@[simp] theorem setIndexPending_z (s : State) (v : Bool) : (s.setIndexPending v).z = s.z := rfl
@[simp] theorem setIndexPending_eb (s : State) (v : Bool) : (s.setIndexPending v).eb = s.eb := rfl
@[simp] theorem setIndexPending_fb (s : State) (v : Bool) : (s.setIndexPending v).fb = s.fb := rfl
@[simp] theorem setIndexPending_erasable (s : State) (v : Bool) : (s.setIndexPending v).erasable = s.erasable := rfl
@[simp] theorem setIndexPending_fixed (s : State) (v : Bool) : (s.setIndexPending v).fixed = s.fixed := rfl
@[simp] theorem setIndexPending_channels (s : State) (v : Bool) : (s.setIndexPending v).channels = s.channels := rfl
@[simp] theorem setIndexPending_extracode (s : State) (v : Bool) : (s.setIndexPending v).extracode = s.extracode := rfl
@[simp] theorem setIndexPending_inhibit (s : State) (v : Bool) : (s.setIndexPending v).inhibit = s.inhibit := rfl
@[simp] theorem setIndexPending_inIsr (s : State) (v : Bool) : (s.setIndexPending v).inIsr = s.inIsr := rfl
@[simp] theorem setIndexPending_indexPending (s : State) (v : Bool) : (s.setIndexPending v).indexPending = v := rfl
@[simp] theorem setIndexPending_indexValue (s : State) (v : Bool) : (s.setIndexPending v).indexValue = s.indexValue := rfl
@[simp] theorem setIndexPending_substitute (s : State) (v : Bool) : (s.setIndexPending v).substitute = s.substitute := rfl
@[simp] theorem setIndexPending_req (s : State) (v : Bool) : (s.setIndexPending v).req = s.req := rfl
@[simp] theorem setIndexPending_draws (s : State) (v : Bool) : (s.setIndexPending v).draws = s.draws := rfl
@[simp] theorem setIndexPending_schedule (s : State) (v : Bool) : (s.setIndexPending v).schedule = s.schedule := rfl
@[simp] theorem setIndexPending_vehicle (s : State) (v : Bool) : (s.setIndexPending v).vehicle = s.vehicle := rfl
@[simp] theorem setIndexValue_a (s : State) (v : Word) : (s.setIndexValue v).a = s.a := rfl
@[simp] theorem setIndexValue_l (s : State) (v : Word) : (s.setIndexValue v).l = s.l := rfl
@[simp] theorem setIndexValue_q (s : State) (v : Word) : (s.setIndexValue v).q = s.q := rfl
@[simp] theorem setIndexValue_z (s : State) (v : Word) : (s.setIndexValue v).z = s.z := rfl
@[simp] theorem setIndexValue_eb (s : State) (v : Word) : (s.setIndexValue v).eb = s.eb := rfl
@[simp] theorem setIndexValue_fb (s : State) (v : Word) : (s.setIndexValue v).fb = s.fb := rfl
@[simp] theorem setIndexValue_erasable (s : State) (v : Word) : (s.setIndexValue v).erasable = s.erasable := rfl
@[simp] theorem setIndexValue_fixed (s : State) (v : Word) : (s.setIndexValue v).fixed = s.fixed := rfl
@[simp] theorem setIndexValue_channels (s : State) (v : Word) : (s.setIndexValue v).channels = s.channels := rfl
@[simp] theorem setIndexValue_extracode (s : State) (v : Word) : (s.setIndexValue v).extracode = s.extracode := rfl
@[simp] theorem setIndexValue_inhibit (s : State) (v : Word) : (s.setIndexValue v).inhibit = s.inhibit := rfl
@[simp] theorem setIndexValue_inIsr (s : State) (v : Word) : (s.setIndexValue v).inIsr = s.inIsr := rfl
@[simp] theorem setIndexValue_indexPending (s : State) (v : Word) : (s.setIndexValue v).indexPending = s.indexPending := rfl
@[simp] theorem setIndexValue_indexValue (s : State) (v : Word) : (s.setIndexValue v).indexValue = v := rfl
@[simp] theorem setIndexValue_substitute (s : State) (v : Word) : (s.setIndexValue v).substitute = s.substitute := rfl
@[simp] theorem setIndexValue_req (s : State) (v : Word) : (s.setIndexValue v).req = s.req := rfl
@[simp] theorem setIndexValue_draws (s : State) (v : Word) : (s.setIndexValue v).draws = s.draws := rfl
@[simp] theorem setIndexValue_schedule (s : State) (v : Word) : (s.setIndexValue v).schedule = s.schedule := rfl
@[simp] theorem setIndexValue_vehicle (s : State) (v : Word) : (s.setIndexValue v).vehicle = s.vehicle := rfl
@[simp] theorem setSubstitute_a (s : State) (v : Bool) : (s.setSubstitute v).a = s.a := rfl
@[simp] theorem setSubstitute_l (s : State) (v : Bool) : (s.setSubstitute v).l = s.l := rfl
@[simp] theorem setSubstitute_q (s : State) (v : Bool) : (s.setSubstitute v).q = s.q := rfl
@[simp] theorem setSubstitute_z (s : State) (v : Bool) : (s.setSubstitute v).z = s.z := rfl
@[simp] theorem setSubstitute_eb (s : State) (v : Bool) : (s.setSubstitute v).eb = s.eb := rfl
@[simp] theorem setSubstitute_fb (s : State) (v : Bool) : (s.setSubstitute v).fb = s.fb := rfl
@[simp] theorem setSubstitute_erasable (s : State) (v : Bool) : (s.setSubstitute v).erasable = s.erasable := rfl
@[simp] theorem setSubstitute_fixed (s : State) (v : Bool) : (s.setSubstitute v).fixed = s.fixed := rfl
@[simp] theorem setSubstitute_channels (s : State) (v : Bool) : (s.setSubstitute v).channels = s.channels := rfl
@[simp] theorem setSubstitute_extracode (s : State) (v : Bool) : (s.setSubstitute v).extracode = s.extracode := rfl
@[simp] theorem setSubstitute_inhibit (s : State) (v : Bool) : (s.setSubstitute v).inhibit = s.inhibit := rfl
@[simp] theorem setSubstitute_inIsr (s : State) (v : Bool) : (s.setSubstitute v).inIsr = s.inIsr := rfl
@[simp] theorem setSubstitute_indexPending (s : State) (v : Bool) : (s.setSubstitute v).indexPending = s.indexPending := rfl
@[simp] theorem setSubstitute_indexValue (s : State) (v : Bool) : (s.setSubstitute v).indexValue = s.indexValue := rfl
@[simp] theorem setSubstitute_substitute (s : State) (v : Bool) : (s.setSubstitute v).substitute = v := rfl
@[simp] theorem setSubstitute_req (s : State) (v : Bool) : (s.setSubstitute v).req = s.req := rfl
@[simp] theorem setSubstitute_draws (s : State) (v : Bool) : (s.setSubstitute v).draws = s.draws := rfl
@[simp] theorem setSubstitute_schedule (s : State) (v : Bool) : (s.setSubstitute v).schedule = s.schedule := rfl
@[simp] theorem setSubstitute_vehicle (s : State) (v : Bool) : (s.setSubstitute v).vehicle = s.vehicle := rfl
@[simp] theorem setReq_a (s : State) (v : Requests) : (s.setReq v).a = s.a := rfl
@[simp] theorem setReq_l (s : State) (v : Requests) : (s.setReq v).l = s.l := rfl
@[simp] theorem setReq_q (s : State) (v : Requests) : (s.setReq v).q = s.q := rfl
@[simp] theorem setReq_z (s : State) (v : Requests) : (s.setReq v).z = s.z := rfl
@[simp] theorem setReq_eb (s : State) (v : Requests) : (s.setReq v).eb = s.eb := rfl
@[simp] theorem setReq_fb (s : State) (v : Requests) : (s.setReq v).fb = s.fb := rfl
@[simp] theorem setReq_erasable (s : State) (v : Requests) : (s.setReq v).erasable = s.erasable := rfl
@[simp] theorem setReq_fixed (s : State) (v : Requests) : (s.setReq v).fixed = s.fixed := rfl
@[simp] theorem setReq_channels (s : State) (v : Requests) : (s.setReq v).channels = s.channels := rfl
@[simp] theorem setReq_extracode (s : State) (v : Requests) : (s.setReq v).extracode = s.extracode := rfl
@[simp] theorem setReq_inhibit (s : State) (v : Requests) : (s.setReq v).inhibit = s.inhibit := rfl
@[simp] theorem setReq_inIsr (s : State) (v : Requests) : (s.setReq v).inIsr = s.inIsr := rfl
@[simp] theorem setReq_indexPending (s : State) (v : Requests) : (s.setReq v).indexPending = s.indexPending := rfl
@[simp] theorem setReq_indexValue (s : State) (v : Requests) : (s.setReq v).indexValue = s.indexValue := rfl
@[simp] theorem setReq_substitute (s : State) (v : Requests) : (s.setReq v).substitute = s.substitute := rfl
@[simp] theorem setReq_req (s : State) (v : Requests) : (s.setReq v).req = v := rfl
@[simp] theorem setReq_draws (s : State) (v : Requests) : (s.setReq v).draws = s.draws := rfl
@[simp] theorem setReq_schedule (s : State) (v : Requests) : (s.setReq v).schedule = s.schedule := rfl
@[simp] theorem setReq_vehicle (s : State) (v : Requests) : (s.setReq v).vehicle = s.vehicle := rfl
@[simp] theorem setDraws_a (s : State) (v : Nat) : (s.setDraws v).a = s.a := rfl
@[simp] theorem setDraws_l (s : State) (v : Nat) : (s.setDraws v).l = s.l := rfl
@[simp] theorem setDraws_q (s : State) (v : Nat) : (s.setDraws v).q = s.q := rfl
@[simp] theorem setDraws_z (s : State) (v : Nat) : (s.setDraws v).z = s.z := rfl
@[simp] theorem setDraws_eb (s : State) (v : Nat) : (s.setDraws v).eb = s.eb := rfl
@[simp] theorem setDraws_fb (s : State) (v : Nat) : (s.setDraws v).fb = s.fb := rfl
@[simp] theorem setDraws_erasable (s : State) (v : Nat) : (s.setDraws v).erasable = s.erasable := rfl
@[simp] theorem setDraws_fixed (s : State) (v : Nat) : (s.setDraws v).fixed = s.fixed := rfl
@[simp] theorem setDraws_channels (s : State) (v : Nat) : (s.setDraws v).channels = s.channels := rfl
@[simp] theorem setDraws_extracode (s : State) (v : Nat) : (s.setDraws v).extracode = s.extracode := rfl
@[simp] theorem setDraws_inhibit (s : State) (v : Nat) : (s.setDraws v).inhibit = s.inhibit := rfl
@[simp] theorem setDraws_inIsr (s : State) (v : Nat) : (s.setDraws v).inIsr = s.inIsr := rfl
@[simp] theorem setDraws_indexPending (s : State) (v : Nat) : (s.setDraws v).indexPending = s.indexPending := rfl
@[simp] theorem setDraws_indexValue (s : State) (v : Nat) : (s.setDraws v).indexValue = s.indexValue := rfl
@[simp] theorem setDraws_substitute (s : State) (v : Nat) : (s.setDraws v).substitute = s.substitute := rfl
@[simp] theorem setDraws_req (s : State) (v : Nat) : (s.setDraws v).req = s.req := rfl
@[simp] theorem setDraws_draws (s : State) (v : Nat) : (s.setDraws v).draws = v := rfl
@[simp] theorem setDraws_schedule (s : State) (v : Nat) : (s.setDraws v).schedule = s.schedule := rfl
@[simp] theorem setDraws_vehicle (s : State) (v : Nat) : (s.setDraws v).vehicle = s.vehicle := rfl
@[simp] theorem setSchedule_a (s : State) (v : List (List EnvAction)) : (s.setSchedule v).a = s.a := rfl
@[simp] theorem setSchedule_l (s : State) (v : List (List EnvAction)) : (s.setSchedule v).l = s.l := rfl
@[simp] theorem setSchedule_q (s : State) (v : List (List EnvAction)) : (s.setSchedule v).q = s.q := rfl
@[simp] theorem setSchedule_z (s : State) (v : List (List EnvAction)) : (s.setSchedule v).z = s.z := rfl
@[simp] theorem setSchedule_eb (s : State) (v : List (List EnvAction)) : (s.setSchedule v).eb = s.eb := rfl
@[simp] theorem setSchedule_fb (s : State) (v : List (List EnvAction)) : (s.setSchedule v).fb = s.fb := rfl
@[simp] theorem setSchedule_erasable (s : State) (v : List (List EnvAction)) : (s.setSchedule v).erasable = s.erasable := rfl
@[simp] theorem setSchedule_fixed (s : State) (v : List (List EnvAction)) : (s.setSchedule v).fixed = s.fixed := rfl
@[simp] theorem setSchedule_channels (s : State) (v : List (List EnvAction)) : (s.setSchedule v).channels = s.channels := rfl
@[simp] theorem setSchedule_extracode (s : State) (v : List (List EnvAction)) : (s.setSchedule v).extracode = s.extracode := rfl
@[simp] theorem setSchedule_inhibit (s : State) (v : List (List EnvAction)) : (s.setSchedule v).inhibit = s.inhibit := rfl
@[simp] theorem setSchedule_inIsr (s : State) (v : List (List EnvAction)) : (s.setSchedule v).inIsr = s.inIsr := rfl
@[simp] theorem setSchedule_indexPending (s : State) (v : List (List EnvAction)) : (s.setSchedule v).indexPending = s.indexPending := rfl
@[simp] theorem setSchedule_indexValue (s : State) (v : List (List EnvAction)) : (s.setSchedule v).indexValue = s.indexValue := rfl
@[simp] theorem setSchedule_substitute (s : State) (v : List (List EnvAction)) : (s.setSchedule v).substitute = s.substitute := rfl
@[simp] theorem setSchedule_req (s : State) (v : List (List EnvAction)) : (s.setSchedule v).req = s.req := rfl
@[simp] theorem setSchedule_draws (s : State) (v : List (List EnvAction)) : (s.setSchedule v).draws = s.draws := rfl
@[simp] theorem setSchedule_schedule (s : State) (v : List (List EnvAction)) : (s.setSchedule v).schedule = v := rfl
@[simp] theorem setSchedule_vehicle (s : State) (v : List (List EnvAction)) : (s.setSchedule v).vehicle = s.vehicle := rfl

end Sys2Proof.Machine
end

