-- ==== Sys2Proof/Laws/Frames.lean ====
section
/-!
SUPPORT. What the shared operations of Machine/Ops.lean and Machine/Operands.lean leave unchanged, and what they leave in the place
they write: one lemma per operation, to be cited instead of unfolding it.
-/

namespace Sys2Proof.Machine

/-! ### Laws of frames -/

theorem UnchangedBut.refl (s : State) : UnchangedBut [] s s :=
  ⟨fun _ _ => rfl, rfl, rfl, rfl, rfl, rfl, rfl, rfl, rfl, rfl, rfl, rfl⟩

theorem Place.apartFrom_append (x : Place) (c d : List Place) : x.apartFrom (c ++ d) = (x.apartFrom c && x.apartFrom d) := by
  simp [Place.apartFrom, List.all_append]

theorem Place.apartFrom_of_subset {x : Place} {c d : List Place} (h : c ⊆ d) (hx : x.apartFrom d = true) :
    x.apartFrom c = true := by
  simp only [Place.apartFrom, List.all_eq_true] at *
  exact fun y hy => hx y (h hy)

theorem UnchangedBut.mono {c d : List Place} {s t : State} (h : UnchangedBut c s t) (hcd : c ⊆ d) : UnchangedBut d s t :=
  { h with places := fun x hx => h.places x (Place.apartFrom_of_subset hcd hx) }

theorem UnchangedBut.trans {c d : List Place} {s t u : State} (h : UnchangedBut c s t) (g : UnchangedBut d t u) :
    UnchangedBut (c ++ d) s u := by
  refine ⟨fun x hx => ?_, g.2.trans h.2, g.3.trans h.3, g.4.trans h.4, g.5.trans h.5, g.6.trans h.6, g.7.trans h.7,
    g.8.trans h.8, g.9.trans h.9, g.10.trans h.10, g.11.trans h.11, g.12.trans h.12⟩
  rw [Place.apartFrom_append, Bool.and_eq_true] at hx
  rw [g.places x hx.2, h.places x hx.1]

/-! ### One register written -/

theorem unchangedBut_setA (s : State) (v : Wide) : UnchangedBut [.a] s (s.setA v) :=
  ⟨fun x hx => by cases x <;> first | rfl | exact absurd hx (by decide), rfl, rfl, rfl, rfl, rfl, rfl, rfl, rfl, rfl, rfl, rfl⟩

theorem unchangedBut_setL (s : State) (v : Wide) : UnchangedBut [.l] s (s.setL v) :=
  ⟨fun x hx => by cases x <;> first | rfl | exact absurd hx (by decide), rfl, rfl, rfl, rfl, rfl, rfl, rfl, rfl, rfl, rfl, rfl⟩

theorem unchangedBut_setQ (s : State) (v : Wide) : UnchangedBut [.q] s (s.setQ v) :=
  ⟨fun x hx => by cases x <;> first | rfl | exact absurd hx (by decide), rfl, rfl, rfl, rfl, rfl, rfl, rfl, rfl, rfl, rfl, rfl⟩

theorem unchangedBut_setZ (s : State) (v : Addr) : UnchangedBut [.z] s (s.setZ v) :=
  ⟨fun x hx => by cases x <;> first | rfl | exact absurd hx (by decide), rfl, rfl, rfl, rfl, rfl, rfl, rfl, rfl, rfl, rfl, rfl⟩

/-! ### A place written -/

theorem Place.ne_of_apartFrom {x p : Place} (h : x.apartFrom [p] = true) : x ≠ p := by
  rintro rfl
  cases x <;> simp [Place.apartFrom, Place.sharesState] at h

theorem Place.apartFrom_core {x : Place} {i : Nat} (h : x ≠ .core i) : x.apartFrom [.core i] = true := by
  cases x with
  | core j =>
    have hij : i ≠ j := fun e => h (by rw [e])
    simp [Place.apartFrom, Place.sharesState, hij]
  | _ => rfl

/-- A word of erasable core written changes no other place. -/
theorem unchangedBut_setErasable (s : State) (i : Nat) (w : Word) :
    UnchangedBut [.core i] s (s.setErasable (s.erasable.write i w)) := by
  refine ⟨fun x hx => ?_, rfl, rfl, rfl, rfl, rfl, rfl, rfl, rfl, rfl, rfl, rfl⟩
  cases x with
  | core j =>
    have hij : j ≠ i := fun h => Place.ne_of_apartFrom hx (by rw [h])
    simp only [getWide, getWord, setErasable_erasable, Memory.read_write_other _ _ hij]
  | _ => rfl

/-- `Write15` changes nothing but the place it writes (R91). -/
theorem unchangedBut_putWord (s : State) (p : Place) (w : Word) : UnchangedBut [p] s (putWord s p w) := by
  cases p with
  | core i => exact unchangedBut_setErasable s i _
  | a => exact unchangedBut_setA s _
  | l => exact unchangedBut_setL s _
  | q => exact unchangedBut_setQ s _
  | z => exact unchangedBut_setZ s _
  | zero => exact (UnchangedBut.refl s).mono (by simp)
  | fixed i => exact (UnchangedBut.refl s).mono (by simp)
  | _ =>
    exact ⟨fun x hx => by cases x <;> first | rfl | exact absurd hx (by decide), rfl, rfl, rfl, rfl, rfl, rfl, rfl, rfl, rfl, rfl, rfl⟩

/-- `Wr16` changes nothing but the place it writes (R93). -/
theorem unchangedBut_putWide (s : State) (p : Place) (v : Wide) : UnchangedBut [p] s (putWide s p v) := by
  cases p <;> first
    | exact unchangedBut_setA s v
    | exact unchangedBut_setL s v
    | exact unchangedBut_setQ s v
    | exact unchangedBut_putWord s _ (ovc v)

@[simp] theorem ebField_ebWord (e : BitVec 3) : ebField (ebWord e) = e := by revert e; decide

@[simp] theorem fbField_fbWord (f : BitVec 5) : fbField (fbWord f) = f := by revert f; decide

@[simp] theorem fbField_bbWord (f : BitVec 5) (e : BitVec 3) : fbField (bbWord f e) = f := by revert f e; decide

@[simp] theorem bbEbField_bbWord (f : BitVec 5) (e : BitVec 3) : bbEbField (bbWord f e) = e := by revert f e; decide

theorem toNat_zWord (z : Addr) : (zWord z).toNat = z.toNat := by
  simp only [zWord, BitVec.toNat_append]
  simp

@[simp] theorem zField_zWord (z : Addr) : zField (zWord z) = z := by
  apply BitVec.eq_of_toNat_eq
  have := z.isLt
  simp only [zField, BitVec.extractLsb'_toNat, toNat_zWord]
  omega

/-- What `Wr16` leaves in the place (R91, R93). -/
theorem getWide_putWide {s : State} (h : s.erasable.wf = true) (p : Place) (v : Wide) :
    getWide (putWide s p v) p = storedAs s v p := by
  cases p <;> first
    | rfl
    | simp only [getWide, putWide, putWord, getWord, storedAs, setErasable_erasable, Memory.read_write_same h]

/-- An ordinary word keeps what is written (R91). -/
theorem edit_of_not_editing {i : Nat} (h : ¬(0o20 ≤ i ∧ i ≤ 0o23)) (w : Word) : edit i w = w := by
  unfold edit
  rw [if_neg (by omega), if_neg (by omega), if_neg (by omega), if_neg (by omega)]

/-- A Rewrite changes nothing but an editing register (R94). -/
theorem unchangedBut_rewrite {s : State} (h : s.erasable.wf = true) (p : Place) : UnchangedBut p.edited s (rewrite s p) := by
  cases p with
  | core i =>
    have hp : UnchangedBut [.core i] s (rewrite s (.core i)) := unchangedBut_putWord s (.core i) _
    by_cases hi : 0o20 ≤ i ∧ i ≤ 0o23
    · simpa only [Place.edited, if_pos hi] using hp
    · refine { hp with places := fun x _ => ?_ }
      by_cases hx : x = .core i
      · subst hx
        simp only [getWide, rewrite, putWord, getWord, setErasable_erasable, Memory.read_write_same h, edit_of_not_editing hi]
      · exact hp.places x (Place.apartFrom_core hx)
  | a | l | q | fixed i | zero => exact UnchangedBut.refl s
  | eb | fb | z | bb =>
    simp only [Place.edited, rewrite, putWord, getWord, ebField_ebWord, fbField_fbWord, zField_zWord, fbField_bbWord,
      bbEbField_bbWord]
    exact UnchangedBut.refl s

/-- What a Rewrite leaves in the place (R94). -/
theorem getWide_rewrite {s : State} (h : s.erasable.wf = true) (p : Place) : getWide (rewrite s p) p = rewrittenAs s p := by
  cases p with
  | core i => simp only [rewrite, putWord, getWide, getWord, rewrittenAs, setErasable_erasable, Memory.read_write_same h]
  | a | l | q | fixed i | zero => rfl
  | eb | fb | z | bb =>
    simp only [rewrite, putWord, getWord, rewrittenAs, getWide, ebField_ebWord, fbField_fbWord, zField_zWord, fbField_bbWord,
      bbEbField_bbWord, setEb_eb, setFb_fb, setZ_z, setEb_fb]

@[simp] theorem rewrite_a (s : State) (p : Place) : (rewrite s p).a = s.a := by cases p <;> rfl
@[simp] theorem rewrite_l (s : State) (p : Place) : (rewrite s p).l = s.l := by cases p <;> rfl
@[simp] theorem rewrite_q (s : State) (p : Place) : (rewrite s p).q = s.q := by cases p <;> rfl

@[simp] theorem rewrite_z (s : State) (p : Place) : (rewrite s p).z = s.z := by
  cases p <;> first | rfl | exact zField_zWord s.z

/-! ### Outcomes of operand forms -/

/-- An operand form with a readable operand completes. -/
theorem onOperand_of_locate {s : State} {k : Addr} {p : Place} (h : locate s k = .ok p) (f : Place → State) :
    onOperand s k f = .next (f p) := by
  simp only [onOperand, h]

/-- An operand form with no readable operand stops as `locate` does. -/
theorem onOperand_of_stop {s : State} {k : Addr} {e : Refusal} (h : locate s k = .error e) (f : Place → State) :
    onOperand s k f = .refused e := by
  simp only [onOperand, h]

theorem onPair_of_locate {s : State} {k : Addr} {lo hi : Place} (h : locatePair s k = .ok (lo, hi))
    (g : Place → Place → State) : onPair s k g = .next (g lo hi) := by
  simp only [onPair, h]

theorem onPair_of_stop {s : State} {k : Addr} {e : Refusal} (h : locatePair s k = .error e) (g : Place → Place → State) :
    onPair s k g = .refused e := by
  simp only [onPair, h]

/-- All an operand form can answer next. -/
theorem onOperand_next {s : State} {k : Addr} {f : Place → State} {t : State} (h : onOperand s k f = .next t) :
    ∃ p, locate s k = .ok p ∧ t = f p := by
  cases hl : locate s k with
  | error e => rw [onOperand_of_stop hl] at h; exact absurd h (by simp)
  | ok p => rw [onOperand_of_locate hl] at h; injection h with h; exact ⟨p, rfl, h.symm⟩

/-- All a double-word form can answer next. -/
theorem onPair_next {s : State} {k : Addr} {g : Place → Place → State} {t : State} (h : onPair s k g = .next t) :
    ∃ lo hi, locatePair s k = .ok (lo, hi) ∧ t = g lo hi := by
  cases hl : locatePair s k with
  | error e => rw [onPair_of_stop hl] at h; exact absurd h (by simp)
  | ok p => rw [onPair_of_locate hl] at h; injection h with h; exact ⟨p.1, p.2, rfl, h.symm⟩

/-- All a finished operation can answer next. -/
theorem finish_next {r : Except Refusal State} {t : State} (h : finish r = .next t) : r = .ok t := by
  cases r with
  | error e => exact nomatch h
  | ok u => simp only [finish, Host.Outcome.next.injEq] at h; rw [h]

end Sys2Proof.Machine
end

