-- ==== Sys2Proof/Laws/Locate.lean ====
section
/-!
SUPPORT. What `locate` and `locatePair` can answer (spec/20_memory.md R82-R85, R97): the keys stay within their memories, a 10-bit
address finds no fixed word, the two words of a pair share no state.
-/

namespace Sys2Proof.Machine

/-- Addresses are found through EB, FB and the superbank bit only. -/
theorem locate_congr {s t : State} (heb : t.eb = s.eb) (hfb : t.fb = s.fb) (hch : t.channels.read 7 = s.channels.read 7) (k : Addr) :
    locate t k = locate s k := by
  unfold locate locateSwitchedErasable locateSwitchedFixed superbank
  rw [heb, hfb, hch]

theorem toNat_erasableAddr (k : EAddr) : (erasableAddr k).toNat = k.toNat := by
  have := k.isLt
  simp only [erasableAddr, BitVec.toNat_setWidth]
  omega

/-- The five regions of the address space, each with all it can answer. -/
theorem locate_cases {s : State} {k : Addr} {p : Place} (h : locate s k = .ok p) :
    (k.toNat < 0o10 ∧ p = centralPlace k.toNat) ∨
    (0o10 ≤ k.toNat ∧ k.toNat < 0o1400 ∧ p = .core k.toNat) ∨
    (0o1400 ≤ k.toNat ∧ k.toNat < 0o2000 ∧ ¬(s.eb = 0 ∧ k.toNat ≤ 0o1460) ∧
      p = .core (s.eb.toNat * 0o400 + (k.toNat - 0o1400))) ∨
    (0o2000 ≤ k.toNat ∧ k.toNat < 0o4000 ∧
      ∃ bank, (bank = s.fb.toNat ∨ (bank = s.fb.toNat + 0o10 ∧ s.fb.toNat ≤ 0o33)) ∧
        p = .fixed (bank * 0o2000 + (k.toNat - 0o2000))) ∨
    (0o4000 ≤ k.toNat ∧ p = .fixed k.toNat) := by
  unfold locate at h
  simp only at h
  split at h
  · rename_i hk
    injection h with h
    exact .inl ⟨hk, h.symm⟩
  split at h
  · rename_i hlo hk
    injection h with h
    exact .inr (.inl ⟨by omega, hk, h.symm⟩)
  split at h
  · rename_i hlo hk
    unfold locateSwitchedErasable at h
    split at h
    · exact absurd h (by simp)
    · rename_i hr
      injection h with h
      refine .inr (.inr (.inl ⟨by omega, hk, ?_, h.symm⟩))
      rintro ⟨he, hn⟩
      apply hr
      simp only [he, Bool.and_eq_true, beq_self_eq_true, decide_eq_true_eq, true_and]
      omega
  split at h
  · rename_i hlo hk
    refine .inr (.inr (.inr (.inl ⟨by omega, hk, ?_⟩)))
    unfold locateSwitchedFixed at h
    dsimp only at h
    split at h
    · injection h with h
      exact ⟨_, .inl rfl, h.symm⟩
    split at h
    · rename_i hf
      injection h with h
      exact ⟨_, .inr ⟨rfl, hf⟩, h.symm⟩
    · exact absurd h (by simp)
  · rename_i hk
    injection h with h
    refine .inr (.inr (.inr (.inr ⟨by omega, ?_⟩)))
    have hkey : fixedKey (k.toNat / 0o2000) (k.toNat % 0o2000) = k.toNat := by unfold fixedKey; omega
    rw [← h, hkey]

theorem centralPlace_eq {n : Nat} (h : n < 8) :
    (n = 0 ∧ centralPlace n = .a) ∨ (n = 1 ∧ centralPlace n = .l) ∨ (n = 2 ∧ centralPlace n = .q) ∨
    (n = 3 ∧ centralPlace n = .eb) ∨ (n = 4 ∧ centralPlace n = .fb) ∨ (n = 5 ∧ centralPlace n = .z) ∨
    (n = 6 ∧ centralPlace n = .bb) ∨ (n = 7 ∧ centralPlace n = .zero) := by
  interval_cases n <;> decide

/-- The key of a located word of erasable core is a key of core (R36, R83). -/
theorem erasableKey_of_locate {s : State} {k : Addr} {i : Nat} (h : locate s k = .ok (.core i)) : erasableKey i = true := by
  have he := s.eb.isLt
  simp only [erasableKey, Bool.and_eq_true, decide_eq_true_eq]
  rcases locate_cases h with ⟨hk, hp⟩ | ⟨h1, h2, hp⟩ | ⟨h1, h2, h3, hp⟩ | ⟨h1, h2, b, hb, hp⟩ | ⟨h1, hp⟩
  · rcases centralPlace_eq hk with ⟨_, hc⟩ | ⟨_, hc⟩ | ⟨_, hc⟩ | ⟨_, hc⟩ | ⟨_, hc⟩ | ⟨_, hc⟩ | ⟨_, hc⟩ | ⟨_, hc⟩ <;>
      exact absurd (hp.trans hc) (by simp)
  · injection hp with hp; omega
  · injection hp with hp
    have hz : s.eb.toNat = 0 → s.eb = 0 := fun h => BitVec.eq_of_toNat_eq (by simpa using h)
    by_cases hz' : s.eb.toNat = 0
    · have : ¬k.toNat ≤ 0o1460 := fun hn => h3 ⟨hz hz', hn⟩
      omega
    · omega
  · exact absurd hp (by simp)
  · exact absurd hp (by simp)

/-- Which address each central register is found at (R28). -/
theorem address_of_register {s : State} {k : Addr} {p : Place} (h : locate s k = .ok p) :
    (p = .a → k.toNat = 0) ∧ (p = .l → k.toNat = 1) ∧ (p = .q → k.toNat = 2) ∧ (p = .eb → k.toNat = 3) ∧
    (p = .fb → k.toNat = 4) ∧ (p = .z → k.toNat = 5) ∧ (p = .bb → k.toNat = 6) ∧ (p = .zero → k.toNat = 7) := by
  rcases locate_cases h with ⟨hk, hp⟩ | ⟨h1, h2, hp⟩ | ⟨h1, h2, h3, hp⟩ | ⟨h1, h2, b, hb, hp⟩ | ⟨h1, hp⟩
  · rcases centralPlace_eq hk with ⟨hn, hc⟩ | ⟨hn, hc⟩ | ⟨hn, hc⟩ | ⟨hn, hc⟩ | ⟨hn, hc⟩ | ⟨hn, hc⟩ | ⟨hn, hc⟩ | ⟨hn, hc⟩ <;>
      rw [hc] at hp <;> simp [hp, hn]
  all_goals simp [hp]

/-- All a pair can be: two located words, the less significant one at the field, the other one before it (R97). -/
theorem locatePair_cases {s : State} {f : Addr} {lo hi : Place} (h : locatePair s f = .ok (lo, hi)) :
    f ≠ 0 ∧ locate s f = .ok lo ∧ locate s (f - 1) = .ok hi := by
  unfold locatePair at h
  split at h
  · exact absurd h (by simp)
  · rename_i hf
    cases hlo : locate s f with
    | error e => rw [hlo] at h; exact absurd h (by simp)
    | ok p =>
      cases hhi : locate s (f - 1) with
      | error e => rw [hlo, hhi] at h; exact absurd h (by simp)
      | ok p2 =>
        rw [hlo, hhi] at h
        injection h with h
        injection h with h1 h2
        exact ⟨by simpa using hf, by rw [h1], by rw [h2]⟩

theorem toNat_sub_one {f : Addr} (h : f ≠ 0) : (f - 1).toNat = f.toNat - 1 := by
  have hn : f.toNat ≠ 0 := fun e => h (BitVec.eq_of_toNat_eq (by simpa using e))
  have := f.isLt
  rw [BitVec.toNat_sub]
  simp
  omega

/-- The two words of a pair share no state. -/
theorem locatePair_apart {s : State} {f : Addr} {lo hi : Place} (h : locatePair s f = .ok (lo, hi)) :
    lo.sharesState hi = false := by
  obtain ⟨hf, hlo, hhi⟩ := locatePair_cases h
  have hn := toNat_sub_one hf
  have h0 : f.toNat ≠ 0 := fun e => hf (BitVec.eq_of_toNat_eq (by simpa using e))
  have he := s.eb.isLt
  by_cases hk : f.toNat < 8
  · have hp : lo = centralPlace f.toNat := by
      rcases locate_cases hlo with ⟨_, hp⟩ | ⟨h1, _⟩ | ⟨h1, _⟩ | ⟨h1, _⟩ | ⟨h1, _⟩ <;> first | exact hp | omega
    have gp : hi = centralPlace (f.toNat - 1) := by
      rw [← hn]
      rcases locate_cases hhi with ⟨_, gp⟩ | ⟨h1, _⟩ | ⟨h1, _⟩ | ⟨h1, _⟩ | ⟨h1, _⟩ <;> first | exact gp | omega
    subst hp gp
    generalize f.toNat = n at hk h0
    interval_cases n <;> first | rfl | exact absurd rfl h0
  · have key : ∀ {k : Addr} {p : Place}, locate s k = .ok p → 8 ≤ k.toNat →
        (∃ i, p = .core i ∧ k.toNat < 0o2000 ∧ (i = k.toNat ∧ k.toNat < 0o1400 ∨
          0o1400 ≤ k.toNat ∧ i = s.eb.toNat * 0o400 + (k.toNat - 0o1400))) ∨
        (∃ i, p = .fixed i ∧ 0o2000 ≤ k.toNat ∧ (i = k.toNat ∧ 0o4000 ≤ k.toNat ∨
          k.toNat < 0o4000 ∧ ∃ b, i = b * 0o2000 + (k.toNat - 0o2000))) := by
      intro k p h hk
      rcases locate_cases h with ⟨h1, hp⟩ | ⟨h1, h2, hp⟩ | ⟨h1, h2, h3, hp⟩ | ⟨h1, h2, b, hb, hp⟩ | ⟨h1, hp⟩
      · omega
      · exact .inl ⟨_, hp, by omega, .inl ⟨rfl, h2⟩⟩
      · exact .inl ⟨_, hp, h2, .inr ⟨h1, rfl⟩⟩
      · exact .inr ⟨_, hp, h1, .inr ⟨h2, b, rfl⟩⟩
      · exact .inr ⟨_, hp, by omega, .inl ⟨rfl, h1⟩⟩
    by_cases gk : (f - 1).toNat < 8
    · have gp : hi = centralPlace 7 := by
        rcases locate_cases hhi with ⟨_, gp⟩ | ⟨h1, _⟩ | ⟨h1, _⟩ | ⟨h1, _⟩ | ⟨h1, _⟩ <;> first | omega | skip
        rw [gp, show (f - 1).toNat = 7 by omega]
      rcases key hlo (by omega) with ⟨i, hp, _⟩ | ⟨i, hp, _⟩ <;> rw [hp, gp] <;> rfl
    · rcases key hlo (by omega) with ⟨i, hp, h1, h2⟩ | ⟨i, hp, h1, h2⟩ <;>
      rcases key hhi (by omega) with ⟨j, gp, g1, g2⟩ | ⟨j, gp, g1, g2⟩ <;> rw [hp, gp]
      · have : i ≠ j := by omega
        simpa [Place.sharesState] using this
      · rfl
      · rfl
      · have : i ≠ j := by
          rcases h2 with ⟨_, _⟩ | ⟨_, b, _⟩ <;> rcases g2 with ⟨_, _⟩ | ⟨_, c, _⟩ <;> omega
        simpa [Place.sharesState] using this

end Sys2Proof.Machine
end

