-- ==== Sys2Proof/Laws/Coherent.lean ====
section
/-!
SUPPORT. The shared operations keep a state coherent (Safety.lean `Coherent`): one lemma per operation.
-/

namespace Sys2Proof.Machine

/-- Coherence rests on the three memories and four pieces of hidden state only. -/
theorem Coherent.congr {s t : State} (h : Coherent s) (he : t.erasable = s.erasable) (hf : t.fixed = s.fixed)
    (hc : t.channels = s.channels) (hx : t.extracode = s.extracode) (hp : t.indexPending = s.indexPending)
    (hv : t.indexValue = s.indexValue) (hs : t.substitute = s.substitute) : Coherent t := by
  obtain ⟨h1, h2, h3, h4, h5, h6, h7, h8, h9⟩ := h
  exact ⟨by rwa [he], by rwa [hf], by rwa [hc], by rwa [he], by rwa [hf], by rwa [hc], by rwa [hc], by rwa [hp, hv],
    by rwa [hs, hx, hp]⟩

theorem Coherent.setA {s : State} (h : Coherent s) (v : Wide) : Coherent (s.setA v) := h.congr rfl rfl rfl rfl rfl rfl rfl
theorem Coherent.setL {s : State} (h : Coherent s) (v : Wide) : Coherent (s.setL v) := h.congr rfl rfl rfl rfl rfl rfl rfl
theorem Coherent.setQ {s : State} (h : Coherent s) (v : Wide) : Coherent (s.setQ v) := h.congr rfl rfl rfl rfl rfl rfl rfl
theorem Coherent.setZ {s : State} (h : Coherent s) (v : Addr) : Coherent (s.setZ v) := h.congr rfl rfl rfl rfl rfl rfl rfl
theorem Coherent.setReq {s : State} (h : Coherent s) (v : Requests) : Coherent (s.setReq v) := h.congr rfl rfl rfl rfl rfl rfl rfl
theorem Coherent.setInIsr {s : State} (h : Coherent s) (v : Bool) : Coherent (s.setInIsr v) := h.congr rfl rfl rfl rfl rfl rfl rfl
theorem Coherent.setInhibit {s : State} (h : Coherent s) (v : Bool) : Coherent (s.setInhibit v) :=
  h.congr rfl rfl rfl rfl rfl rfl rfl
theorem Coherent.setDraws {s : State} (h : Coherent s) (v : Nat) : Coherent (s.setDraws v) := h.congr rfl rfl rfl rfl rfl rfl rfl
theorem Coherent.setSchedule {s : State} (h : Coherent s) (v : List (List EnvAction)) : Coherent (s.setSchedule v) :=
  h.congr rfl rfl rfl rfl rfl rfl rfl

/-- A word written at a key of erasable core. -/
theorem Coherent.setCore {s : State} (h : Coherent s) {i : Nat} (hi : erasableKey i = true) (w : Word) :
    Coherent (setCore s i w) :=
  { h with
    erasable_wf := Memory.wf_write h.erasable_wf i w
    erasable_keys := Memory.keysSatisfy_write h.erasable_keys hi w }

/-- A word written at a channel that has storage, masked where it is channel 7. -/
theorem Coherent.setChannelWord {s : State} (h : Coherent s) {c : Nat} (hc : channelKey c = true) {w : Word}
    (hw : c = 7 → w &&& 0o160 = w) : Coherent (setChannelWord s c w) :=
  { h with
    channels_wf := Memory.wf_write h.channels_wf c w
    channels_keys := Memory.keysSatisfy_write h.channels_keys hc w
    superbank_bits := by
      show (s.channels.write c w).read 7 &&& 0o160 = (s.channels.write c w).read 7
      rw [Memory.read_write h.channels_wf]
      split
      · rename_i h7; exact hw h7.symm
      · exact h.superbank_bits }

/-- `Write15` at a place that can be written: not at a key outside core. -/
theorem Coherent.putWord {s : State} (h : Coherent s) {p : Place} (hp : ∀ i, p = .core i → erasableKey i = true) (w : Word) :
    Coherent (putWord s p w) := by
  cases p with
  | core i => exact h.setCore (hp i rfl) _
  | _ => exact h.congr rfl rfl rfl rfl rfl rfl rfl

/-- `Wr16` at such a place. -/
theorem Coherent.putWide {s : State} (h : Coherent s) {p : Place} (hp : ∀ i, p = .core i → erasableKey i = true) (v : Wide) :
    Coherent (putWide s p v) := by
  cases p with
  | a => exact h.setA v
  | l => exact h.setL v
  | q => exact h.setQ v
  | _ => exact h.putWord hp (ovc v)

/-- `Rewrite` at such a place. -/
theorem Coherent.rewrite {s : State} (h : Coherent s) {p : Place} (hp : ∀ i, p = .core i → erasableKey i = true) :
    Coherent (rewrite s p) := by
  cases p with
  | a | l | q | fixed i | zero => exact h
  | eb | fb | z | bb | core i => exact h.putWord hp _

/-- A place that `locate` finds can be written. -/
theorem writable_of_locate {s : State} {k : Addr} {p : Place} (h : locate s k = .ok p) :
    ∀ i, p = .core i → erasableKey i = true := by
  rintro i rfl
  exact erasableKey_of_locate h

theorem Coherent.requestInterrupt {s : State} (h : Coherent s) (n : Rupt) : Coherent (requestInterrupt n s) := h.setReq _

theorem Coherent.counterOverflow {s : State} (h : Coherent s) (i : Nat) : Coherent (counterOverflow i s) := by
  unfold Sys2Proof.Machine.counterOverflow
  repeat' split
  · exact h.setCore (by decide) _
  all_goals first | exact h.requestInterrupt _ | exact h

theorem Coherent.instructionOverflow {s : State} (h : Coherent s) (i : Nat) : Coherent (instructionOverflow i s) := by
  unfold Sys2Proof.Machine.instructionOverflow
  split
  · exact h
  · exact h.counterOverflow i

theorem Coherent.pinc {s : State} (h : Coherent s) {i : Nat} (hi : erasableKey i = true) : Coherent (pinc i s) := by
  unfold Sys2Proof.Machine.pinc
  split
  · exact (h.setCore hi _).counterOverflow i
  · exact h.setCore hi _

theorem Coherent.time6Zero {s : State} (h : Coherent s) : Coherent (time6Zero s) :=
  (h.requestInterrupt .t6rupt).setChannelWord (by decide) (fun e => absurd e (by decide))

theorem Coherent.dinc {s : State} (h : Coherent s) : Coherent (dinc s) := by
  unfold Sys2Proof.Machine.dinc
  dsimp only
  repeat' split
  · exact (h.setCore (by decide) _).time6Zero
  · exact h.setCore (by decide) _
  · exact h

theorem Coherent.shiftCounter {s : State} (h : Coherent s) (c : ShiftCounter) (b : Word) : Coherent (shiftCounter c b s) := by
  have hs := h.setCore (i := shiftAddress c) (by cases c <;> decide)
    (s.erasable.read (shiftAddress c) + s.erasable.read (shiftAddress c) + b)
  unfold Sys2Proof.Machine.shiftCounter
  dsimp only
  split
  · exact hs.requestInterrupt _
  · exact hs

theorem Coherent.goj {s : State} (h : Coherent s) (inhibit : Bool) (req : Requests) : Coherent (goj inhibit req s) :=
  { h with index_value := fun _ => rfl, substitute_plain := fun e => absurd e Bool.false_ne_true }

theorem Coherent.scalerTick {s : State} (h : Coherent s) : Coherent (scalerTick s) := by
  have h4 := h.setChannelWord (c := 4) (by decide) (w := pincWord (s.channels.read 4)) (fun e => absurd e (by decide))
  unfold Sys2Proof.Machine.scalerTick
  dsimp only
  split
  · exact h4.setChannelWord (by decide) (fun e => absurd e (by decide))
  · exact h4

/-- A channel the environment may change has storage, and it is not channel 7. -/
theorem channelKey_of_environmentChannel {c : Chan} (h : environmentChannel c = true) : channelKey c.toNat = true ∧ c.toNat ≠ 7 := by
  have hc := c.isLt
  have ne : ∀ n : Nat, n < 512 → c ≠ BitVec.ofNat 9 n → c.toNat ≠ n := fun n hn hne e =>
    hne (BitVec.eq_of_toNat_eq (by rw [e, BitVec.toNat_ofNat, Nat.mod_eq_of_lt hn]))
  simp only [environmentChannel, Bool.not_eq_true', Bool.or_eq_false_iff, beq_eq_false_iff_ne] at h
  have h1 := ne 1 (by decide) h.1.1.1.1.1.1.1.1
  have h2 := ne 2 (by decide) h.1.1.1.1.1.1.1.2
  have h7 := ne 7 (by decide) h.1.1.1.1.2
  refine ⟨?_, h7⟩
  simp only [channelKey, Bool.and_eq_true, decide_eq_true_eq, Bool.not_eq_true', beq_eq_false_iff_ne]
  exact ⟨⟨hc, h1⟩, h2⟩

/-- Every action of the environment. -/
theorem Coherent.applyAction {s : State} (h : Coherent s) (e : EnvAction) : Coherent (applyAction e s) := by
  cases e with
  | pincTime c => exact h.pinc (by cases c <;> decide)
  | pincPulse c =>
    simp only [Sys2Proof.Machine.applyAction]
    split
    · exact h.pinc (by cases c <;> decide)
    · exact h
  | minc c =>
    simp only [Sys2Proof.Machine.applyAction]
    split
    · exact h.setCore (by cases c <;> decide) _
    · exact h
  | pcdu c => exact h.setCore (by cases c <;> decide) _
  | mcdu c => exact h.setCore (by cases c <;> decide) _
  | dinc => exact h.dinc
  | shinc c => exact h.shiftCounter c 0
  | shanc c => exact h.shiftCounter c 1
  | goj inhibit req => exact h.goj inhibit req
  | uplinkWord w => exact (h.setCore (by decide) w).requestInterrupt _
  | rhcDeposit c w outOfDetent =>
    have hs := h.setCore (i := rhcAddress c) (by cases c <;> decide) w
    simp only [Sys2Proof.Machine.applyAction]
    repeat' split
    · exact hs.setChannelWord (by decide) (fun e => absurd e (by decide))
    · exact hs
    · exact h
  | gyroDrain left =>
    simp only [Sys2Proof.Machine.applyAction]
    split
    · exact h.setCore (by decide) _
    · exact h
  | cduCmdDrain axis zeroed =>
    simp only [Sys2Proof.Machine.applyAction]
    split
    · exact h.setCore (by cases axis <;> decide) _
    · exact h
  | scalerTick => exact h.scalerTick
  | setChannel c w =>
    simp only [Sys2Proof.Machine.applyAction]
    split
    · rename_i hc
      have hk := channelKey_of_environmentChannel hc
      exact h.setChannelWord hk.1 (fun h7 => absurd h7 hk.2)
    · exact h
  | keystroke1 | keystroke2 | downlinkReady | rupt10Event => exact h.requestInterrupt _

theorem Coherent.applyActions {s : State} (h : Coherent s) (es : List EnvAction) : Coherent (applyActions es s) := by
  induction es generalizing s with
  | nil => exact h
  | cons e rest ih => exact ih (h.applyAction e)

/-- `ChWrite16` where it is not refused. -/
theorem Coherent.chWrite {s t : State} (h : Coherent s) {c : Chan} {v : Wide} (hw : chWrite s c v = .ok t) : Coherent t := by
  unfold Sys2Proof.Machine.chWrite at hw
  split at hw
  · injection hw with hw; exact hw ▸ h.setL v
  split at hw
  · injection hw with hw; exact hw ▸ h.setQ v
  split at hw
  · exact absurd hw (by simp)
  · rename_i h1 h2 _
    injection hw with hw
    rw [← hw]
    refine h.setChannelWord ?_ ?_
    · have hc := c.isLt
      simp only [channelKey, Bool.and_eq_true, decide_eq_true_eq, Bool.not_eq_true', beq_eq_false_iff_ne]
      exact ⟨⟨hc, fun e => h1 (BitVec.eq_of_toNat_eq e)⟩, fun e => h2 (BitVec.eq_of_toNat_eq e)⟩
    · intro h7
      have hc : c = 7 := BitVec.eq_of_toNat_eq h7
      simp only [channelMask, if_pos hc, BitVec.and_assoc, BitVec.and_self]

/-- Interrupt entry where it does not stop. -/
theorem Coherent.enterInterrupt {s t : State} (h : Coherent s) {n : Rupt} (ht : enterInterrupt n s = .ok t) : Coherent t := by
  have hp : ∀ j : Nat, erasableKey j = true → ∀ i, Place.core j = .core i → erasableKey i = true := by
    intro j hj i hi; injection hi with hi; exact hi ▸ hj
  unfold Sys2Proof.Machine.enterInterrupt at ht
  dsimp only at ht
  split at ht
  · exact absurd ht (by simp)
  · injection ht with ht
    rw [← ht]
    exact ((((h.setReq _).putWord (hp 0o15 (by decide)) _).putWord (hp 0o17 (by decide)) _).setZ _).setInIsr _

end Sys2Proof.Machine
end

