-- ==== Sys2Proof/Laws/Decode.lean ====
section
/-! SUPPORT. What the fields of an assembled word are, and that a word is made of its fields (spec/30_encoding.md R121). -/

namespace Sys2Proof

/-! ### The fields and the assembled words as numbers -/

theorem toNat_word12 (c : BitVec 3) (k : Addr) : (word12 c k).toNat = 4096 * c.toNat + k.toNat := by
  simp only [word12, BitVec.toNat_append, Nat.shiftLeft_eq, Nat.mul_comm c.toNat, ← Nat.two_pow_add_eq_or_of_lt k.isLt]

theorem toNat_quarter (q : BitVec 2) (k : EAddr) : ((q ++ k : BitVec 12)).toNat = 1024 * q.toNat + k.toNat := by
  simp only [BitVec.toNat_append, Nat.shiftLeft_eq, Nat.mul_comm q.toNat, ← Nat.two_pow_add_eq_or_of_lt k.isLt]

theorem toNat_peripheral (p : BitVec 3) (kc : Chan) : ((p ++ kc : BitVec 12)).toNat = 512 * p.toNat + kc.toNat := by
  simp only [BitVec.toNat_append, Nat.shiftLeft_eq, Nat.mul_comm p.toNat, ← Nat.two_pow_add_eq_or_of_lt kc.isLt]

theorem toNat_word10 (c : BitVec 3) (q : BitVec 2) (k : EAddr) :
    (word10 c q k).toNat = 4096 * c.toNat + 1024 * q.toNat + k.toNat := by
  have h : word10 c q k = word12 c (q ++ k) := rfl
  rw [h, toNat_word12, toNat_quarter, Nat.add_assoc]

theorem toNat_wordIo (p : BitVec 3) (kc : Chan) : (wordIo p kc).toNat = 512 * p.toNat + kc.toNat := by
  have h : wordIo p kc = word12 0 (p ++ kc) := rfl
  rw [h, toNat_word12, toNat_peripheral]
  simp

theorem toNat_codeField (w : Word) : (codeField w).toNat = w.toNat / 4096 := by
  simp only [codeField, BitVec.extractLsb'_toNat, Nat.shiftRight_eq_div_pow]
  have := w.isLt
  omega

theorem toNat_qcField (w : Word) : (qcField w).toNat = w.toNat / 1024 % 4 := by
  simp only [qcField, BitVec.extractLsb'_toNat, Nat.shiftRight_eq_div_pow]

theorem toNat_pcField (w : Word) : (pcField w).toNat = w.toNat / 512 % 8 := by
  simp only [pcField, BitVec.extractLsb'_toNat, Nat.shiftRight_eq_div_pow]

theorem toNat_addr12 (w : Word) : (addr12 w).toNat = w.toNat % 4096 := by
  simp [addr12, BitVec.extractLsb'_toNat]

theorem toNat_addr10 (w : Word) : (addr10 w).toNat = w.toNat % 1024 := by
  simp [addr10, BitVec.extractLsb'_toNat]

theorem toNat_chanField (w : Word) : (chanField w).toNat = w.toNat % 512 := by
  simp [chanField, BitVec.extractLsb'_toNat]

/-! ### The fields of an assembled word -/

@[simp] theorem codeField_word12 (c : BitVec 3) (k : Addr) : codeField (word12 c k) = c := by
  apply BitVec.eq_of_toNat_eq
  have := k.isLt
  rw [toNat_codeField, toNat_word12]; omega

@[simp] theorem addr12_word12 (c : BitVec 3) (k : Addr) : addr12 (word12 c k) = k := by
  apply BitVec.eq_of_toNat_eq
  have := k.isLt
  rw [toNat_addr12, toNat_word12]; omega

@[simp] theorem codeField_word10 (c : BitVec 3) (q : BitVec 2) (k : EAddr) : codeField (word10 c q k) = c := by
  apply BitVec.eq_of_toNat_eq
  have := k.isLt
  have := q.isLt
  rw [toNat_codeField, toNat_word10]; omega

@[simp] theorem qcField_word10 (c : BitVec 3) (q : BitVec 2) (k : EAddr) : qcField (word10 c q k) = q := by
  apply BitVec.eq_of_toNat_eq
  have := k.isLt
  have := q.isLt
  rw [toNat_qcField, toNat_word10]; omega

@[simp] theorem addr10_word10 (c : BitVec 3) (q : BitVec 2) (k : EAddr) : addr10 (word10 c q k) = k := by
  apply BitVec.eq_of_toNat_eq
  have := k.isLt
  rw [toNat_addr10, toNat_word10]; omega

@[simp] theorem codeField_wordIo (p : BitVec 3) (kc : Chan) : codeField (wordIo p kc) = 0 := by
  apply BitVec.eq_of_toNat_eq
  have := p.isLt
  have := kc.isLt
  rw [toNat_codeField, toNat_wordIo]; simp; omega

@[simp] theorem pcField_wordIo (p : BitVec 3) (kc : Chan) : pcField (wordIo p kc) = p := by
  apply BitVec.eq_of_toNat_eq
  have := p.isLt
  have := kc.isLt
  rw [toNat_pcField, toNat_wordIo]; omega

@[simp] theorem chanField_wordIo (p : BitVec 3) (kc : Chan) : chanField (wordIo p kc) = kc := by
  apply BitVec.eq_of_toNat_eq
  have := kc.isLt
  rw [toNat_chanField, toNat_wordIo]; omega

/-- A 12-bit operand in fixed memory gives its word a quarter code that is not 0 (R124, R125). -/
theorem qcField_fixedAddress (c : BitVec 3) {k : Addr} (h : Instr.fixedAddress k = true) :
    (qcField (word12 c k) == 0) = false := by
  simp only [Instr.fixedAddress, decide_eq_true_eq] at h
  rw [beq_eq_false_iff_ne]
  intro hz
  have hn := congrArg BitVec.toNat hz
  rw [toNat_qcField, toNat_word12] at hn
  have := k.isLt
  simp at hn
  omega

/-! ### A word is made of its fields -/

theorem word12_fields (w : Word) : word12 (codeField w) (addr12 w) = w := by
  apply BitVec.eq_of_toNat_eq
  rw [toNat_word12, toNat_codeField, toNat_addr12]; omega

theorem word10_fields (w : Word) : word10 (codeField w) (qcField w) (addr10 w) = w := by
  apply BitVec.eq_of_toNat_eq
  rw [toNat_word10, toNat_codeField, toNat_qcField, toNat_addr10]; omega

theorem wordIo_fields {w : Word} (h : codeField w = 0) : wordIo (pcField w) (chanField w) = w := by
  apply BitVec.eq_of_toNat_eq
  have hn := congrArg BitVec.toNat h
  rw [toNat_codeField] at hn
  rw [toNat_wordIo, toNat_pcField, toNat_chanField]
  simp at hn
  omega

end Sys2Proof
end

