-- ==== Sys2Proof/Laws/Operations.lean ====
section
/-!
SUPPORT. All that the remaining shared operations can do: channel writes, interrupt entry, a counter's overflow, the exchanges, the
store of A. To be cited instead of unfolding the operation.
-/

namespace Sys2Proof.Machine

theorem Place.apartFrom_a {x : Place} (h : x ≠ .a) : x.apartFrom [.a] = true := by
  cases x <;> first | rfl | exact absurd rfl h

theorem Place.apartFrom_l {x : Place} (h : x ≠ .l) : x.apartFrom [.l] = true := by
  cases x <;> first | rfl | exact absurd rfl h

theorem Place.apartFrom_q {x : Place} (h : x ≠ .q) : x.apartFrom [.q] = true := by
  cases x <;> first | rfl | exact absurd rfl h

theorem Place.apartFrom_z {x : Place} (h : x ≠ .z) : x.apartFrom [.z] = true := by
  cases x <;> first | rfl | exact absurd rfl h

theorem Place.sharesState_symm {x y : Place} (h : x.sharesState y = false) : y.sharesState x = false := by
  cases x <;> cases y <;> first
    | exact h
    | (simp only [Place.sharesState, beq_eq_false_iff_ne] at *; exact fun e => h e.symm)

theorem Place.apartFrom_of_not_shares {x y : Place} (h : x.sharesState y = false) : y.apartFrom [x] = true := by
  simp [Place.apartFrom, h]

@[simp] theorem locate_setErasable (s : State) (m : Memory) (k : Addr) : locate (s.setErasable m) k = locate s k :=
  locate_congr rfl rfl rfl k

@[simp] theorem locate_setReq (s : State) (r : Requests) (k : Addr) : locate (s.setReq r) k = locate s k :=
  locate_congr rfl rfl rfl k

/-- All `ChWrite16` can do where it is not refused (R322). -/
theorem chWrite_cases {s t : State} {c : Chan} {v : Wide} (h : chWrite s c v = .ok t) :
    (c = 1 ∧ t = s.setL v) ∨ (c = 2 ∧ t = s.setQ v) ∨
      (c ≠ 1 ∧ c ≠ 2 ∧ c ≠ 3 ∧ c ≠ 4 ∧ t = s.setChannels (s.channels.write c.toNat (channelMask c (ovc v)))) := by
  unfold chWrite at h
  split at h
  · rename_i h1; injection h with h; exact .inl ⟨h1, h.symm⟩
  split at h
  · rename_i h2; injection h with h; exact .inr (.inl ⟨h2, h.symm⟩)
  split at h
  · exact absurd h (by simp)
  · rename_i h1 h2 h34
    injection h with h
    exact .inr (.inr ⟨h1, h2, fun e => h34 (.inl e), fun e => h34 (.inr e), h.symm⟩)

/-- All interrupt entry can do where it does not stop (R387). -/
theorem enterInterrupt_cases {n : Rupt} {s t : State} (h : enterInterrupt n s = .ok t) :
    ∃ p, locate s s.z = .ok p ∧
      t = ((putWord (putWord (s.setReq (s.req.put n false)) (.core 0o15) (zWord s.z)) (.core 0o17)
        (getWord (putWord (s.setReq (s.req.put n false)) (.core 0o15) (zWord s.z)) p)).setZ (vector n)).setInIsr true := by
  unfold enterInterrupt at h
  dsimp only [putWord, setErasable_z, setReq_z] at h
  rw [locate_setErasable, locate_setReq] at h
  cases hl : locate s s.z with
  | error e => rw [hl] at h; exact absurd h (by simp)
  | ok p => rw [hl] at h; injection h with h; exact ⟨p, rfl, h.symm⟩

/-- All a counter's overflow can do (R352). -/
theorem counterOverflow_cases (i : Nat) (s : State) :
    (i = 0o25 ∧ counterOverflow i s = setCore s 0o24 (pincWord (s.erasable.read 0o24))) ∨
    (∃ n, (i, n) ∈ [(0o26, Rupt.t3rupt), (0o27, .t4rupt), (0o30, .t5rupt), (0o31, .t6rupt)] ∧
      counterOverflow i s = requestInterrupt n s) ∨
    ((i < 0o25 ∨ 0o31 < i) ∧ counterOverflow i s = s) := by
  unfold counterOverflow
  split
  · rename_i h; exact .inl ⟨h, rfl⟩
  split
  · rename_i h; exact .inr (.inl ⟨.t3rupt, by simp [h], rfl⟩)
  split
  · rename_i h; exact .inr (.inl ⟨.t4rupt, by simp [h], rfl⟩)
  split
  · rename_i h; exact .inr (.inl ⟨.t5rupt, by simp [h], rfl⟩)
  split
  · rename_i h; exact .inr (.inl ⟨.t6rupt, by simp [h], rfl⟩)
  · exact .inr (.inr ⟨by omega, rfl⟩)

/-- All that the overflow of a word can do when INCR or AUG causes it (R352, decision D32). -/
theorem instructionOverflow_cases (i : Nat) (s : State) :
    (∃ n, (i, n) ∈ [(0o26, Rupt.t3rupt), (0o27, .t4rupt), (0o30, .t5rupt), (0o31, .t6rupt)] ∧
      instructionOverflow i s = requestInterrupt n s) ∨
    ((i < 0o26 ∨ 0o31 < i) ∧ instructionOverflow i s = s) := by
  unfold instructionOverflow
  split
  · exact .inr ⟨by omega, rfl⟩
  · rcases counterOverflow_cases i s with ⟨h, -⟩ | h | ⟨h, h'⟩
    · contradiction
    · exact .inl h
    · exact .inr ⟨by omega, h'⟩

/-- When the hand controller may change its count (R59, R386). -/
theorem rhcCounts_iff (s : State) {i : Nat} (h : i = 0o42 ∨ i = 0o43 ∨ i = 0o44) :
    rhcCounts s i = true ↔
      s.vehicle = .lm ∧ (s.channels.read 0o13).getLsbD 7 = true ∧ (s.channels.read 0o13).getLsbD 8 = true := by
  rcases h with rfl | rfl | rfl <;> simp [rhcCounts, registerPresent, rhcEnabled]

theorem unchangedBut_exchangeA (s : State) (p : Place) : UnchangedBut [p, .a] s (exchangeA s p) := by
  have h := unchangedBut_putWide s p s.a
  unfold exchangeA
  dsimp only
  split
  · exact h.mono (by simp)
  · exact h.trans (unchangedBut_setA _ _)

theorem unchangedBut_exchangeL (s : State) (p : Place) : UnchangedBut [p, .l] s (exchangeL s p) := by
  have h := unchangedBut_putWide s p s.l
  unfold exchangeL
  dsimp only
  split
  · exact h.mono (by simp)
  · exact h.trans (unchangedBut_setL _ _)

theorem unchangedBut_exchangeQ (s : State) (p : Place) : UnchangedBut [p, .q] s (exchangeQ s p) := by
  have h := unchangedBut_putWide s p s.q
  unfold exchangeQ
  dsimp only
  split
  · exact h.mono (by simp)
  · exact h.trans (unchangedBut_setQ _ _)

theorem unchangedBut_exchangePair (s : State) (lo hi : Place) : UnchangedBut [lo, .l, hi, .a, .l] s (exchangePair s lo hi) :=
  ((unchangedBut_exchangeL s lo).trans (unchangedBut_exchangeA _ hi)).trans (unchangedBut_setL _ _)

theorem unchangedBut_storeA (s : State) (p : Place) : UnchangedBut [p, .a, .z] s (storeA s p) := by
  have h := unchangedBut_putWide s p s.a
  unfold storeA
  dsimp only
  split
  · exact h.trans ((unchangedBut_setA _ _).trans (unchangedBut_setZ _ _))
  · exact h.mono (by simp)

end Sys2Proof.Machine
end

