-- ==== Sys2Proof/Laws/PerInstr.lean ====
section
/-!
SUPPORT. Facts stated per instruction: the round trip of the encoding. The lemmas of the family RoundTrip are proved here, one per
constructor of Instr.
-/

namespace Sys2Proof.Laws

/-- Decoding the word of a well-formed instruction, with the Extracode flag it needs and in a word that may hold it, gives the
instruction back; the fixed-memory NOOP is read as the TCF to the next word that it is (spec/30_encoding.md R122-R127, R141). -/
def RoundTrip.Statement (i : Instr) : Prop :=
  ∀ (next : Addr) (indexed : Bool), i.wellFormed = true → i.readableWhen indexed = true →
    (i = .noopFixed → Instr.fixedAddress next = true) →
    decode i.isExtracode indexed (encode next i) = if i = .noopFixed then .tcf next else i

theorem RoundTrip.tc (k : Addr) : RoundTrip.Statement (.tc k) := by
  intro next indexed hw hr _
  simp only [Instr.wellFormed, Instr.readableWhen] at hw hr
  cases indexed <;> simp_all [encode, decode, Instr.isExtracode, decodeBasic, decodeTc]

theorem RoundTrip.xxalq : RoundTrip.Statement .xxalq := by
  intro next indexed _ _ _
  simp [encode, decode, Instr.isExtracode, decodeBasic, decodeTc]

theorem RoundTrip.xlq : RoundTrip.Statement .xlq := by
  intro next indexed _ _ _
  simp [encode, decode, Instr.isExtracode, decodeBasic, decodeTc]

theorem RoundTrip.ret : RoundTrip.Statement .ret := by
  intro next indexed _ _ _
  simp [encode, decode, Instr.isExtracode, decodeBasic, decodeTc]

theorem RoundTrip.relint : RoundTrip.Statement .relint := by
  intro next indexed _ hr _
  simp_all [encode, decode, Instr.isExtracode, decodeBasic, decodeTc, Instr.readableWhen]

theorem RoundTrip.inhint : RoundTrip.Statement .inhint := by
  intro next indexed _ hr _
  simp_all [encode, decode, Instr.isExtracode, decodeBasic, decodeTc, Instr.readableWhen]

theorem RoundTrip.extend : RoundTrip.Statement .extend := by
  intro next indexed _ hr _
  simp_all [encode, decode, Instr.isExtracode, decodeBasic, decodeTc, Instr.readableWhen]

theorem RoundTrip.ccs (k : EAddr) : RoundTrip.Statement (.ccs k) := by
  intro next indexed _ _ _
  simp [encode, decode, Instr.isExtracode, decodeBasic]

theorem RoundTrip.tcf (k : Addr) : RoundTrip.Statement (.tcf k) := by
  intro next indexed hw _ _
  have hq : ∀ c, ¬qcField (word12 c k) = 0#2 := fun c => by simpa using qcField_fixedAddress c hw
  simp [encode, decode, Instr.isExtracode, decodeBasic, hq]

theorem RoundTrip.noopFixed : RoundTrip.Statement .noopFixed := by
  intro next indexed _ _ hf
  have hq : ∀ c, ¬qcField (word12 c next) = 0#2 := fun c => by simpa using qcField_fixedAddress c (hf rfl)
  simp [encode, decode, Instr.isExtracode, decodeBasic, hq]

theorem RoundTrip.das (f : EAddr) : RoundTrip.Statement (.das f) := by
  intro next indexed hw _ _
  simp_all [encode, decode, Instr.isExtracode, decodeBasic, decodeBasic2, Instr.wellFormed]

theorem RoundTrip.ddoubl : RoundTrip.Statement .ddoubl := by
  intro next indexed _ _ _
  simp [encode, decode, Instr.isExtracode, decodeBasic, decodeBasic2]

theorem RoundTrip.lxch (k : EAddr) : RoundTrip.Statement (.lxch k) := by
  intro next indexed hw _ _
  simp_all [encode, decode, Instr.isExtracode, decodeBasic, decodeBasic2, Instr.wellFormed]

theorem RoundTrip.zl : RoundTrip.Statement .zl := by
  intro next indexed _ _ _
  simp [encode, decode, Instr.isExtracode, decodeBasic, decodeBasic2]

theorem RoundTrip.incr (k : EAddr) : RoundTrip.Statement (.incr k) := by
  intro next indexed _ _ _
  simp [encode, decode, Instr.isExtracode, decodeBasic, decodeBasic2]

theorem RoundTrip.ads (k : EAddr) : RoundTrip.Statement (.ads k) := by
  intro next indexed _ _ _
  simp [encode, decode, Instr.isExtracode, decodeBasic, decodeBasic2]

theorem RoundTrip.ca (k : Addr) : RoundTrip.Statement (.ca k) := by
  intro next indexed hw _ _
  simp_all [encode, decode, Instr.isExtracode, decodeBasic, Instr.wellFormed]

theorem RoundTrip.noopErasable : RoundTrip.Statement .noopErasable := by
  intro next indexed _ _ _
  simp [encode, decode, Instr.isExtracode, decodeBasic]

theorem RoundTrip.cs (k : Addr) : RoundTrip.Statement (.cs k) := by
  intro next indexed hw _ _
  simp_all [encode, decode, Instr.isExtracode, decodeBasic, Instr.wellFormed]

theorem RoundTrip.com : RoundTrip.Statement .com := by
  intro next indexed _ _ _
  simp [encode, decode, Instr.isExtracode, decodeBasic]

theorem RoundTrip.index (k : EAddr) : RoundTrip.Statement (.index k) := by
  intro next indexed _ hr _
  simp only [Instr.readableWhen] at hr
  cases indexed <;> simp_all [encode, decode, Instr.isExtracode, decodeBasic, decodeBasic5]

theorem RoundTrip.resume : RoundTrip.Statement .resume := by
  intro next indexed _ hr _
  simp_all [encode, decode, Instr.isExtracode, decodeBasic, decodeBasic5, Instr.readableWhen]

theorem RoundTrip.dxch (f : EAddr) : RoundTrip.Statement (.dxch f) := by
  intro next indexed hw _ _
  simp_all [encode, decode, Instr.isExtracode, decodeBasic, decodeBasic5, Instr.wellFormed]

theorem RoundTrip.dtcf : RoundTrip.Statement .dtcf := by
  intro next indexed _ _ _
  simp [encode, decode, Instr.isExtracode, decodeBasic, decodeBasic5]

theorem RoundTrip.dtcb : RoundTrip.Statement .dtcb := by
  intro next indexed _ _ _
  simp [encode, decode, Instr.isExtracode, decodeBasic, decodeBasic5]

theorem RoundTrip.ts (k : EAddr) : RoundTrip.Statement (.ts k) := by
  intro next indexed hw _ _
  simp_all [encode, decode, Instr.isExtracode, decodeBasic, decodeBasic5, Instr.wellFormed]

theorem RoundTrip.ovsk : RoundTrip.Statement .ovsk := by
  intro next indexed _ _ _
  simp [encode, decode, Instr.isExtracode, decodeBasic, decodeBasic5]

theorem RoundTrip.tcaa : RoundTrip.Statement .tcaa := by
  intro next indexed _ _ _
  simp [encode, decode, Instr.isExtracode, decodeBasic, decodeBasic5]

theorem RoundTrip.xch (k : EAddr) : RoundTrip.Statement (.xch k) := by
  intro next indexed _ _ _
  simp [encode, decode, Instr.isExtracode, decodeBasic, decodeBasic5]

theorem RoundTrip.ad (k : Addr) : RoundTrip.Statement (.ad k) := by
  intro next indexed hw _ _
  simp_all [encode, decode, Instr.isExtracode, decodeBasic, Instr.wellFormed]

theorem RoundTrip.double : RoundTrip.Statement .double := by
  intro next indexed _ _ _
  simp [encode, decode, Instr.isExtracode, decodeBasic]

theorem RoundTrip.mask (k : Addr) : RoundTrip.Statement (.mask k) := by
  intro next indexed _ _ _
  simp [encode, decode, Instr.isExtracode, decodeBasic]

theorem RoundTrip.read (kc : Chan) : RoundTrip.Statement (.read kc) := by
  intro next indexed _ _ _
  simp [encode, decode, Instr.isExtracode, decodeExtra, decodeIo]

theorem RoundTrip.write (kc : Chan) : RoundTrip.Statement (.write kc) := by
  intro next indexed _ _ _
  simp [encode, decode, Instr.isExtracode, decodeExtra, decodeIo]

theorem RoundTrip.rand (kc : Chan) : RoundTrip.Statement (.rand kc) := by
  intro next indexed _ _ _
  simp [encode, decode, Instr.isExtracode, decodeExtra, decodeIo]

theorem RoundTrip.wand (kc : Chan) : RoundTrip.Statement (.wand kc) := by
  intro next indexed _ _ _
  simp [encode, decode, Instr.isExtracode, decodeExtra, decodeIo]

theorem RoundTrip.ror (kc : Chan) : RoundTrip.Statement (.ror kc) := by
  intro next indexed _ _ _
  simp [encode, decode, Instr.isExtracode, decodeExtra, decodeIo]

theorem RoundTrip.wor (kc : Chan) : RoundTrip.Statement (.wor kc) := by
  intro next indexed _ _ _
  simp [encode, decode, Instr.isExtracode, decodeExtra, decodeIo]

theorem RoundTrip.rxor (kc : Chan) : RoundTrip.Statement (.rxor kc) := by
  intro next indexed _ _ _
  simp [encode, decode, Instr.isExtracode, decodeExtra, decodeIo]

theorem RoundTrip.edrupt (kc : Chan) : RoundTrip.Statement (.edrupt kc) := by
  intro next indexed _ _ _
  simp [encode, decode, Instr.isExtracode, decodeExtra, decodeIo]

theorem RoundTrip.dv (k : EAddr) : RoundTrip.Statement (.dv k) := by
  intro next indexed _ _ _
  simp [encode, decode, Instr.isExtracode, decodeExtra]

theorem RoundTrip.bzf (k : Addr) : RoundTrip.Statement (.bzf k) := by
  intro next indexed hw _ _
  have hq : ∀ c, ¬qcField (word12 c k) = 0#2 := fun c => by simpa using qcField_fixedAddress c hw
  simp [encode, decode, Instr.isExtracode, decodeExtra, hq]

theorem RoundTrip.msu (k : EAddr) : RoundTrip.Statement (.msu k) := by
  intro next indexed _ _ _
  simp [encode, decode, Instr.isExtracode, decodeExtra, decodeExtra2]

theorem RoundTrip.qxch (k : EAddr) : RoundTrip.Statement (.qxch k) := by
  intro next indexed hw _ _
  simp_all [encode, decode, Instr.isExtracode, decodeExtra, decodeExtra2, Instr.wellFormed]

theorem RoundTrip.zq : RoundTrip.Statement .zq := by
  intro next indexed _ _ _
  simp [encode, decode, Instr.isExtracode, decodeExtra, decodeExtra2]

theorem RoundTrip.aug (k : EAddr) : RoundTrip.Statement (.aug k) := by
  intro next indexed _ _ _
  simp [encode, decode, Instr.isExtracode, decodeExtra, decodeExtra2]

theorem RoundTrip.dim (k : EAddr) : RoundTrip.Statement (.dim k) := by
  intro next indexed _ _ _
  simp [encode, decode, Instr.isExtracode, decodeExtra, decodeExtra2]

theorem RoundTrip.dca (f : Addr) : RoundTrip.Statement (.dca f) := by
  intro next indexed _ _ _
  simp [encode, decode, Instr.isExtracode, decodeExtra]

theorem RoundTrip.dcs (f : Addr) : RoundTrip.Statement (.dcs f) := by
  intro next indexed hw _ _
  simp_all [encode, decode, Instr.isExtracode, decodeExtra, Instr.wellFormed]

theorem RoundTrip.dcom : RoundTrip.Statement .dcom := by
  intro next indexed _ _ _
  simp [encode, decode, Instr.isExtracode, decodeExtra]

theorem RoundTrip.indexExt (k : Addr) : RoundTrip.Statement (.indexExt k) := by
  intro next indexed _ _ _
  simp [encode, decode, Instr.isExtracode, decodeExtra]

theorem RoundTrip.su (k : EAddr) : RoundTrip.Statement (.su k) := by
  intro next indexed _ _ _
  simp [encode, decode, Instr.isExtracode, decodeExtra]

theorem RoundTrip.bzmf (k : Addr) : RoundTrip.Statement (.bzmf k) := by
  intro next indexed hw _ _
  have hq : ∀ c, ¬qcField (word12 c k) = 0#2 := fun c => by simpa using qcField_fixedAddress c hw
  simp [encode, decode, Instr.isExtracode, decodeExtra, hq]

theorem RoundTrip.mp (k : Addr) : RoundTrip.Statement (.mp k) := by
  intro next indexed hw _ _
  simp_all [encode, decode, Instr.isExtracode, decodeExtra, Instr.wellFormed]

theorem RoundTrip.square : RoundTrip.Statement .square := by
  intro next indexed _ _ _
  simp [encode, decode, Instr.isExtracode, decodeExtra]

end Sys2Proof.Laws
end

