-- ==== Sys2Proof/Tests/Slice0.lean ====
section
/-!
SUPPORT. Tests. Expected results are those of spec/95_test_vectors.md (V, S, I, M, W, the id in each test's comment) or read off the
rule named there. Then, for every statement with hypotheses, a state and operands that meet them.
-/

namespace Sys2Proof.Tests

open Sys2Proof.Machine

/-! ### Well-formedness: each check refuses an ill-formed term and lets its neighbour through -/

theorem test_wellFormed_refuses : ([.tc 0, .tc 1, .tc 2, .tcf 0o1777, .bzf 0o1777, .bzmf 0o1777, .das 1, .lxch 7, .ca 0, .cs 0,
    .dxch 5, .dxch 6, .ts 0, .ts 5, .ad 0, .qxch 7, .dcs 1, .mp 0] : List Instr).all (fun i => !i.wellFormed) = true := by decide

theorem test_wellFormed_accepts : ([.tc 3, .tc 0o7777, .tcf 0o2000, .bzf 0o2000, .bzmf 0o2000, .das 2, .lxch 6, .ca 7, .cs 1,
    .dxch 4, .dxch 7, .ts 4, .ts 6, .ad 7, .qxch 6, .dcs 2, .mp 1, .mask 0, .xch 0, .dca 1] : List Instr).all Instr.wellFormed = true := by
  decide

/-! ### Decoding: the words of 30_encoding.md R140, bit by bit -/

theorem test_decode_transfer :
    decode false false 0b000_010_011_100_101 = .tc 0o2345 ∧ decode false false 0b000_000_000_000_000 = .xxalq ∧
    decode false false 0b000_000_000_000_001 = .xlq ∧ decode false false 0b000_000_000_000_010 = .ret ∧
    decode false false 0b001_000_001_000_000 = .ccs 0o100 ∧ decode false false 0b001_010_011_100_101 = .tcf 0o2345 ∧
    decode true false 0b001_100_010_000_000 = .bzf 0o4200 ∧ decode true false 0b110_100_010_000_000 = .bzmf 0o4200 ∧
    decode false false 0b101_100_000_000_000 = .ovsk ∧ decode false false 0b101_100_000_000_101 = .tcaa ∧
    decode false false 0b101_010_000_000_101 = .dtcf ∧ decode false false 0b101_010_000_000_110 = .dtcb := by decide

theorem test_decode_sequence :
    decode false false 0b000_000_000_000_011 = .relint ∧ decode false false 0b000_000_000_000_100 = .inhint ∧
    decode false false 0b000_000_000_000_110 = .extend ∧ decode false false 0b101_000_001_000_000 = .index 0o100 ∧
    decode true false 0b101_010_000_000_001 = .indexExt 0o2001 ∧ decode false false 0b101_000_000_001_111 = .resume ∧
    decode true false 0b000_111_000_000_001 = .edrupt 1 := by decide

theorem test_decode_load :
    decode false false 0b011_111_111_111_111 = .ca 0o7777 ∧ decode false false 0b011_000_000_000_000 = .noopErasable ∧
    decode false false 0b100_010_000_000_001 = .cs 0o2001 ∧ decode false false 0b100_000_000_000_000 = .com ∧
    decode true false 0b011_000_001_000_001 = .dca 0o101 ∧ decode true false 0b100_000_001_000_001 = .dcs 0o101 ∧
    decode true false 0b100_000_000_000_001 = .dcom ∧ decode false false 0b101_100_001_000_000 = .ts 0o100 ∧
    decode false false 0b101_110_001_000_000 = .xch 0o100 ∧ decode false false 0b010_010_001_000_000 = .lxch 0o100 ∧
    decode true false 0b010_010_001_000_000 = .qxch 0o100 ∧ decode false false 0b101_010_001_000_001 = .dxch 0o101 ∧
    decode false false 0b010_010_000_000_111 = .zl ∧ decode true false 0b010_010_000_000_111 = .zq := by decide

theorem test_decode_arithmetic :
    decode false false 0b110_000_001_000_000 = .ad 0o100 ∧ decode false false 0b110_000_000_000_000 = .double ∧
    decode false false 0b010_110_001_000_000 = .ads 0o100 ∧ decode false false 0b010_000_001_000_001 = .das 0o101 ∧
    decode false false 0b010_000_000_000_001 = .ddoubl ∧ decode true false 0b110_000_001_000_000 = .su 0o100 ∧
    decode true false 0b010_000_001_000_000 = .msu 0o100 ∧ decode false false 0b010_100_001_000_000 = .incr 0o100 ∧
    decode true false 0b010_100_001_000_000 = .aug 0o100 ∧ decode true false 0b010_110_001_000_000 = .dim 0o100 ∧
    decode true false 0b111_000_001_000_000 = .mp 0o100 ∧ decode true false 0b111_000_000_000_000 = .square ∧
    decode true false 0b001_000_001_000_000 = .dv 0o100 := by decide

theorem test_decode_logic_io :
    decode false false 0b111_000_001_000_000 = .mask 0o100 ∧ decode true false 0b000_000_000_000_101 = .read 5 ∧
    decode true false 0b000_001_000_000_101 = .write 5 ∧ decode true false 0b000_010_000_000_101 = .rand 5 ∧
    decode true false 0b000_011_000_000_101 = .wand 5 ∧ decode true false 0b000_100_000_000_101 = .ror 5 ∧
    decode true false 0b000_101_000_000_101 = .wor 5 ∧ decode true false 0b000_110_111_111_111 = .rxor 0o777 := by decide

/-- NOOP in fixed memory at 0o4100 is the word 14101 (R197). -/
theorem test_noopFixed_word : encode 0o4101 .noopFixed = 0o14101 ∧ decode false false 0o14101 = .tcf 0o4101 := by decide

/-! ### One instruction on a small state -/

/-- Z at the word after 0o4100, all else as after reset. -/
def base : State := { State.reset with z := 0o4101 }

/-- `base` with some words of erasable memory (addresses rising). -/
def holding (m : Memory) : State := { base with erasable := m }

/-- The instruction completes and the next state passes a test. -/
def gives (i : Instr) (s : State) (test : State → Bool) : Bool :=
  match exec i s with
  | .next t => test t
  | .refused _ => false

/-- V1, V11, V12 -/
theorem test_flags : gives .extend base (fun t => t.extracode && t.q == 0) ∧
    gives .relint { base with inhibit := true } (fun t => !t.inhibit) ∧ gives .inhint base (fun t => t.inhibit) := by decide

/-- V5, V10, V9 -/
theorem test_index : gives (.index 0) { base with a := 0o040002 } (fun t => t.indexPending && t.indexValue == 2 && t.a == 0o040002) ∧
    gives (.index 0o20) (holding [(0o20, 3)]) (fun t => t.indexValue == 3 && t.erasable.read 0o20 == 0o40001) ∧
    gives (.indexExt 0o100) (holding [(0o100, 2)]) (fun t => t.indexValue == 2 && t.extracode) := by decide

/-- V13 -/
theorem test_resume : gives .resume { holding [(0o15, 0o02345), (0o17, 0o30100)] with inIsr := true }
    (fun t => t.z == 0o2345 && !t.inIsr && t.substitute) := by decide

/-- V16, V17, V19, V21, V24, V25 -/
theorem test_transfer : gives (.tc 0o2345) base (fun t => t.q == 0o004101 && t.z == 0o2345) ∧
    gives .xxalq base (fun t => t.q == 0o004101 && t.z == 0) ∧ gives .xlq base (fun t => t.q == 0o004101 && t.z == 1) ∧
    gives .ret { base with q := 0o004321 } (fun t => t.q == 0o004321 && t.z == 2) ∧
    gives (.tcf 0o2345) { base with q := 0o000777 } (fun t => t.q == 0o000777 && t.z == 0o2345) ∧
    gives .noopFixed { base with a := 0o040001 } (fun t => t.a == 0o040001 && t.z == 0o4101) := by decide

/-- V26, V27, V31, V29 -/
theorem test_ccs : gives (.ccs 0o100) (holding [(0o100, 5)]) (fun t => t.a == 4 && t.z == 0o4101) ∧
    gives (.ccs 0o100) base (fun t => t.a == 0 && t.z == 0o4102) ∧
    gives (.ccs 0o100) (holding [(0o100, 0o77776)]) (fun t => t.a == 0 && t.z == 0o4103) ∧
    gives (.ccs 0o100) (holding [(0o100, 0o77777)]) (fun t => t.a == 0 && t.z == 0o4104) := by decide

/-- V32, V34 -/
theorem test_ccs_overflow : gives (.ccs 0) { base with a := 0o040001 } (fun t => t.a == 0o040000 && t.z == 0o4101) ∧
    gives (.ccs 0) { base with a := 0o137776 } (fun t => t.a == 0o040000 && t.z == 0o4103) := by decide

/-- V37, V38, V42, V43 -/
theorem test_branches : gives (.bzf 0o4200) { base with a := 0o177777 } (fun t => t.z == 0o4200) ∧
    gives (.bzf 0o4200) { base with a := 0o040000 } (fun t => t.z == 0o4101) ∧
    gives (.bzmf 0o4200) { base with a := 0o137777 } (fun t => t.z == 0o4200) ∧
    gives (.bzmf 0o4200) { base with a := 0o040000 } (fun t => t.z == 0o4101) := by decide

/-- V46, V47, V50 -/
theorem test_ovsk_tcaa : gives .ovsk { base with a := 0o137777 } (fun t => t.z == 0o4102 && t.a == 0o137777) ∧
    gives .ovsk { base with a := 0o037777 } (fun t => t.z == 0o4101) ∧
    gives .tcaa { base with a := 0o133456 } (fun t => t.a == 0o177776 && t.z == 0o3456) := by decide

/-- V51, V52 -/
theorem test_dtcf_dtcb :
    gives .dtcf { base with a := 0o024000, l := 0o002100, fb := 2, eb := 2 }
      (fun t => t.a == 0o004000 && t.l == 0o004101 && t.fb == 0o12 && t.eb == 2 && t.z == 0o2100) ∧
    gives .dtcb { base with a := 0o002100, l := 0o024003, fb := 2, eb := 2 }
      (fun t => t.a == 0o004101 && t.l == 0o004002 && t.fb == 0o12 && t.eb == 3 && t.z == 0o2100) := by decide

/-- V53, V54, V55 -/
theorem test_ca : gives (.ca 0o100) (holding [(0o100, 0o77770)]) (fun t => t.a == 0o177770) ∧
    gives (.ca 0o20) (holding [(0o20, 3)]) (fun t => t.a == 3 && t.erasable.read 0o20 == 0o40001) ∧
    gives (.ca 2) { base with q := 0o040123 } (fun t => t.a == 0o040123) := by decide

/-- V56, V59, V60 -/
theorem test_cs_com : gives .noopErasable { base with a := 0o040001 } (fun t => t.a == 0o040001) ∧
    gives (.cs 2) { base with q := 0o040001 } (fun t => t.a == 0o137776) ∧
    gives .com { base with a := 0o040001 } (fun t => t.a == 0o137776) := by decide

/-- V61, V62, V65, V69 -/
theorem test_double_loads :
    gives (.dca 0o101) (holding [(0o100, 0o12345), (0o101, 0o65432)]) (fun t => t.a == 0o012345 && t.l == 0o165432) ∧
    gives (.dca 3) { base with q := 0o040123, eb := 6 } (fun t => t.a == 0o040123 && t.l == 0o003000) ∧
    gives (.dcs 0o101) (holding [(0o100, 0o12345), (0o101, 0o65432)]) (fun t => t.a == 0o165432 && t.l == 0o012345) ∧
    gives .dcom { base with a := 1, l := 0o040005 } (fun t => t.a == 0o177776 && t.l == 0o177772) := by decide

/-- V71, V73, V74 -/
theorem test_ts : gives (.ts 0o100) { base with a := 0o040002 } (fun t => t.a == 1 && t.z == 0o4102 && t.erasable.read 0o100 == 2) ∧
    gives (.ts 1) { base with a := 0o040002 } (fun t => t.a == 1 && t.l == 0o040002 && t.z == 0o4102) ∧
    gives (.ts 0o21) { base with a := 0o012345 } (fun t => t.a == 0o012345 && t.erasable.read 0o21 == 0o05162) := by decide

/-- V76, V78, V81 -/
theorem test_exchanges :
    gives (.xch 0o100) { holding [(0o100, 0o77776)] with a := 0o040002 } (fun t => t.a == 0o177776 && t.erasable.read 0o100 == 2) ∧
    gives (.lxch 0o100) { holding [(0o100, 0o77776)] with l := 0o040002 } (fun t => t.l == 0o177776 && t.erasable.read 0o100 == 2) ∧
    gives (.qxch 0) { base with a := 0o012345, q := 0o040002 } (fun t => t.a == 0o040002 && t.q == 0o012345) := by decide

/-- V82, V83, V85, V86 -/
theorem test_dxch_zl_zq :
    gives (.dxch 0o101) { holding [(0o100, 0o12345), (0o101, 0o65432)] with a := 0o040001, l := 0o177776 }
      (fun t => t.a == 0o012345 && t.l == 0o165432 && t.erasable.read 0o100 == 1 && t.erasable.read 0o101 == 0o77776) ∧
    gives (.dxch 2) { base with a := 1, l := 2, q := 3 } (fun t => t.a == 3 && t.l == 1 && t.q == 2) ∧
    gives .zl { base with l := 0o040002 } (fun t => t.l == 0) ∧ gives .zq { base with q := 0o040002 } (fun t => t.q == 0) := by decide

/-- V88, V90, V95 -/
theorem test_ad_double : gives (.ad 0o100) { holding [(0o100, 0o77776)] with a := 1 } (fun t => t.a == 0o177777) ∧
    gives (.ad 0o100) { holding [(0o100, 0o77776)] with a := 0o140000 } (fun t => t.a == 0o137777) ∧
    gives .double { base with a := 0o177776 } (fun t => t.a == 0o177775) := by decide

/-- V96, V97 -/
theorem test_ads :
    gives (.ads 0o100) { holding [(0o100, 2)] with a := 0o037777 } (fun t => t.a == 0o040001 && t.erasable.read 0o100 == 1) ∧
    gives (.ads 1) { base with a := 0o037777, l := 2 } (fun t => t.a == 0o040001 && t.l == 0o040001) := by decide

/-- V100, V102 -/
theorem test_das : gives (.das 0o101) { holding [(0o100, 0o40000), (0o101, 0o77776)] with a := 0o177776, l := 0o140000 }
      (fun t => t.a == 0o177776 && t.l == 0 && t.erasable.read 0o100 == 0o77776 && t.erasable.read 0o101 == 0o77777) ∧
    gives .ddoubl { base with a := 1, l := 0o020001 } (fun t => t.a == 3 && t.l == 2) := by decide

/-- V104, V109, V111 -/
theorem test_su_msu : gives (.su 0o100) { holding [(0o100, 5)] with a := 5 } (fun t => t.a == 0o177777) ∧
    gives (.msu 0o100) { holding [(0o100, 0o77777)] with a := 1 } (fun t => t.a == 2) ∧
    gives (.msu 0o100) (holding [(0o100, 1)]) (fun t => t.a == 0o177776) := by decide

/-- V115, V117; INCR of TIME1 by decision D32 and R435, against V118 (log 11) -/
theorem test_incr : gives (.incr 0o100) (holding [(0o100, 0o37777)]) (fun t => t.erasable.read 0o100 == 0) ∧
    gives (.incr 0o26) (holding [(0o26, 0o37777)]) (fun t => t.erasable.read 0o26 == 0 && t.req.t3) ∧
    gives (.incr 0o25) (holding [(0o24, 7), (0o25, 0o37777)]) (fun t => t.erasable.read 0o24 == 7 && t.erasable.read 0o25 == 0) := by
  decide

/-- V124, V121, V127, V131 -/
theorem test_aug_dim : gives (.aug 0o100) (holding [(0o100, 0o40000)]) (fun t => t.erasable.read 0o100 == 0o77777) ∧
    gives (.aug 0o100) (holding [(0o100, 0o77777)]) (fun t => t.erasable.read 0o100 == 0o77776) ∧
    gives (.dim 0o100) (holding [(0o100, 1)]) (fun t => t.erasable.read 0o100 == 0o77777) ∧
    gives (.dim 0o31) { holding [(0o31, 1)] with channels := [(0o13, 0o40000)] }
      (fun t => t.erasable.read 0o31 == 0o77777 && t.req.t6 && t.channels.read 0o13 == 0) := by decide

/-- V134, V136, V142 -/
theorem test_mp_square : gives (.mp 0o100) { holding [(0o100, 0o77772)] with a := 3 } (fun t => t.a == 0o177777 && t.l == 0o177760) ∧
    gives (.mp 0o100) (holding [(0o100, 0o77772)]) (fun t => t.a == 0o177777 && t.l == 0o177777) ∧
    gives .square { base with a := 0o177774 } (fun t => t.a == 0 && t.l == 0o000011) := by decide

/-- V146, V148, V150 -/
theorem test_dv : gives (.dv 0o100) { holding [(0o100, 0o77775)] with l := 7 } (fun t => t.a == 0o177774 && t.l == 1) ∧
    gives (.dv 0o100) { holding [(0o100, 2)] with l := 0o177777 } (fun t => t.a == 0o177777 && t.l == 0o177777) ∧
    gives (.dv 0o100) { holding [(0o100, 5)] with a := 0o177772, l := 0o177777 } (fun t => t.a == 0o140000 && t.l == 0o177772) := by
  decide

/-- V152: a zero divisor completes; A and L are open. -/
theorem test_dv_nonsense : gives (.dv 0o100) { base with l := 1 } (fun t => t.draws == 2 && t.z == 0o4101) := by decide

/-- V155, V156 -/
theorem test_mask : gives (.mask 0o100) { holding [(0o100, 0o77777)] with a := 0o040345 } (fun t => t.a == 0o000345) ∧
    gives (.mask 2) { base with a := 0o040345, q := 0o177777 } (fun t => t.a == 0o040345) := by decide

/-- V158, V164, V167, V169 -/
theorem test_channel_reads : gives (.read 0o30) { base with channels := [(0o30, 0o77777)] } (fun t => t.a == 0o177777) ∧
    gives (.rand 0o30) { base with a := 0o040345, channels := [(0o30, 0o77777)] } (fun t => t.a == 0o000345) ∧
    gives (.ror 1) { base with a := 5, l := 0o100012 } (fun t => t.a == 0o100017) ∧
    gives (.rxor 0o30) { base with a := 0o012345, channels := [(0o30, 0o77777)] } (fun t => t.a == 0o165432) := by decide

/-- V160, V162, V165, V168 -/
theorem test_channel_writes : gives (.write 5) { base with a := 0o040252 } (fun t => t.channels.read 5 == 0o252 && t.a == 0o040252) ∧
    gives (.write 7) { base with a := 0o077777 } (fun t => t.channels.read 7 == 0o160) ∧
    gives (.wand 0o11) { base with a := 0o012345, channels := [(0o11, 0o70707)] }
      (fun t => t.a == 0o010305 && t.channels.read 0o11 == 0o10305) ∧
    gives (.wor 0o11) { base with a := 5, channels := [(0o11, 0o12)] } (fun t => t.a == 0o17 && t.channels.read 0o11 == 0o17) := by
  decide

/-! ### Steps, the environment, interrupts, addresses -/

/-- A state at 0o4100 with two words there. -/
def program (w0 w1 : Word) : State := { base with z := 0o4100, fixed := (Memory.write [] 0o4101 w1).write 0o4100 w0 }

/-- One step completes and the next state passes a test. -/
def steps (s : State) (test : State → Bool) : Bool :=
  match step s with
  | .next t => test t
  | .refused _ => false

/-- V6, its second step: 00000 indexed by 6 is TC 6, not EXTEND. -/
theorem test_step_indexed : steps { program 0 0 with z := 0o4101, indexPending := true, indexValue := 6 }
    (fun t => t.q == 0o004102 && t.z == 6 && !t.extracode && !t.indexPending) := by decide

/-- V14, its second step: the word of BRUPT is executed. -/
theorem test_step_substituted : steps { holding [(0o17, 0o30100), (0o100, 0o42)] with z := 0o2345, substitute := true }
    (fun t => t.a == 0o42 && t.z == 0o2346 && !t.substitute) := by decide

/-- I1: the interrupt is entered before the instruction at its vector (an all-zero word, XXALQ) runs. -/
theorem test_step_interrupt : steps { program 0o30100 0 with req := Requests.empty.put .t3rupt true }
    (fun t => t.erasable.read 0o15 == 0o04100 && t.erasable.read 0o17 == 0o30100 && t.q == 0o004015 && t.inIsr && !t.req.t3) := by
  decide

/-- R386, R59: a pulse to a hand-controller counter counts in the LM with bits 8 and 9 of channel 0o13 set, and not otherwise. -/
theorem test_rhc_gate :
    (applyAction (.pincPulse .qRhc) { base with channels := [(0o13, 0o00600)] }).erasable = [(0o42, 1)] ∧
    (applyAction (.pincPulse .qRhc) { base with channels := [(0o13, 0o00400)] }).erasable = [] ∧
    (applyAction (.minc .rRhc) { base with channels := [(0o13, 0o00600)], vehicle := .cm }).erasable = [] ∧
    (applyAction (.minc .pipaX) base).erasable = [(0o37, 0o77776)] := by decide

/-- I4: overflow in A keeps the interrupt waiting. -/
theorem test_step_overflow_waits : steps { program 0o30100 0 with a := 0o040000, req := Requests.empty.put .t3rupt true }
    (fun t => t.a == 0 && t.z == 0o4101 && t.req.t3 && !t.inIsr) := by decide

/-- S1, S2, S11, S9, S19 -/
theorem test_counters :
    (pinc 0o25 (holding [(0o24, 7), (0o25, 0o37777)])).erasable = [(0o24, 0o10)] ∧
    (pinc 0o26 (holding [(0o26, 0o37777)])).req = Requests.empty.put .t3rupt true ∧
    (minc 0o37 (holding [(0o37, 0o40000)])).erasable = [(0o37, 0o77777)] ∧
    (pcdu 0o32 (holding [(0o32, 0o77777)])).erasable = [] ∧
    (shinc .inlink (holding [(0o45, 0o40001)])).req = Requests.empty.put .uprupt true := by decide

/-- S17, S16's last pulse -/
theorem test_dinc :
    (dinc { holding [(0o31, 0o77775)] with channels := [(0o13, 0o40000)] }).erasable = [(0o31, 0o77776)] ∧
    (dinc { holding [(0o31, 1)] with channels := [(0o13, 0o40000)] }).channels = [] ∧ dincPulse 0o77776 = .mout := by decide

/-- M1, M5, M6, M10 -/
theorem test_addresses :
    locate { base with eb := 7 } 0o1777 = .ok (.core (7 * 0o400 + 0o377)) ∧
    locate { base with fb := 0o33 } 0o3777 = .ok (.fixed (0o33 * 0o2000 + 0o1777)) ∧
    locate { base with fb := 0o33, channels := [(7, 0o100)] } 0o3777 = .ok (.fixed (0o43 * 0o2000 + 0o1777)) ∧
    locate { base with fb := 2 } 0o2123 = locate base 0o4123 := by decide

/-- W1, W2, W3, W4; M11, M12, M14 -/
theorem test_stores : edit 0o20 3 = 0o40001 ∧ edit 0o21 0o40001 = 0o60000 ∧ edit 0o22 0o40001 = 3 ∧ edit 0o23 0o12525 = 0o52 ∧
    getWord (putWord base .bb 0o12003) .bb = 0o12003 ∧ getWord (putWord base .eb 0o77777) .eb = 0o03400 ∧
    getWord (putWord base .zero 0o12345) .zero = 0 := by decide

/-- The interface: a word stored with withFetchWord is what the first step runs (CA 7; with bit 15, READ channel 6). -/
theorem test_withFetchWord : instructionOf (State.reset.withFetchWord 16 0o30007) 0o30007 = .ca 7 ∧
    fetchWord (State.reset.withFetchWord 16 0o30007) = .ok 0o30007 ∧ decodeTableWord 16 0o30007 = some (.ca 7) ∧
    decodeTableWord 16 0o100006 = some (.read 6) := by decide

/-! ### States and operands that meet the statements' hypotheses -/

/-- A state with something in every memory. -/
def sample : State :=
  { base with a := 0o012345, l := 0o000005, erasable := [(0o15, 0o02345), (0o17, 0o30100), (0o20, 3), (0o100, 5), (0o101, 2)],
              fixed := [(0o4000, 6), (0o4101, 0o30100)], channels := [(0o13, 0o40000), (0o30, 0o77777)] }

theorem sample_coherent : Coherent sample := by constructor <;> decide

/-- The superbank selected, FB at its highest bank: bank 0o47, which does not exist; Z in that window. -/
def beyond : State := { base with fb := 0o37, channels := [(7, 0o100)], z := 0o2000 }

theorem beyond_coherent : Coherent beyond := by constructor <;> decide

theorem witness_DecodeEncode : (Instr.tcf 0o2000).wellFormed ∧ (Instr.tc 3).wellFormed ∧ (Instr.tc 3).readableWhen true ∧
    Instr.noopFixed.wellFormed ∧ Instr.fixedAddress 0o2000 := by decide

/-- `Except Refusal`'s error. -/
def stops {α : Type} (x : Except Refusal α) : Bool :=
  match x with
  | .ok _ => false
  | .error _ => true

/-- The boundary of a state changes nothing and the word fetched there passes a test. -/
def fetches (s : State) (test : Word → Bool) : Bool :=
  match boundary s with
  | .ok t => decide (t = s) && (match fetchWord t with
    | .ok w => test w
    | .error _ => false)
  | .error _ => false

theorem witness_StepRunsDecodedInstruction : fetches sample (fun w => w == 0o30100) = true := by decide

theorem witness_StepRunsDecodedInstruction_boundaryStops :
    stops (boundary { beyond with req := Requests.empty.put .t6rupt true }) = true := by decide

theorem witness_StepRunsDecodedInstruction_fetchStops : stops (fetchWord beyond) = true ∧ !stops (boundary beyond) := by decide

theorem witness_BoundaryAndFetch : (sample.schedule = [] ∧ interruptTaken sample = none) ∧
    interruptTaken (environmentActs { sample with schedule := [[.pincTime .time1]] }) = none ∧
    interruptTaken (environmentActs { sample with schedule := [[.keystroke1]] }) = some .keyrupt1 ∧
    ({ sample with substitute := true } : State).substitute = true ∧
    (sample.substitute = false ∧ locate sample sample.z = .ok (.fixed 0o4101)) ∧
    beyond.substitute = false ∧ stops (locate beyond beyond.z) = true := by decide

theorem witness_StepKeepsCoherent : Coherent sample ∧ ∃ t, step sample = .next t := ⟨sample_coherent, _, rfl⟩

theorem witness_StepKeepsFixedMemory : ∃ t, step sample = .next t := ⟨_, rfl⟩

theorem witness_HiddenStateWriters :
    gives .resume { sample with inIsr := true } (fun t => !t.inIsr && t.substitute) ∧ gives .inhint sample (fun t => t.inhibit) ∧
    gives .relint { sample with inhibit := true } (fun t => !t.inhibit) ∧ gives .extend sample (fun t => t.extracode) ∧
    gives (.index 0) sample (fun t => t.indexPending) ∧ gives (.indexExt 0) sample (fun t => t.extracode && t.indexPending) := by
  decide

theorem witness_ChannelWriters : gives (.write 5) sample (fun t => t.channels != sample.channels) ∧
    gives (.dim 0o31) { sample with erasable := [(0o31, 1)] } (fun t => t.channels != sample.channels) := by decide

theorem witness_RequestWriters :
    gives (.incr 0o26) { sample with erasable := [(0o26, 0o37777)], req := Requests.empty.put .rupt10 true }
      (fun t => t.req.t3 && t.req.r10) := by decide

theorem witness_EnvironmentFrame : (∀ inhibit req, EnvAction.dinc ≠ .goj inhibit req) ∧ (0o23 < 0o24 ∨ 0o60 < 0o23) ∧
    (0o61 < 0o24 ∨ 0o60 < 0o61) := ⟨fun _ _ h => (by cases h), by decide, by decide⟩

/-- A jump to itself, in fixed and in erasable memory. -/
theorem witness_EndOfRunIsStable :
    runEnds (program 0o14100 0) ∧ interruptTaken (program 0o14100 0) = none ∧ (program 0o14100 0).schedule = [] ∧
    runEnds { holding [(0o10, 0o10)] with z := 0o10 } := by decide

theorem witness_InterruptTakenIff :
    interruptTaken { sample with req := (Requests.empty.put .rupt10 true).put .radarupt true } = some .radarupt := by decide

theorem witness_InterruptEntry : Coherent sample ∧ locate sample sample.z = .ok (.fixed 0o4101) ∧
    locate { sample with z := 0o15 } 0o15 = .ok (.core 0o15) ∧ Coherent beyond ∧ ∃ e, locate beyond beyond.z = .error e :=
  ⟨sample_coherent, rfl, rfl, beyond_coherent, ⟨_, rfl⟩⟩

theorem witness_ResumeRestoresInterrupted : Coherent sample ∧ sample.substitute = false ∧ sample.z ≠ 0o15 ∧
    ∃ t, enterInterrupt .t3rupt sample = .ok t ∧ t.erasable.read 0o15 = t.erasable.read 0o15 :=
  ⟨sample_coherent, rfl, by decide, _, rfl, rfl⟩

/-- One state that overflows every clock. -/
def clocksFull : State :=
  { base with erasable := [(0o24, 0o37777), (0o25, 0o37777), (0o26, 0o37777), (0o27, 0o37777), (0o30, 0o37777), (0o31, 0o37777)],
              channels := [(0o13, 0o40000)] }

theorem clocksFull_coherent : Coherent clocksFull := by constructor <;> decide

/-- One state in which AUG overflows TIME1 and TIME3 to TIME6 downwards. -/
def clocksLow : State :=
  { base with erasable := [(0o25, 0o40000), (0o26, 0o40000), (0o27, 0o40000), (0o30, 0o40000), (0o31, 0o40000)] }

theorem clocksLow_coherent : Coherent clocksLow := by constructor <;> decide

/-- The hand controller's counts enabled and requested. -/
def rhcOn : State := { base with channels := [(0o13, 0o00600)] }

theorem rhcOn_coherent : Coherent rhcOn := by constructor <;> decide

theorem witness_PincCounts : Coherent clocksFull ∧ ([0o25, 0o24, 0o26, 0o27, 0o30] : List Nat).all
    (fun i => clocksFull.erasable.read i == 0o37777) ∧ Coherent sample ∧ sample.erasable.read 0o25 ≠ 0o37777 :=
  ⟨clocksFull_coherent, by decide, sample_coherent, by decide⟩

/-- For PINC and MINC of the hand controller's counters: the gate open; closed by the channel; closed by the vehicle. -/
theorem witness_MincCounts : Coherent rhcOn ∧ (rhcOn.vehicle = .lm ∧ (rhcOn.channels.read 0o13).getLsbD 7 = true ∧
    (rhcOn.channels.read 0o13).getLsbD 8 = true) ∧ Coherent sample ∧ (sample.channels.read 0o13).getLsbD 7 = false ∧
    Coherent { rhcOn with vehicle := .cm } ∧ ({ rhcOn with vehicle := .cm } : State).vehicle ≠ .lm :=
  ⟨rhcOn_coherent, by decide, sample_coherent, by decide, (by constructor <;> decide), by decide⟩

theorem witness_CduCountersWrap : Coherent sample := sample_coherent

theorem witness_DincCounts : Coherent clocksFull ∧ (clocksFull.channels.read 0o13).getLsbD 14 = true ∧
    1 < (val15 (clocksFull.erasable.read 0o31)).natAbs ∧ Coherent sample ∧ (sample.channels.read 0o13).getLsbD 14 = true ∧
    (val15 (sample.erasable.read 0o31)).natAbs ≤ 1 ∧ Coherent base ∧ (base.channels.read 0o13).getLsbD 14 = false :=
  ⟨clocksFull_coherent, by decide, by decide, sample_coherent, by decide, by decide, (by constructor <;> decide), by decide⟩

theorem witness_ShiftCountersShift : Coherent sample := sample_coherent

theorem witness_SerialWordArrives : Coherent (holding [(0o45, 1)]) ∧ (holding [(0o45, 1)]).erasable.read 0o45 = 1 :=
  ⟨(by constructor <;> decide), by decide⟩

theorem witness_EnvironmentRequests : Coherent sample ∧ environmentChannel 0o30 = true ∧ environmentChannel 3 = true ∧
    environmentChannel 0o777 = true ∧ Coherent rhcOn ∧ (val15 0o00071).natAbs ≤ 57 ∧ (val15 0o77706).natAbs ≤ 57 ∧
    57 < (val15 0o00072).natAbs :=
  ⟨sample_coherent, by decide, by decide, by decide, rhcOn_coherent, by decide, by decide, by decide⟩

theorem witness_ZeroBranches : 0o2000 ≤ (0o2000 : Addr).toNat ∧ 0o2000 ≤ (0o7777 : Addr).toNat := by decide

theorem witness_SpecialChannelWrites : ((3 : Chan) = 3 ∨ (3 : Chan) = 4) ∧ ((4 : Chan) = 3 ∨ (4 : Chan) = 4) := by decide

/-- The five regions and the stops, at the boundaries where clauses meet. -/
theorem witness_AddressMap :
    locate sample 0o0007 = .ok .zero ∧ locate sample 0o0010 = .ok (.core 0o10) ∧ locate sample 0o1377 = .ok (.core 0o1377) ∧
    locate sample 0o1400 = .error .registerWindow ∧ locate sample 0o1460 = .error .registerWindow ∧
    locate sample 0o1461 = .ok (.core 0o61) ∧ locate { sample with eb := 1 } 0o1400 = .ok (.core 0o400) ∧
    locate sample 0o1777 = .ok (.core 0o377) ∧ locate { sample with fb := 0o37 } 0o2000 = .ok (.fixed (0o37 * 0o2000)) ∧
    locate { beyond with fb := 0o27 } 0o3777 = .ok (.fixed (0o27 * 0o2000 + 0o1777)) ∧
    locate { beyond with fb := 0o30 } 0o2000 = .ok (.fixed (0o40 * 0o2000)) ∧
    locate { beyond with fb := 0o33 } 0o3777 = .ok (.fixed (0o43 * 0o2000 + 0o1777)) ∧
    locate { beyond with fb := 0o34 } 0o2000 = .error (.nonexistentFixedBank 0o44) ∧
    locate beyond 0o4000 = .ok (.fixed 0o4000) ∧ locate beyond 0o5777 = .ok (.fixed 0o5777) ∧
    locate beyond 0o6000 = .ok (.fixed 0o6000) ∧ locate beyond 0o7777 = .ok (.fixed 0o7777) := by decide

theorem witness_PairAddress : (locate sample 0o101 = .ok (.core 0o101) ∧ locate sample 0o100 = .ok (.core 0o100)) ∧
    (∃ e, locate beyond 0o2000 = .error e) ∧ locate beyond 0o4000 = .ok (.fixed 0o4000) ∧ ∃ e, locate beyond 0o3777 = .error e :=
  ⟨⟨rfl, rfl⟩, ⟨_, rfl⟩, rfl, ⟨_, rfl⟩⟩

theorem witness_WideStore : Place.zero ≠ .a ∧ Place.zero ≠ .l ∧ Place.zero ≠ .q := by decide

theorem witness_StoreThenRead : Coherent sample := sample_coherent

theorem witness_EditingRegisters : 0 < 15 ∧ 14 < 15 ∧ (0o17 < 0o20 ∨ 0o23 < 0o17) ∧ (0o24 < 0o20 ∨ 0o23 < 0o24) := by decide

theorem witness_AdderIsIntegerSum : hasOverflow (add16 (sx16 5) (sx16 0o77776)) = false ∧
    posOverflow (add16 (sx16 0o37777) (sx16 1)) = true ∧ negOverflow (add16 (sx16 0o40000) (sx16 0o77776)) = true := by decide

theorem witness_IndexPends : Coherent sample ∧ locate sample (erasableAddr 0o20) = .ok (.core 0o20) ∧
    locate sample 0o4000 = .ok (.fixed 0o4000) := ⟨sample_coherent, rfl, rfl⟩

theorem witness_TransferJumps : (0o2345 : Addr) ≠ 2 := by decide

theorem witness_CountCompareSkip : Coherent sample ∧ locate sample (erasableAddr 0o100) = .ok (.core 0o100) ∧
    getWide sample (.core 0o100) = 5 ∧ getWide sample (.core 0o102) = 0 ∧
    getWide (holding [(0o100, 0o77777)]) (.core 0o100) = 0o177777 ∧ getWide (holding [(0o100, 0o77776)]) (.core 0o100) = 0o177776 ∧
    (Place.core 0o100).is16 = false := ⟨sample_coherent, rfl, by decide, by decide, by decide, by decide, rfl⟩

theorem witness_AccumulatorTakesOperand : Coherent sample ∧ locate sample 0 = .ok .a ∧ locate sample 7 = .ok .zero ∧
    locate sample 0o4000 = .ok (.fixed 0o4000) ∧ locate sample (erasableAddr 0o1777) = .ok (.core 0o377) :=
  ⟨sample_coherent, rfl, rfl, rfl, rfl⟩

theorem witness_ModularSubtract : Coherent sample ∧ locate sample (erasableAddr 0o100) = .ok (.core 0o100) ∧
    (ovc sample.a - getWord sample (.core 0o100)).toInt ≠ -2 ^ 14 := ⟨sample_coherent, rfl, by decide⟩

theorem witness_DoubleLoads : Coherent sample ∧ locatePair sample 3 = .ok (.eb, .q) ∧
    locatePair sample 0o4000 = .ok (.fixed 0o4000, .fixed 0o1777) := ⟨sample_coherent, rfl, rfl⟩

theorem witness_TransferToStorage : Coherent sample ∧ locate sample (erasableAddr 7) = .ok .zero ∧
    hasOverflow sample.a = false ∧ Coherent { sample with a := 0o040002 } ∧ posOverflow 0o040002 = true ∧
    Coherent { sample with a := 0o137775 } ∧ negOverflow 0o137775 = true :=
  ⟨sample_coherent, rfl, by decide, (by constructor <;> decide), by decide, (by constructor <;> decide), by decide⟩

theorem witness_Exchanges : Coherent sample ∧ locate sample (erasableAddr 7) = .ok .zero ∧
    locate sample (erasableAddr 1) = .ok .l := ⟨sample_coherent, rfl, rfl⟩

theorem witness_DoubleExchange : Coherent sample ∧ locatePair sample (erasableAddr 3) = .ok (.eb, .q) ∧
    locatePair sample (erasableAddr 0o101) = .ok (.core 0o101, .core 0o100) := ⟨sample_coherent, rfl, rfl⟩

theorem witness_AddToStorage : Coherent sample ∧ locate sample (erasableAddr 0o100) = .ok (.core 0o100) := ⟨sample_coherent, rfl⟩

theorem witness_DoubleAddToStorage : Coherent sample ∧ locatePair sample (erasableAddr 2) = .ok (.q, .l) ∧
    locatePair sample (erasableAddr 0o101) = .ok (.core 0o101, .core 0o100) := ⟨sample_coherent, rfl, rfl⟩

theorem witness_IncrementAugmentDiminish : Coherent sample ∧ locate sample (erasableAddr 0o24) = .ok (.core 0o24) ∧
    locate sample (erasableAddr 0o32) = .ok (.core 0o32) ∧ locate sample (erasableAddr 0o31) = .ok (.core 0o31) ∧
    hasOverflow (add16 (getWide sample (.core 0o31)) 1) = false ∧ getWide sample (.core 0o31) = 0 ∧
    Coherent clocksFull ∧ hasOverflow (add16 (getWide clocksFull (.core 0o25)) 1) = true :=
  ⟨sample_coherent, rfl, rfl, rfl, by decide, by decide, clocksFull_coherent, by decide⟩

theorem witness_TimersByInstruction : Coherent clocksFull ∧
    ([0o25, 0o26, 0o27, 0o30, 0o31] : List Nat).all (fun k => clocksFull.erasable.read k == 0o37777) ∧ Coherent clocksLow ∧
    ([0o25, 0o26, 0o27, 0o30, 0o31] : List Nat).all (fun k => clocksLow.erasable.read k == 0o40000) :=
  ⟨clocksFull_coherent, by decide, clocksLow_coherent, by decide⟩

theorem witness_TimersByInstruction_zero : Coherent (holding [(0o31, 1)]) ∧ (holding [(0o31, 1)]).erasable.read 0o31 = 1 ∧
    Coherent (holding [(0o31, 0o77776)]) ∧ (holding [(0o31, 0o77776)]).erasable.read 0o31 = 0o77776 :=
  ⟨(by constructor <;> decide), by decide, (by constructor <;> decide), by decide⟩

theorem witness_Multiplication : locate sample 0o100 = .ok (.core 0o100) ∧
    val15 (ovc sample.a) * val15 (getWord sample (.core 0o100)) ≠ 0 ∧ locate sample 7 = .ok .zero ∧
    val15 (ovc sample.a) * val15 (getWord sample .zero) = 0 := ⟨rfl, by decide, rfl, by decide⟩

/-- A dividend below, and one equal to, the divisor in magnitude. -/
theorem witness_Division : locate { sample with a := 1 } (erasableAddr 0o100) = .ok (.core 0o100) ∧
    (dividend 1 5).natAbs < (val15 5).natAbs * 2 ^ 14 ∧ (dividend 5 0).natAbs = (val15 5).natAbs * 2 ^ 14 :=
  ⟨rfl, by decide, by decide⟩

theorem witness_DivisionNonsense : locate sample (erasableAddr 0o100) = .ok (.core 0o100) ∧
    (val15 (getWord sample (.core 0o100))).natAbs * 2 ^ 14 < (dividend (ovc sample.a) (ovc sample.l)).natAbs :=
  ⟨rfl, by decide⟩

theorem witness_MaskOperand : locate sample 7 = .ok .zero ∧ locate sample 2 = .ok .q := ⟨rfl, rfl⟩

theorem witness_ChannelWrites : Coherent sample ∧ ((7 : Chan) ≠ 1 ∧ (7 : Chan) ≠ 2 ∧ (7 : Chan) ≠ 3 ∧ (7 : Chan) ≠ 4) ∧
    ((0 : Chan) ≠ 1 ∧ (5 : Chan) ≠ 4 ∧ (0o777 : Chan) ≠ 4) := ⟨sample_coherent, by decide, by decide⟩

theorem witness_OperandStops : locate beyond 0o2000 = .error (.nonexistentFixedBank 0o47) ∧
    locate sample (erasableAddr 0o1400) = .error .registerWindow ∧
    locatePair sample 0 = .error .doubleWordFieldZero ∧
    locatePair sample (erasableAddr 0o1400) = .error .registerWindow := ⟨rfl, rfl, rfl, rfl⟩

end Sys2Proof.Tests
end

section
/-!
PROOF. Overflow read off bits 16 and 15 of a wide value (spec/00_scope.md R14): each of the model's three overflow tests as a
statement about the two bits. Laws/Arithmetic.lean has the same tests as ranges of the unsigned value.
-/

namespace Sys2Proof.Machine

theorem posOverflow_iff (v : Wide) : posOverflow v = true ↔ v.getLsbD 15 = false ∧ v.getLsbD 14 = true := by
  simp [posOverflow]

theorem negOverflow_iff (v : Wide) : negOverflow v = true ↔ v.getLsbD 15 = true ∧ v.getLsbD 14 = false := by
  simp [negOverflow]

/-- The two ways the bits can differ are the two signs of overflow, so excluding both leaves equal bits. -/
theorem hasOverflow_eq_false_iff (v : Wide) : hasOverflow v = false ↔ v.getLsbD 15 = v.getLsbD 14 := by
  rw [hasOverflow, Bool.or_eq_false_iff, ← Bool.not_eq_true, ← Bool.not_eq_true, posOverflow_iff, negOverflow_iff]
  cases v.getLsbD 15 with
  | false => cases v.getLsbD 14 <;> simp
  | true => cases v.getLsbD 14 <;> simp

/-- Settles O30: the three tests, each by its own lemma on the two top bits. -/
theorem overflowState : Obligations.OverflowState := fun v =>
  ⟨posOverflow_iff v, negOverflow_iff v, hasOverflow_eq_false_iff v⟩

end Sys2Proof.Machine
end

section
/-!
PROOF. `Wr16` case by case (spec/20_memory.md R93): the three 16-bit registers take the whole value, every place with
`Place.is16` false takes the overflow-corrected word by `Write15`.
-/

namespace Sys2Proof.Machine

@[simp] theorem putWide_a (s : State) (v : Wide) : putWide s .a v = s.setA v := rfl

@[simp] theorem putWide_l (s : State) (v : Wide) : putWide s .l v = s.setL v := rfl

@[simp] theorem putWide_q (s : State) (v : Wide) : putWide s .q v = s.setQ v := rfl

theorem putWide_of_is16_eq_false {p : Place} (hp : p.is16 = false) (s : State) (v : Wide) :
    putWide s p v = putWord s p (ovc v) := by
  cases p with
  | a | l | q => cases hp
  | eb | fb | z | bb | zero | core _ | fixed _ => rfl

theorem Place.is16_eq_false_iff (p : Place) : p.is16 = false ↔ p ≠ .a ∧ p ≠ .l ∧ p ≠ .q := by
  cases p <;> simp [Place.is16]

/-- Settles O27: a place other than A, L, Q is one that `is16` excludes, and there `Wr16` is `Write15`. -/
theorem wideStore : Obligations.WideStore := fun s v =>
  ⟨putWide_a s v, putWide_l s v, putWide_q s v, fun p ha hl hq =>
    putWide_of_is16_eq_false (p.is16_eq_false_iff.mpr ⟨ha, hl, hq⟩) s v⟩

end Sys2Proof.Machine
end

section
/-!
PROOF. BZF and BZMF (spec/41_transfer_control.md R205, R207): each test on A as a condition on all its bits, and the words that
decode to the two branches, by the round trip of the encoding.
-/

namespace Sys2Proof.Machine

/-- Both zeros are tested, each as a whole 16-bit value: no overflowed word is taken for one of them. -/
theorem isZero16_iff (v : Wide) : isZero16 v = true ↔ v = 0 ∨ v = 0o177777 := by
  simp [isZero16]

theorem exec_bzf (k : Addr) (s : State) :
    exec (.bzf k) s = .next (if s.a = 0 ∨ s.a = 0o177777 then { s with z := k } else s) := by
  simp only [← isZero16_iff]
  rfl

/-- The test of BZMF: +0, or the sign in bit 16; the latter holds of -0 too. -/
theorem isZeroOrMinus_iff (v : Wide) : (v == 0 || bit16 v) = true ↔ v = 0 ∨ v.getLsbD 15 = true := by
  simp [bit16]

theorem exec_bzmf (k : Addr) (s : State) :
    exec (.bzmf k) s = .next (if s.a = 0 ∨ s.a.getLsbD 15 = true then { s with z := k } else s) := by
  simp only [← isZeroOrMinus_iff]
  rfl

/-- The sum of a Code's octal constant and an address is the word with these two fields: the address does not carry into the
Code (spec/30_encoding.md R121). -/
theorem ofNat_add_setWidth_eq_word12 (c : BitVec 3) (k : Addr) :
    BitVec.ofNat 15 (4096 * c.toNat) + k.setWidth 15 = word12 c k := by
  apply BitVec.eq_of_toNat_eq
  have hc := c.isLt
  have hk := k.isLt
  rw [toNat_word12, BitVec.toNat_add, BitVec.toNat_ofNat, BitVec.toNat_setWidth]
  omega

theorem decode_bzf (indexed : Bool) {k : Addr} (hk : 0o2000 ≤ k.toNat) :
    decode true indexed (0o10000 + k.setWidth 15) = .bzf k := by
  have hword : 0o10000 + k.setWidth 15 = encode 0 (.bzf k) := ofNat_add_setWidth_eq_word12 1 k
  rw [hword]
  exact Laws.RoundTrip.bzf k 0 indexed (decide_eq_true hk) rfl nofun

theorem decode_bzmf (indexed : Bool) {k : Addr} (hk : 0o2000 ≤ k.toNat) :
    decode true indexed (0o60000 + k.setWidth 15) = .bzmf k := by
  have hword : 0o60000 + k.setWidth 15 = encode 0 (.bzmf k) := ofNat_add_setWidth_eq_word12 6 k
  rw [hword]
  exact Laws.RoundTrip.bzmf k 0 indexed (decide_eq_true hk) rfl nofun

/-- Settles O37: per branch, what it does by its test on A, and its words by the round trip of the encoding. -/
theorem zeroBranches : Obligations.ZeroBranches :=
  ⟨fun s k => ⟨exec_bzf k s, exec_bzmf k s⟩, fun indexed _ hk => ⟨decode_bzf indexed hk, decode_bzmf indexed hk⟩⟩

end Sys2Proof.Machine
end

section
/-!
PROOF. CA, CS, AD, SU (spec/42_load_store_exchange.md R231, R234; 43_arithmetic.md R271, R280) leave A loaded and their operand
rewritten, one lemma for all four; then the words of the four and of the forms at K = 0 (R127).
-/

namespace Sys2Proof.Machine

/-- A write to A does not reach the operand of the Rewrite that comes after it. -/
theorem rewrittenAs_setA {p : Place} (hp : p ≠ .a) (s : State) (v : Wide) : rewrittenAs (s.setA v) p = rewrittenAs s p := by
  cases p with
  | a => exact absurd rfl hp
  | l | q | eb | fb | z | bb | zero | core _ | fixed _ => rfl

/-- A loaded, then the operand rewritten (R94): the Rewrite sees the operand as it was, and leaves A as loaded. -/
theorem loadedA_rewrite_setA {s : State} (h : s.erasable.wf = true) (p : Place) (v : Wide) :
    LoadedA s (rewrite (s.setA v) p) p v where
  a := rewrite_a (s.setA v) p
  operand hp := (getWide_rewrite (s := s.setA v) h p).trans (rewrittenAs_setA hp s v)
  others := (unchangedBut_setA s v).trans (unchangedBut_rewrite (s := s.setA v) h p)

/-- The shape CA, CS, AD and SU share: a value worked out from the operand's place goes to A, and the operand is rewritten. -/
theorem onOperand_loadedA {s : State} (hs : Coherent s) {k : Addr} {p : Place} (hp : locate s k = .ok p) (v : Place → Wide) :
    ∃ t, onOperand s k (fun p => rewrite (s.setA (v p)) p) = .next t ∧ LoadedA s t p (v p) :=
  ⟨_, onOperand_of_locate hp _, loadedA_rewrite_setA hs.erasable_wf p (v p)⟩

theorem exec_ca_loadedA {s : State} (hs : Coherent s) {k : Addr} {p : Place} (hp : locate s k = .ok p) :
    ∃ t, exec (.ca k) s = .next t ∧ LoadedA s t p (getWide s p) :=
  onOperand_loadedA hs hp fun p => getWide s p

theorem exec_cs_loadedA {s : State} (hs : Coherent s) {k : Addr} {p : Place} (hp : locate s k = .ok p) :
    ∃ t, exec (.cs k) s = .next t ∧ LoadedA s t p (~~~(getWide s p)) :=
  onOperand_loadedA hs hp fun p => ~~~(getWide s p)

theorem exec_ad_loadedA {s : State} (hs : Coherent s) {k : Addr} {p : Place} (hp : locate s k = .ok p) :
    ∃ t, exec (.ad k) s = .next t ∧ LoadedA s t p (add16 s.a (getWide s p)) :=
  onOperand_loadedA hs hp fun p => add16 s.a (getWide s p)

theorem exec_su_loadedA {s : State} (hs : Coherent s) {k : EAddr} {p : Place} (hp : locate s (erasableAddr k) = .ok p) :
    ∃ t, exec (.su k) s = .next t ∧ LoadedA s t p (add16 s.a (~~~(getWide s p))) :=
  onOperand_loadedA hs hp fun p => add16 s.a (~~~(getWide s p))

theorem decode_ca (indexed : Bool) (k : Addr) :
    decode false indexed (0o30000 + k.setWidth 15) = if k = 0 then .noopErasable else .ca k := by
  have hword : 0o30000 + k.setWidth 15 = word12 3 k := ofNat_add_setWidth_eq_word12 3 k
  rw [hword]
  simp [decode, decodeBasic]

theorem decode_cs (indexed : Bool) (k : Addr) :
    decode false indexed (0o40000 + k.setWidth 15) = if k = 0 then .com else .cs k := by
  have hword : 0o40000 + k.setWidth 15 = word12 4 k := ofNat_add_setWidth_eq_word12 4 k
  rw [hword]
  simp [decode, decodeBasic]

theorem decode_ad (indexed : Bool) (k : Addr) :
    decode false indexed (0o60000 + k.setWidth 15) = if k = 0 then .double else .ad k := by
  have hword : 0o60000 + k.setWidth 15 = word12 6 k := ofNat_add_setWidth_eq_word12 6 k
  rw [hword]
  simp [decode, decodeBasic]

/-- The sum of the octal constant of a Code and a quarter code and an erasable address is the word with these three fields
(spec/30_encoding.md R121). -/
theorem ofNat_add_setWidth_eq_word10 (c : BitVec 3) (q : BitVec 2) (k : EAddr) :
    BitVec.ofNat 15 (4096 * c.toNat + 1024 * q.toNat) + k.setWidth 15 = word10 c q k := by
  apply BitVec.eq_of_toNat_eq
  have hc := c.isLt
  have hq := q.isLt
  have hk := k.isLt
  rw [toNat_word10, BitVec.toNat_add, BitVec.toNat_ofNat, BitVec.toNat_setWidth]
  omega

theorem decode_su (indexed : Bool) (k : EAddr) : decode true indexed (0o60000 + k.setWidth 15) = .su k := by
  have hword : 0o60000 + k.setWidth 15 = encode 0 (.su k) := ofNat_add_setWidth_eq_word10 6 0 k
  rw [hword]
  exact Laws.RoundTrip.su k 0 indexed rfl rfl nofun

/-- Settles O41: the four instructions by the shape they share, their words by the decoder's table. -/
theorem accumulatorTakesOperand : Obligations.AccumulatorTakesOperand :=
  ⟨fun _ _ hs =>
    ⟨fun _ hp => ⟨exec_ca_loadedA hs hp, exec_cs_loadedA hs hp, exec_ad_loadedA hs hp⟩, fun _ hp => exec_su_loadedA hs hp⟩,
    fun indexed => ⟨fun k => ⟨decode_ca indexed k, decode_cs indexed k, decode_ad indexed k⟩, decode_su indexed⟩⟩

end Sys2Proof.Machine
end

section
/-!
PROOF. XCH, LXCH, QXCH (spec/42_load_store_exchange.md R253, R255, R256). The model's three exchanges are one operation at A, L or Q;
what it leaves in the register and in the operand is proved once, for any 16-bit register.
-/

namespace Sys2Proof.Machine

/-- The register `r` and the word at `p` exchanged, with one write to `p`: `exchangeA`, `exchangeL`, `exchangeQ` at their
registers. -/
def exchangeWith (r : Place) (s : State) (p : Place) : State :=
  let t := putWide s p (getWide s r)
  if p = r then t else putWide t r (getWide s p)

theorem exchangeA_eq (s : State) (p : Place) : exchangeA s p = exchangeWith .a s p := rfl

theorem exchangeL_eq (s : State) (p : Place) : exchangeL s p = exchangeWith .l s p := rfl

theorem exchangeQ_eq (s : State) (p : Place) : exchangeQ s p = exchangeWith .q s p := rfl

theorem exchangeWith_self (r : Place) (s : State) : exchangeWith r s r = putWide s r (getWide s r) := if_pos rfl

theorem exchangeWith_of_ne {r p : Place} (hne : p ≠ r) (s : State) :
    exchangeWith r s p = putWide (putWide s p (getWide s r)) r (getWide s p) := if_neg hne

/-- A 16-bit register takes all of a value (R93). -/
theorem getWide_putWide_of_is16 {r : Place} (hr : r.is16 = true) (s : State) (v : Wide) : getWide (putWide s r v) r = v := by
  cases r with
  | a | l | q => rfl
  | eb | fb | z | bb | zero | core _ | fixed _ => cases hr

/-- A 16-bit register shares no state with another place. -/
theorem Place.apartFrom_of_is16 {r x : Place} (hr : r.is16 = true) (hne : x ≠ r) : x.apartFrom [r] = true := by
  cases r with
  | a => exact Place.apartFrom_a hne
  | l => exact Place.apartFrom_l hne
  | q => exact Place.apartFrom_q hne
  | eb | fb | z | bb | zero | core _ | fixed _ => cases hr

theorem getWide_exchangeWith_register {r : Place} (hr : r.is16 = true) (s : State) (p : Place) :
    getWide (exchangeWith r s p) r = getWide s p := by
  by_cases hp : p = r
  · rw [hp, exchangeWith_self, getWide_putWide_of_is16 hr]
  · rw [exchangeWith_of_ne hp, getWide_putWide_of_is16 hr]

theorem getWide_exchangeWith_operand {r : Place} (hr : r.is16 = true) {s : State} (h : s.erasable.wf = true) (p : Place) :
    getWide (exchangeWith r s p) p = storedAs s (getWide s r) p := by
  by_cases hp : p = r
  · rw [hp, exchangeWith_self, getWide_putWide h]
  · have hkept := (unchangedBut_putWide (putWide s p (getWide s r)) r (getWide s p)).places p (Place.apartFrom_of_is16 hr hp)
    rw [exchangeWith_of_ne hp, hkept, getWide_putWide h]

theorem unchangedBut_exchangeWith (r : Place) (s : State) (p : Place) : UnchangedBut [r, p] s (exchangeWith r s p) := by
  have hstore := unchangedBut_putWide s p (getWide s r)
  by_cases hp : p = r
  · subst hp
    rw [exchangeWith_self]
    exact hstore.mono (by simp)
  · rw [exchangeWith_of_ne hp]
    exact (hstore.trans (unchangedBut_putWide _ r _)).mono (by simp)

/-- The shape XCH, LXCH and QXCH share: register and operand exchanged, nothing else changed. -/
theorem onOperand_exchangeWith {r : Place} (hr : r.is16 = true) {s : State} (hs : Coherent s) {k : Addr} {p : Place}
    (hp : locate s k = .ok p) :
    ∃ t, onOperand s k (exchangeWith r s) = .next t ∧ getWide t r = getWide s p ∧
      getWide t p = storedAs s (getWide s r) p ∧ UnchangedBut [r, p] s t :=
  ⟨_, onOperand_of_locate hp _, getWide_exchangeWith_register hr s p, getWide_exchangeWith_operand hr hs.erasable_wf p,
    unchangedBut_exchangeWith r s p⟩

theorem exec_xch (k : EAddr) (s : State) : exec (.xch k) s = onOperand s (erasableAddr k) (exchangeWith .a s) := rfl

theorem exec_lxch (k : EAddr) (s : State) : exec (.lxch k) s = onOperand s (erasableAddr k) (exchangeWith .l s) := rfl

theorem exec_qxch (k : EAddr) (s : State) : exec (.qxch k) s = onOperand s (erasableAddr k) (exchangeWith .q s) := rfl

theorem decode_xch (indexed : Bool) (k : EAddr) : decode false indexed (0o56000 + k.setWidth 15) = .xch k := by
  have hword : 0o56000 + k.setWidth 15 = encode 0 (.xch k) := ofNat_add_setWidth_eq_word10 5 3 k
  rw [hword]
  exact Laws.RoundTrip.xch k 0 indexed rfl rfl nofun

theorem decode_lxch (indexed : Bool) (k : EAddr) :
    decode false indexed (0o22000 + k.setWidth 15) = if k = 7 then .zl else .lxch k := by
  have hword : 0o22000 + k.setWidth 15 = word10 2 1 k := ofNat_add_setWidth_eq_word10 2 1 k
  rw [hword]
  simp [decode, decodeBasic, decodeBasic2]

theorem decode_qxch (indexed : Bool) (k : EAddr) :
    decode true indexed (0o22000 + k.setWidth 15) = if k = 7 then .zq else .qxch k := by
  have hword : 0o22000 + k.setWidth 15 = word10 2 1 k := ofNat_add_setWidth_eq_word10 2 1 k
  rw [hword]
  simp [decode, decodeExtra, decodeExtra2]

/-- Settles O47: the shape the three share at A, L and Q, and their words by the decoder's table. -/
theorem exchanges : Obligations.Exchanges := by
  refine ⟨fun s k p hs hp => ?_, fun indexed k => ⟨decode_xch indexed k, decode_lxch indexed k, decode_qxch indexed k⟩⟩
  rw [exec_xch, exec_lxch, exec_qxch]
  exact ⟨onOperand_exchangeWith rfl hs hp, onOperand_exchangeWith rfl hs hp, onOperand_exchangeWith rfl hs hp⟩

end Sys2Proof.Machine
end

section
/-!
PROOF. NOOP in erasable memory, COM, DOUBLE, ZL, ZQ (spec/42_load_store_exchange.md R232, R235, R262, R263; 43_arithmetic.md R272):
what each does to its register, and its one word as the general instruction's word at K = 0 or K = 7.
-/

namespace Sys2Proof.Machine

/-- A takes itself, which is no change (R232). -/
theorem exec_noopErasable (s : State) : exec .noopErasable s = .next s := rfl

theorem exec_com (s : State) : exec .com s = .next { s with a := ~~~s.a } := rfl

theorem exec_double (s : State) : exec .double s = .next { s with a := add16 s.a s.a } := rfl

/-- Address 7 reads as +0 and discards the store of L (R255, R262). -/
theorem exec_zl (s : State) : exec .zl s = .next { s with l := 0 } := rfl

/-- Address 7 reads as +0 and discards the store of Q (R256, R263). -/
theorem exec_zq (s : State) : exec .zq s = .next { s with q := 0 } := rfl

/-- Settles O43: the five effects, and the five words as the cases K = 0 of CA, CS, AD and K = 7 of LXCH, QXCH. -/
theorem registerForms : Obligations.RegisterForms :=
  ⟨fun s => ⟨exec_noopErasable s, exec_com s, exec_double s, exec_zl s, exec_zq s⟩,
    fun indexed => ⟨decode_ca indexed 0, decode_cs indexed 0, decode_ad indexed 0, decode_lxch indexed 7,
      decode_qxch indexed 7⟩⟩

end Sys2Proof.Machine
end

section
/-!
PROOF. ADS (spec/43_arithmetic.md R274): `addToStorage` puts the sum into A and then into the operand; the second write leaves A
holding the sum, whether the operand is A or another place.
-/

namespace Sys2Proof.Machine

/-- No write to another place reaches A. -/
theorem Place.a_apartFrom {p : Place} (hp : p ≠ .a) : Place.a.apartFrom [p] = true := by
  cases p with
  | a => exact absurd rfl hp
  | l | q | eb | fb | z | bb | zero | core _ | fixed _ => rfl

theorem putWide_a_of_ne {p : Place} (hp : p ≠ .a) (s : State) (v : Wide) : (putWide s p v).a = s.a :=
  (unchangedBut_putWide s p v).places .a (Place.a_apartFrom hp)

/-- What a store leaves in a place does not depend on A. -/
theorem storedAs_setA (s : State) (u v : Wide) (p : Place) : storedAs (s.setA u) v p = storedAs s v p := by
  cases p <;> rfl

theorem addToStorage_eq (s : State) (p : Place) :
    addToStorage s p = putWide (s.setA (add16 s.a (getWide s p))) p (add16 s.a (getWide s p)) := rfl

theorem addToStorage_a (s : State) (p : Place) : (addToStorage s p).a = add16 s.a (getWide s p) := by
  by_cases hp : p = .a
  · subst hp
    rw [addToStorage_eq, putWide_a, setA_a]
  · rw [addToStorage_eq, putWide_a_of_ne hp, setA_a]

theorem getWide_addToStorage {s : State} (h : s.erasable.wf = true) (p : Place) :
    getWide (addToStorage s p) p = storedAs s (add16 s.a (getWide s p)) p := by
  have hA : (s.setA (add16 s.a (getWide s p))).erasable.wf = true := h
  rw [addToStorage_eq, getWide_putWide hA, storedAs_setA]

theorem unchangedBut_addToStorage (s : State) (p : Place) : UnchangedBut [.a, p] s (addToStorage s p) :=
  (unchangedBut_setA s _).trans (unchangedBut_putWide _ p _)

theorem exec_ads (k : EAddr) (s : State) : exec (.ads k) s = onOperand s (erasableAddr k) (addToStorage s) := rfl

theorem decode_ads (indexed : Bool) (k : EAddr) : decode false indexed (0o26000 + k.setWidth 15) = .ads k := by
  have hword : 0o26000 + k.setWidth 15 = encode 0 (.ads k) := ofNat_add_setWidth_eq_word10 2 3 k
  rw [hword]
  exact Laws.RoundTrip.ads k 0 indexed rfl rfl nofun

end Sys2Proof.Machine

namespace Sys2Proof

open Machine

/-- Settles O49: at the operand found, the sum in A, the sum as stored in the operand, and the frame of the two writes; the words
by the round trip of the encoding. It stands outside `Machine`, where its name is the operation's. -/
theorem addToStorage : Obligations.AddToStorage :=
  ⟨fun s k p hs hp => ⟨_, (exec_ads k s).trans (onOperand_of_locate hp _), addToStorage_a s p,
    getWide_addToStorage hs.erasable_wf p, unchangedBut_addToStorage s p⟩, decode_ads⟩

end Sys2Proof
end

section
/-!
PROOF. MASK (spec/44_logic_io.md R320): the mask by the three 16-bit registers by name, and its word by the round trip of the
encoding.
-/

namespace Sys2Proof.Machine

theorem Place.is16_eq_true_iff (p : Place) : p.is16 = true ↔ p = .a ∨ p = .l ∨ p = .q := by
  rw [← Bool.not_eq_false, p.is16_eq_false_iff]
  tauto

theorem maskedWith_eq (s : State) (p : Place) :
    maskedWith s p = if p = .a ∨ p = .l ∨ p = .q then s.a &&& getWide s p else sx16 (ovc s.a &&& getWord s p) :=
  if_congr p.is16_eq_true_iff rfl rfl

theorem exec_mask (k : Addr) (s : State) : exec (.mask k) s = onOperand s k fun p => s.setA (maskedWith s p) := rfl

theorem exec_mask_of_locate {s : State} {k : Addr} {p : Place} (hp : locate s k = .ok p) :
    exec (.mask k) s = .next { s with
      a := if p = .a ∨ p = .l ∨ p = .q then s.a &&& getWide s p else sx16 (ovc s.a &&& getWord s p) } := by
  rw [exec_mask, onOperand_of_locate hp, maskedWith_eq, State.setA]

theorem decode_mask (indexed : Bool) (k : Addr) : decode false indexed (0o70000 + k.setWidth 15) = .mask k := by
  have hword : 0o70000 + k.setWidth 15 = encode 0 (.mask k) := ofNat_add_setWidth_eq_word12 7 k
  rw [hword]
  exact Laws.RoundTrip.mask k 0 indexed rfl rfl nofun

/-- Settles O56: one write to A at the operand found, and the words of MASK by the round trip of the encoding. -/
theorem maskOperand : Obligations.MaskOperand := ⟨fun _ _ _ hp => exec_mask_of_locate hp, decode_mask⟩

end Sys2Proof.Machine
end

section
/-!
PROOF. READ, RAND, ROR, RXOR (spec/44_logic_io.md R323, R325, R327, R329). The last three are one combination of A and a channel at
three operations; its value on channels 1, 2 and the others is worked out once, for any operation.
-/

namespace Sys2Proof.Machine

/-- A combined with L on channel 1, with Q on channel 2, in 16 bits each, and in 15 bits with any other channel. -/
theorem combine_eq (op16 : Wide → Wide → Wide) (op15 : Word → Word → Word) (s : State) (c : Chan) :
    combine op16 op15 s c =
      if c = 1 then op16 s.a s.l else if c = 2 then op16 s.a s.q else sx16 (op15 (ovc s.a) (s.channels.read c.toNat)) := by
  by_cases hl : c = 1
  · rw [hl]
    rfl
  · by_cases hq : c = 2
    · rw [hq]
      rfl
    · rw [combine, if_neg (not_or.mpr ⟨hl, hq⟩), if_neg hl, if_neg hq]

theorem exec_read (c : Chan) (s : State) :
    exec (.read c) s =
      .next { s with a := if c = 1 then s.l else if c = 2 then s.q else sx16 (s.channels.read c.toNat) } := rfl

theorem exec_rand (c : Chan) (s : State) :
    exec (.rand c) s = .next { s with
      a := if c = 1 then s.a &&& s.l else if c = 2 then s.a &&& s.q else sx16 (ovc s.a &&& s.channels.read c.toNat) } :=
  congrArg (fun v => Host.Outcome.next (s.setA v)) (combine_eq (· &&& ·) (· &&& ·) s c)

theorem exec_ror (c : Chan) (s : State) :
    exec (.ror c) s = .next { s with
      a := if c = 1 then s.a ||| s.l else if c = 2 then s.a ||| s.q else sx16 (ovc s.a ||| s.channels.read c.toNat) } :=
  congrArg (fun v => Host.Outcome.next (s.setA v)) (combine_eq (· ||| ·) (· ||| ·) s c)

theorem exec_rxor (c : Chan) (s : State) :
    exec (.rxor c) s = .next { s with
      a := if c = 1 then s.a ^^^ s.l else if c = 2 then s.a ^^^ s.q else sx16 (ovc s.a ^^^ s.channels.read c.toNat) } :=
  congrArg (fun v => Host.Outcome.next (s.setA v)) (combine_eq (· ^^^ ·) (· ^^^ ·) s c)

/-- The sum of a peripheral code's octal constant and a channel number is the i/o word with these two fields
(spec/30_encoding.md R121). -/
theorem ofNat_add_setWidth_eq_wordIo (p : BitVec 3) (c : Chan) :
    BitVec.ofNat 15 (512 * p.toNat) + c.setWidth 15 = wordIo p c := by
  apply BitVec.eq_of_toNat_eq
  have hp := p.isLt
  have hc := c.isLt
  rw [toNat_wordIo, BitVec.toNat_add, BitVec.toNat_ofNat, BitVec.toNat_setWidth]
  omega

/-- READ has peripheral code 0, so its word is the channel number alone. -/
theorem decode_read (indexed : Bool) (c : Chan) : decode true indexed (c.setWidth 15) = .read c := by
  have hword : 0#15 + c.setWidth 15 = encode 0 (.read c) := ofNat_add_setWidth_eq_wordIo 0 c
  rw [← BitVec.zero_add (c.setWidth 15), hword]
  exact Laws.RoundTrip.read c 0 indexed rfl rfl nofun

theorem decode_rand (indexed : Bool) (c : Chan) : decode true indexed (0o02000 + c.setWidth 15) = .rand c := by
  have hword : 0o02000 + c.setWidth 15 = encode 0 (.rand c) := ofNat_add_setWidth_eq_wordIo 2 c
  rw [hword]
  exact Laws.RoundTrip.rand c 0 indexed rfl rfl nofun

theorem decode_ror (indexed : Bool) (c : Chan) : decode true indexed (0o04000 + c.setWidth 15) = .ror c := by
  have hword : 0o04000 + c.setWidth 15 = encode 0 (.ror c) := ofNat_add_setWidth_eq_wordIo 4 c
  rw [hword]
  exact Laws.RoundTrip.ror c 0 indexed rfl rfl nofun

theorem decode_rxor (indexed : Bool) (c : Chan) : decode true indexed (0o06000 + c.setWidth 15) = .rxor c := by
  have hword : 0o06000 + c.setWidth 15 = encode 0 (.rxor c) := ofNat_add_setWidth_eq_wordIo 6 c
  rw [hword]
  exact Laws.RoundTrip.rxor c 0 indexed rfl rfl nofun

/-- Settles O57: what each of the four puts into A, and their words by the round trip of the encoding. -/
theorem channelReads : Obligations.ChannelReads :=
  ⟨fun s c => ⟨exec_read c s, exec_rand c s, exec_ror c s, exec_rxor c s⟩,
    fun indexed c => ⟨decode_read indexed c, decode_rand indexed c, decode_ror indexed c, decode_rxor indexed c⟩⟩

end Sys2Proof.Machine
end

section
/-!
PROOF. Interrupt entry (spec/60_exceptions.md R387) as two stores and a jump: the state before the stores already has the request
cleared and InIsr set, so each store's own law gives what it leaves, and the frame is the three frames in a row.
-/

namespace Sys2Proof.Machine

/-- The interrupt acknowledged: its request cleared and InIsr set, nothing saved yet. -/
def acknowledged (n : Rupt) (s : State) : State := { s with inIsr := true, req := s.req.put n false }

/-- The word BRUPT takes from the place `p` that Z leads to: Z itself where `p` is ZRUPT, which has just been written. -/
def bruptWord (s : State) (p : Place) : Word := if p = .core 0o15 then zWord s.z else getWord s p

/-- The state at the vector of interrupt `n`, with Z in ZRUPT and the word `w` in BRUPT. -/
def entered (n : Rupt) (s : State) (w : Word) : State :=
  (putWord (putWord (acknowledged n s) (.core 0o15) (zWord s.z)) (.core 0o17) w).setZ (vector n)

theorem toNat_vector (n : Rupt) : (vector n).toNat = 0o4000 + 4 * ruptNumber n := by cases n <;> rfl

/-- `Write15` at a word of core that does not edit, in one equation over all places. -/
theorem getWord_putWord_core {s : State} (h : s.erasable.wf = true) {i : Nat} (hi : ¬(0o20 ≤ i ∧ i ≤ 0o23)) (w : Word)
    (p : Place) : getWord (putWord s (.core i) w) p = if p = .core i then w else getWord s p := by
  cases p with
  | core j => simp only [putWord, getWord, setErasable_erasable, Memory.read_write h, edit_of_not_editing hi, Place.core.injEq]
  | a | l | q | eb | fb | z | bb | zero | fixed _ => rfl

/-- The model's order: BRUPT is read after ZRUPT is written and before InIsr is set. -/
def zruptSaved (n : Rupt) (s : State) : State := putWord (s.setReq (s.req.put n false)) (.core 0o15) (zWord s.z)

/-- The store of Z moves neither Z nor the banks it is read through. -/
theorem locate_zruptSaved (n : Rupt) (s : State) : locate (zruptSaved n s) (zruptSaved n s).z = locate s s.z :=
  locate_congr rfl rfl rfl s.z

theorem getWord_zruptSaved {s : State} (hs : Coherent s) (n : Rupt) (p : Place) :
    getWord (zruptSaved n s) p = bruptWord s p :=
  getWord_putWord_core (s := s.setReq (s.req.put n false)) hs.erasable_wf (by decide) _ p

/-- Interrupt entry completes wherever Z leads to a place. -/
theorem enterInterrupt_of_locate {s : State} (hs : Coherent s) {p : Place} (hp : locate s s.z = .ok p) (n : Rupt) :
    enterInterrupt n s = .ok (entered n s (bruptWord s p)) := by
  have hz := (locate_zruptSaved n s).trans hp
  rw [← getWord_zruptSaved hs n p]
  simp only [zruptSaved] at hz ⊢
  rw [enterInterrupt, hz]
  rfl

theorem entered_brupt {s : State} (hs : Coherent s) (n : Rupt) (w : Word) : (entered n s w).erasable.read 0o17 = w := by
  have hwf : (putWord (acknowledged n s) (.core 0o15) (zWord s.z)).erasable.wf = true := Memory.wf_write hs.erasable_wf _ _
  exact getWord_putWord_core hwf (by decide) w (.core 0o17)

/-- The store of BRUPT leaves ZRUPT as the first store left it. -/
theorem entered_zrupt {s : State} (hs : Coherent s) (n : Rupt) (w : Word) :
    (entered n s w).erasable.read 0o15 = zWord s.z :=
  calc (entered n s w).erasable.read 0o15
    _ = (putWord (acknowledged n s) (.core 0o15) (zWord s.z)).erasable.read 0o15 := Memory.read_write_other _ _ (by decide)
    _ = zWord s.z := getWord_putWord_core (s := acknowledged n s) hs.erasable_wf (by decide) _ (.core 0o15)

theorem unchangedBut_entered (n : Rupt) (s : State) (w : Word) :
    UnchangedBut [.z, .core 0o15, .core 0o17] (acknowledged n s) (entered n s w) :=
  (((unchangedBut_putWord _ (.core 0o15) _).trans (unchangedBut_putWord _ (.core 0o17) w)).trans
    (unchangedBut_setZ _ (vector n))).mono (by simp)

/-- Settles O16: the entry at the place Z leads to, the two saved words, the vector, and the frame of the two stores and the
jump, which also keeps InIsr and the requests as acknowledged. -/
theorem interruptEntry : Obligations.InterruptEntry := by
  intro n s hs p hp
  have hframe := unchangedBut_entered n s (bruptWord s p)
  exact ⟨_, enterInterrupt_of_locate hs hp n, entered_zrupt hs n _, entered_brupt hs n _, toNat_vector n, hframe.inIsr,
    hframe.req, hframe⟩

end Sys2Proof.Machine
end

section
/-!
PROOF. The round trips of the encoding (spec/30_encoding.md sections 1, 2, 5). One way, per instruction, it is Laws/PerInstr.lean; the
other way, each map of the decoder is shown to answer a reading of its word, by the fields the word is made of.
-/

namespace Sys2Proof

/-- Every instruction has its round trip. -/
theorem Laws.RoundTrip.all (i : Instr) : Laws.RoundTrip.Statement i := by
  cases i with
  | tc k => exact tc k
  | xxalq => exact xxalq
  | xlq => exact xlq
  | ret => exact ret
  | relint => exact relint
  | inhint => exact inhint
  | extend => exact extend
  | ccs k => exact ccs k
  | tcf k => exact tcf k
  | noopFixed => exact noopFixed
  | das f => exact das f
  | ddoubl => exact ddoubl
  | lxch k => exact lxch k
  | zl => exact zl
  | incr k => exact incr k
  | ads k => exact ads k
  | ca k => exact ca k
  | noopErasable => exact noopErasable
  | cs k => exact cs k
  | com => exact com
  | index k => exact index k
  | resume => exact resume
  | dxch f => exact dxch f
  | dtcf => exact dtcf
  | dtcb => exact dtcb
  | ts k => exact ts k
  | ovsk => exact ovsk
  | tcaa => exact tcaa
  | xch k => exact xch k
  | ad k => exact ad k
  | double => exact double
  | mask k => exact mask k
  | read kc => exact read kc
  | write kc => exact write kc
  | rand kc => exact rand kc
  | wand kc => exact wand kc
  | ror kc => exact ror kc
  | wor kc => exact wor kc
  | rxor kc => exact rxor kc
  | edrupt kc => exact edrupt kc
  | dv k => exact dv k
  | bzf k => exact bzf k
  | msu k => exact msu k
  | qxch k => exact qxch k
  | zq => exact zq
  | aug k => exact aug k
  | dim k => exact dim k
  | dca f => exact dca f
  | dcs f => exact dcs f
  | dcom => exact dcom
  | indexExt k => exact indexExt k
  | su k => exact su k
  | bzmf k => exact bzmf k
  | mp k => exact mp k
  | square => exact square

/-- Settles O1, by the round trip of each instruction. -/
theorem decodeEncode : Obligations.DecodeEncode := Laws.RoundTrip.all

/-- The instruction is a reading of the word `w` in the set `extracode`, indexed or not: well formed, readable there, and `w` is its
word. -/
structure ReadingOf (extracode indexed : Bool) (w : Word) (i : Instr) : Prop where
  word : ∀ next, encode next i = w
  wellFormed : i.wellFormed = true
  set : i.isExtracode = extracode
  readable : i.readableWhen indexed = true

/-- A 12-bit operand is in fixed memory where the quarter code of its word is not 0 (R124). -/
theorem fixedAddress_addr12 {w : Word} (h : qcField w ≠ 0) : Instr.fixedAddress (addr12 w) = true := by
  have hne : (qcField w).toNat ≠ 0 := fun e => h (BitVec.eq_of_toNat_eq e)
  rw [toNat_qcField] at hne
  rw [Instr.fixedAddress, decide_eq_true_eq, toNat_addr12]
  omega

/-- A word of Code `c`, put together from its 12-bit operand. -/
theorem word12_of_code {w : Word} {c : BitVec 3} (hc : codeField w = c) : word12 c (addr12 w) = w := hc ▸ word12_fields w

/-- A word of Code `c` and quarter code `q`, put together from its 10-bit operand. -/
theorem word10_of_code {w : Word} {c : BitVec 3} {q : BitVec 2} (hc : codeField w = c) (hq : qcField w = q) :
    word10 c q (addr10 w) = w := hc ▸ hq ▸ word10_fields w

/-- The same, with the operand that was tested for. -/
theorem word12_of_operand {w : Word} {c : BitVec 3} {k : Addr} (hc : codeField w = c) (hk : (addr12 w == k) = true) :
    word12 c k = w := eq_of_beq hk ▸ word12_of_code hc

theorem word10_of_operand {w : Word} {c : BitVec 3} {q : BitVec 2} {k : EAddr} (hc : codeField w = c) (hq : qcField w = q)
    (hk : (addr10 w == k) = true) : word10 c q k = w := eq_of_beq hk ▸ word10_of_code hc hq

/-- An i/o word of peripheral code `p`, put together from its channel. -/
theorem wordIo_of_code {w : Word} {p : BitVec 3} (hc : codeField w = 0) (hp : pcField w = p) :
    wordIo p (chanField w) = w := hp ▸ wordIo_fields hc

/-- The eight values of a Code or a peripheral code. -/
theorem code_cases (c : BitVec 3) : c = 0 ∨ c = 1 ∨ c = 2 ∨ c = 3 ∨ c = 4 ∨ c = 5 ∨ c = 6 ∨ c = 7 := by
  revert c; decide

/-- The four values of a quarter code. -/
theorem quarter_cases (q : BitVec 2) : q = 0 ∨ q = 1 ∨ q = 2 ∨ q = 3 := by
  revert q; decide

theorem readingOf_decodeTc {w : Word} (indexed : Bool) (hc : codeField w = 0) :
    ReadingOf false indexed w (decodeTc indexed (addr12 w)) := by
  unfold decodeTc
  split_ifs with h0 h1 h2 h3 h4 h6
  · exact ⟨fun _ => word12_of_operand hc h0, rfl, rfl, rfl⟩
  · exact ⟨fun _ => word12_of_operand hc h1, rfl, rfl, rfl⟩
  · exact ⟨fun _ => word12_of_operand hc h2, rfl, rfl, rfl⟩
  · rw [Bool.and_eq_true] at h3
    exact ⟨fun _ => word12_of_operand hc h3.1, rfl, rfl, h3.2⟩
  · rw [Bool.and_eq_true] at h4
    exact ⟨fun _ => word12_of_operand hc h4.1, rfl, rfl, h4.2⟩
  · rw [Bool.and_eq_true] at h6
    exact ⟨fun _ => word12_of_operand hc h6.1, rfl, rfl, h6.2⟩
  · refine ⟨fun _ => word12_of_code hc, by simp_all [Instr.wellFormed], rfl, ?_⟩
    cases indexed <;> simp_all [Instr.readableWhen]

theorem readingOf_decodeBasic2 {w : Word} (indexed : Bool) (hc : codeField w = 2) :
    ReadingOf false indexed w (decodeBasic2 w) := by
  unfold decodeBasic2
  rcases quarter_cases (qcField w) with hq | hq | hq | hq <;> have hw := word10_of_code hc hq <;> rw [hq]
  · show ReadingOf _ _ _ (if addr10 w == 1 then _ else _)
    split_ifs with hk
    · exact ⟨fun _ => word10_of_operand hc hq hk, rfl, rfl, rfl⟩
    · exact ⟨fun _ => hw, by simpa [Instr.wellFormed] using hk, rfl, rfl⟩
  · show ReadingOf _ _ _ (if addr10 w == 7 then _ else _)
    split_ifs with hk
    · exact ⟨fun _ => word10_of_operand hc hq hk, rfl, rfl, rfl⟩
    · exact ⟨fun _ => hw, by simpa [Instr.wellFormed] using hk, rfl, rfl⟩
  · exact ⟨fun _ => hw, rfl, rfl, rfl⟩
  · exact ⟨fun _ => hw, rfl, rfl, rfl⟩

theorem readingOf_decodeBasic5 {w : Word} (indexed : Bool) (hc : codeField w = 5) :
    ReadingOf false indexed w (decodeBasic5 indexed w) := by
  unfold decodeBasic5
  rcases quarter_cases (qcField w) with hq | hq | hq | hq <;> have hw := word10_of_code hc hq <;> rw [hq]
  · show ReadingOf _ _ _ (if addr10 w == 0o17 && !indexed then _ else _)
    split_ifs with hk
    · rw [Bool.and_eq_true] at hk
      exact ⟨fun _ => word10_of_operand hc hq hk.1, rfl, rfl, hk.2⟩
    · refine ⟨fun _ => hw, rfl, rfl, ?_⟩
      cases indexed <;> simp_all [Instr.readableWhen]
  · show ReadingOf _ _ _ (if addr10 w == 5 then _ else if addr10 w == 6 then _ else _)
    split_ifs with h5 h6
    · exact ⟨fun _ => word10_of_operand hc hq h5, rfl, rfl, rfl⟩
    · exact ⟨fun _ => word10_of_operand hc hq h6, rfl, rfl, rfl⟩
    · exact ⟨fun _ => hw, by simp_all [Instr.wellFormed], rfl, rfl⟩
  · show ReadingOf _ _ _ (if addr10 w == 0 then _ else if addr10 w == 5 then _ else _)
    split_ifs with h0 h5
    · exact ⟨fun _ => word10_of_operand hc hq h0, rfl, rfl, rfl⟩
    · exact ⟨fun _ => word10_of_operand hc hq h5, rfl, rfl, rfl⟩
    · exact ⟨fun _ => hw, by simp_all [Instr.wellFormed], rfl, rfl⟩
  · exact ⟨fun _ => hw, rfl, rfl, rfl⟩

/-- The basic map reads every word (R124). -/
theorem readingOf_decodeBasic (indexed : Bool) (w : Word) : ReadingOf false indexed w (decodeBasic indexed w) := by
  unfold decodeBasic
  rcases code_cases (codeField w) with hc | hc | hc | hc | hc | hc | hc | hc <;> have hw := word12_of_code hc <;> rw [hc]
  · exact readingOf_decodeTc indexed hc
  · show ReadingOf _ _ _ (if qcField w == 0 then _ else _)
    split_ifs with hq
    · exact ⟨fun _ => word10_of_code hc (eq_of_beq hq), rfl, rfl, rfl⟩
    · exact ⟨fun _ => hw, fixedAddress_addr12 (by simpa using hq), rfl, rfl⟩
  · exact readingOf_decodeBasic2 indexed hc
  · show ReadingOf _ _ _ (if addr12 w == 0 then _ else _)
    split_ifs with hk
    · exact ⟨fun _ => word12_of_operand hc hk, rfl, rfl, rfl⟩
    · exact ⟨fun _ => hw, by simpa [Instr.wellFormed] using hk, rfl, rfl⟩
  · show ReadingOf _ _ _ (if addr12 w == 0 then _ else _)
    split_ifs with hk
    · exact ⟨fun _ => word12_of_operand hc hk, rfl, rfl, rfl⟩
    · exact ⟨fun _ => hw, by simpa [Instr.wellFormed] using hk, rfl, rfl⟩
  · exact readingOf_decodeBasic5 indexed hc
  · show ReadingOf _ _ _ (if addr12 w == 0 then _ else _)
    split_ifs with hk
    · exact ⟨fun _ => word12_of_operand hc hk, rfl, rfl, rfl⟩
    · exact ⟨fun _ => hw, by simpa [Instr.wellFormed] using hk, rfl, rfl⟩
  · exact ⟨fun _ => hw, rfl, rfl, rfl⟩

theorem readingOf_decodeIo {w : Word} (indexed : Bool) (hc : codeField w = 0) :
    ReadingOf true indexed w (decodeIo w) := by
  unfold decodeIo
  rcases code_cases (pcField w) with hp | hp | hp | hp | hp | hp | hp | hp <;> have hw := wordIo_of_code hc hp <;> rw [hp] <;>
    exact ⟨fun _ => hw, rfl, rfl, rfl⟩

theorem readingOf_decodeExtra2 {w : Word} (indexed : Bool) (hc : codeField w = 2) :
    ReadingOf true indexed w (decodeExtra2 w) := by
  unfold decodeExtra2
  rcases quarter_cases (qcField w) with hq | hq | hq | hq <;> have hw := word10_of_code hc hq <;> rw [hq]
  · exact ⟨fun _ => hw, rfl, rfl, rfl⟩
  · show ReadingOf _ _ _ (if addr10 w == 7 then _ else _)
    split_ifs with hk
    · exact ⟨fun _ => word10_of_operand hc hq hk, rfl, rfl, rfl⟩
    · exact ⟨fun _ => hw, by simpa [Instr.wellFormed] using hk, rfl, rfl⟩
  · exact ⟨fun _ => hw, rfl, rfl, rfl⟩
  · exact ⟨fun _ => hw, rfl, rfl, rfl⟩

/-- The extracode map reads every word (R125). -/
theorem readingOf_decodeExtra (indexed : Bool) (w : Word) : ReadingOf true indexed w (decodeExtra w) := by
  unfold decodeExtra
  rcases code_cases (codeField w) with hc | hc | hc | hc | hc | hc | hc | hc <;> have hw := word12_of_code hc <;> rw [hc]
  · exact readingOf_decodeIo indexed hc
  · show ReadingOf _ _ _ (if qcField w == 0 then _ else _)
    split_ifs with hq
    · exact ⟨fun _ => word10_of_code hc (eq_of_beq hq), rfl, rfl, rfl⟩
    · exact ⟨fun _ => hw, fixedAddress_addr12 (by simpa using hq), rfl, rfl⟩
  · exact readingOf_decodeExtra2 indexed hc
  · exact ⟨fun _ => hw, rfl, rfl, rfl⟩
  · show ReadingOf _ _ _ (if addr12 w == 1 then _ else _)
    split_ifs with hk
    · exact ⟨fun _ => word12_of_operand hc hk, rfl, rfl, rfl⟩
    · exact ⟨fun _ => hw, by simpa [Instr.wellFormed] using hk, rfl, rfl⟩
  · exact ⟨fun _ => hw, rfl, rfl, rfl⟩
  · show ReadingOf _ _ _ (if qcField w == 0 then _ else _)
    split_ifs with hq
    · exact ⟨fun _ => word10_of_code hc (eq_of_beq hq), rfl, rfl, rfl⟩
    · exact ⟨fun _ => hw, fixedAddress_addr12 (by simpa using hq), rfl, rfl⟩
  · show ReadingOf _ _ _ (if addr12 w == 0 then _ else _)
    split_ifs with hk
    · exact ⟨fun _ => word12_of_operand hc hk, rfl, rfl, rfl⟩
    · exact ⟨fun _ => hw, by simpa [Instr.wellFormed] using hk, rfl, rfl⟩

/-- What the decoder answers is a reading of its word, in either set. -/
theorem readingOf_decode (extracode indexed : Bool) (w : Word) : ReadingOf extracode indexed w (decode extracode indexed w) := by
  cases extracode with
  | false => exact readingOf_decodeBasic indexed w
  | true => exact readingOf_decodeExtra indexed w

/-- Settles O2: what the decoder answers is a reading of its word. -/
theorem encodeDecode : Obligations.EncodeDecode := fun extracode indexed w next =>
  have h := readingOf_decode extracode indexed w
  ⟨h.word next, h.wellFormed, h.set, h.readable⟩

/-- Settles O3: twelve closed words, evaluated. -/
theorem knownWords : Obligations.KnownWords := by
  unfold Obligations.KnownWords
  decide

end Sys2Proof
end

section
/-!
PROOF. EXTEND, RELINT, INHINT (spec/40_sequence_control.md R165, R168, R169), and the words that are read as them and as RESUME: by the
round trips, an instruction is read from its own word alone, and only where it is readable.
-/

namespace Sys2Proof.Machine

/-- Where no fixed-memory NOOP is involved, a basic instruction that is readable there is read from its own word and from no
other. -/
theorem decode_false_eq_iff {i : Instr} (hi : i ≠ .noopFixed) (hw : i.wellFormed = true) (hx : i.isExtracode = false)
    {indexed : Bool} (hr : i.readableWhen indexed = true) (w : Word) : decode false indexed w = i ↔ w = encode 0 i := by
  constructor
  · intro h
    rw [← h]
    exact ((readingOf_decode false indexed w).word 0).symm
  · rintro rfl
    have h := Laws.RoundTrip.all i 0 indexed hw hr fun e => absurd e hi
    rwa [if_neg hi, hx] at h

/-- An instruction that is not readable there is not read there. -/
theorem decode_ne_of_not_readable {i : Instr} {indexed : Bool} (hr : i.readableWhen indexed = false) (extracode : Bool)
    (w : Word) : decode extracode indexed w ≠ i := by
  intro h
  have hread := (readingOf_decode extracode indexed w).readable
  rw [h, hr] at hread
  exact absurd hread (by decide)

theorem exec_extend (s : State) : exec .extend s = .next { s with extracode := true } := rfl

theorem exec_relint (s : State) : exec .relint s = .next { s with inhibit := false } := rfl

theorem exec_inhint (s : State) : exec .inhint s = .next { s with inhibit := true } := rfl

theorem interruptTaken_of_extracode {s : State} (h : s.extracode = true) : interruptTaken s = none := by
  simp [interruptTaken, acceptsInterrupt, h]

theorem interruptTaken_of_inhibit {s : State} (h : s.inhibit = true) : interruptTaken s = none := by
  simp [interruptTaken, acceptsInterrupt, h]

/-- Settles O32: the three effects, the words by the two round trips, and the four indexed words evaluated. -/
theorem flagInstructions : Obligations.FlagInstructions := by
  refine ⟨fun s => ⟨exec_extend s, exec_relint s, exec_inhint s, interruptTaken_of_extracode rfl, interruptTaken_of_inhibit rfl⟩,
    fun w => ⟨?_, ?_, ?_, ?_⟩, fun w => ⟨?_, ?_, ?_, ?_⟩, by decide, by decide, by decide, by decide⟩
  · exact decode_false_eq_iff (i := .relint) nofun rfl rfl rfl w
  · exact decode_false_eq_iff (i := .inhint) nofun rfl rfl rfl w
  · exact decode_false_eq_iff (i := .extend) nofun rfl rfl rfl w
  · exact decode_false_eq_iff (i := .resume) nofun rfl rfl rfl w
  · exact decode_ne_of_not_readable rfl false w
  · exact decode_ne_of_not_readable rfl false w
  · exact decode_ne_of_not_readable rfl false w
  · exact decode_ne_of_not_readable rfl false w

end Sys2Proof.Machine
end

section
/-!
PROOF. What one action of the environment can change (spec/45_unprogrammed_sequences.md R350, R364, R367): counters, channels and requests,
and a request only by being made; GOJ apart, which is an equation. The frame is proved for the shared updates, then per action.
-/

namespace Sys2Proof.Machine

/-- A latch after one latch was set to a value. -/
theorem pending_put (r : Requests) (n m : Rupt) (b : Bool) : (r.put n b).pending m = if m = n then b else r.pending m := by
  cases n <;> cases m <;> rfl

theorem pending_put_true {r : Requests} {m : Rupt} (h : r.pending m = true) (n : Rupt) : (r.put n true).pending m = true := by
  rw [pending_put, h, ite_self]

/-- At most counters, channels and newly made requests differ between `s` and `t`. -/
structure CountersOnly (s t : State) : Prop where
  core : ∀ i, (i < 0o24 ∨ 0o60 < i) → t.erasable.read i = s.erasable.read i := by exact fun _ _ => rfl
  req : ∀ n, s.req.pending n = true → t.req.pending n = true := by exact fun _ h => h
  a : t.a = s.a := by rfl
  l : t.l = s.l := by rfl
  q : t.q = s.q := by rfl
  z : t.z = s.z := by rfl
  eb : t.eb = s.eb := by rfl
  fb : t.fb = s.fb := by rfl
  fixed : t.fixed = s.fixed := by rfl
  vehicle : t.vehicle = s.vehicle := by rfl
  extracode : t.extracode = s.extracode := by rfl
  inhibit : t.inhibit = s.inhibit := by rfl
  inIsr : t.inIsr = s.inIsr := by rfl
  indexPending : t.indexPending = s.indexPending := by rfl
  indexValue : t.indexValue = s.indexValue := by rfl
  substitute : t.substitute = s.substitute := by rfl

theorem CountersOnly.refl (s : State) : CountersOnly s s := {}

/-- A counter written. -/
theorem CountersOnly.setCore {s t : State} (h : CountersOnly s t) {i : Nat} (hi : 0o24 ≤ i ∧ i ≤ 0o60) (w : Word) :
    CountersOnly s (setCore t i w) :=
  { h with core := fun j hj => (Memory.read_write_other _ w (by omega)).trans (h.core j hj) }

theorem CountersOnly.setChannelWord {s t : State} (h : CountersOnly s t) (c : Nat) (w : Word) :
    CountersOnly s (setChannelWord t c w) := { h with }

theorem CountersOnly.requestInterrupt {s t : State} (h : CountersOnly s t) (n : Rupt) :
    CountersOnly s (requestInterrupt n t) :=
  { h with req := fun m hm => pending_put_true (h.req m hm) n }

theorem CountersOnly.counterOverflow {s t : State} (h : CountersOnly s t) (i : Nat) : CountersOnly s (counterOverflow i t) := by
  rcases counterOverflow_cases i t with ⟨-, he⟩ | ⟨n, -, he⟩ | ⟨-, he⟩ <;> rw [he]
  · exact h.setCore (by decide) _
  · exact h.requestInterrupt n
  · exact h

theorem CountersOnly.pinc (s : State) {i : Nat} (hi : 0o24 ≤ i ∧ i ≤ 0o60) : CountersOnly s (pinc i s) := by
  have h := (CountersOnly.refl s).setCore hi (pincWord (s.erasable.read i))
  unfold Sys2Proof.Machine.pinc
  split
  · exact h.counterOverflow i
  · exact h

theorem CountersOnly.dinc (s : State) : CountersOnly s (dinc s) := by
  have h := (CountersOnly.refl s).setCore (i := 0o31) (by decide) (dincWord (s.erasable.read 0o31))
  unfold Sys2Proof.Machine.dinc
  dsimp only
  split_ifs
  · exact (h.requestInterrupt .t6rupt).setChannelWord _ _
  · exact h
  · exact .refl s

theorem CountersOnly.shiftCounter (s : State) (c : ShiftCounter) (b : Word) : CountersOnly s (shiftCounter c b s) := by
  have h := (CountersOnly.refl s).setCore (i := shiftAddress c) (by cases c <;> decide)
    (s.erasable.read (shiftAddress c) + s.erasable.read (shiftAddress c) + b)
  unfold Sys2Proof.Machine.shiftCounter
  dsimp only
  split_ifs
  · exact h.requestInterrupt _
  · exact h

theorem CountersOnly.scalerTick (s : State) : CountersOnly s (scalerTick s) := by
  have h := (CountersOnly.refl s).setChannelWord 4 (pincWord (s.channels.read 4))
  unfold Sys2Proof.Machine.scalerTick
  dsimp only
  split_ifs
  · exact h.setChannelWord _ _
  · exact h

/-- An action done only under its condition. -/
theorem CountersOnly.ite {s t : State} (h : CountersOnly s t) (c : Prop) [Decidable c] : CountersOnly s (if c then t else s) := by
  split
  · exact h
  · exact .refl s

theorem CountersOnly.rhcDeposit (s : State) (c : RhcAxis) (w : Word) (outOfDetent : Bool) :
    CountersOnly s (applyAction (.rhcDeposit c w outOfDetent) s) := by
  have h := (CountersOnly.refl s).setCore (i := rhcAddress c) (by cases c <;> decide) w
  refine CountersOnly.ite ?_ _
  cases outOfDetent with
  | true => exact h.setChannelWord _ _
  | false => exact h

/-- Every action but GOJ. -/
theorem countersOnly_applyAction {e : EnvAction} (he : ∀ inhibit req, e ≠ .goj inhibit req) (s : State) :
    CountersOnly s (applyAction e s) := by
  have h := CountersOnly.refl s
  cases e with
  | pincTime c => exact .pinc s (by cases c <;> decide)
  | pincPulse c => exact (CountersOnly.pinc s (by cases c <;> decide)).ite _
  | minc c => exact (h.setCore (by cases c <;> decide) _).ite _
  | pcdu c => exact h.setCore (by cases c <;> decide) _
  | mcdu c => exact h.setCore (by cases c <;> decide) _
  | dinc => exact .dinc s
  | shinc c => exact .shiftCounter s c 0
  | shanc c => exact .shiftCounter s c 1
  | goj inhibit req => exact absurd rfl (he inhibit req)
  | uplinkWord w => exact (h.setCore (by decide) w).requestInterrupt .uprupt
  | rhcDeposit c w outOfDetent => exact .rhcDeposit s c w outOfDetent
  | gyroDrain left => exact (h.setCore (by decide) left).ite _
  | cduCmdDrain axis zeroed => exact (h.setCore (by cases axis <;> decide) 0).ite _
  | scalerTick => exact .scalerTick s
  | setChannel c w => exact (h.setChannelWord _ w).ite _
  | keystroke1 | keystroke2 | downlinkReady | rupt10Event => exact h.requestInterrupt _

/-- Settles O13: GOJ by its equation, every other action by the frame of counters, channels and requests made. -/
theorem environmentFrame : Obligations.EnvironmentFrame := by
  intro e s
  by_cases he : ∃ inhibit req, e = .goj inhibit req
  · obtain ⟨inhibit, req, rfl⟩ := he
    exact ⟨⟨rfl, rfl, rfl, rfl, rfl, rfl, rfl, fun _ _ => rfl⟩, fun h => absurd rfl (h inhibit req), fun i r hir => by
      injection hir with hi hr; rw [← hi, ← hr]; rfl⟩
  · have hne : ∀ inhibit req, e ≠ .goj inhibit req := fun i r hir => he ⟨i, r, hir⟩
    have h := countersOnly_applyAction hne s
    exact ⟨⟨h.a, h.l, h.q, h.eb, h.fb, h.fixed, h.vehicle, h.core⟩,
      fun _ => ⟨h.z, h.extracode, h.inhibit, h.inIsr, h.indexPending, h.indexValue, h.substitute, h.req⟩,
      fun i r hir => absurd hir (hne i r)⟩

end Sys2Proof.Machine
end

section
/-!
PROOF. What one instruction can change, said once for all of them (`Effect`): registers and erasable core only, but for the few
instructions that touch the hidden state, a channel or a request. The statements about who may change what, and that every step
keeps the state coherent, are read off it.
-/

namespace Sys2Proof.Machine

/-- A memory in the form of erasable core: canonical, no key outside core. -/
structure CoreForm (m : Memory) : Prop where
  wf : m.wf = true
  keys : m.keysSatisfy erasableKey = true

/-- A store at the place keeps the form of erasable core. -/
def Place.Writable (p : Place) : Prop := ∀ i, p = .core i → erasableKey i = true

/-- At most the registers A, L, Q, Z, EB, FB, words of erasable core and the count of free values differ between `s` and `t`. -/
structure StorageOnly (s t : State) : Prop where
  core : CoreForm s.erasable → CoreForm t.erasable := by exact id
  fixed : t.fixed = s.fixed := by rfl
  channels : t.channels = s.channels := by rfl
  extracode : t.extracode = s.extracode := by rfl
  inhibit : t.inhibit = s.inhibit := by rfl
  inIsr : t.inIsr = s.inIsr := by rfl
  indexPending : t.indexPending = s.indexPending := by rfl
  indexValue : t.indexValue = s.indexValue := by rfl
  substitute : t.substitute = s.substitute := by rfl
  req : t.req = s.req := by rfl
  vehicle : t.vehicle = s.vehicle := by rfl

theorem StorageOnly.refl (s : State) : StorageOnly s s := {}

theorem StorageOnly.setA {s t : State} (h : StorageOnly s t) (v : Wide) : StorageOnly s (t.setA v) := { h with }
theorem StorageOnly.setL {s t : State} (h : StorageOnly s t) (v : Wide) : StorageOnly s (t.setL v) := { h with }
theorem StorageOnly.setQ {s t : State} (h : StorageOnly s t) (v : Wide) : StorageOnly s (t.setQ v) := { h with }
theorem StorageOnly.setZ {s t : State} (h : StorageOnly s t) (v : Addr) : StorageOnly s (t.setZ v) := { h with }
theorem StorageOnly.setDraws {s t : State} (h : StorageOnly s t) (n : Nat) : StorageOnly s (t.setDraws n) := { h with }

theorem StorageOnly.putWord {s t : State} (h : StorageOnly s t) {p : Place} (hp : p.Writable) (w : Word) :
    StorageOnly s (putWord t p w) := by
  cases p with
  | core i =>
    exact { h with core := fun hs =>
      ⟨Memory.wf_write (h.core hs).wf i _, Memory.keysSatisfy_write (h.core hs).keys (hp i rfl) _⟩ }
  | a | l | q | eb | fb | z | bb | zero | fixed _ => exact { h with }

theorem StorageOnly.putWide {s t : State} (h : StorageOnly s t) {p : Place} (hp : p.Writable) (v : Wide) :
    StorageOnly s (putWide t p v) := by
  cases p with
  | a => exact h.setA v
  | l => exact h.setL v
  | q => exact h.setQ v
  | eb | fb | z | bb | zero | core _ | fixed _ => exact h.putWord hp (ovc v)

theorem StorageOnly.rewrite {s t : State} (h : StorageOnly s t) {p : Place} (hp : p.Writable) :
    StorageOnly s (rewrite t p) := by
  cases p with
  | a | l | q | fixed _ | zero => exact h
  | eb | fb | z | bb | core _ => exact h.putWord hp _

theorem StorageOnly.ite {s t u : State} (h : StorageOnly s t) (g : StorageOnly s u) (c : Prop) [Decidable c] :
    StorageOnly s (if c then t else u) := by
  split
  · exact h
  · exact g

theorem StorageOnly.exchangeWith {s t : State} (h : StorageOnly s t) {r p : Place} (hr : r.Writable) (hp : p.Writable) :
    StorageOnly s (exchangeWith r t p) :=
  (h.putWide hp _).ite ((h.putWide hp _).putWide hr _) _

theorem StorageOnly.exchangePair {s t : State} (h : StorageOnly s t) {lo hi : Place} (hlo : lo.Writable) (hhi : hi.Writable) :
    StorageOnly s (exchangePair t lo hi) :=
  ((h.exchangeWith (r := .l) nofun hlo).exchangeWith (r := .a) nofun hhi).setL _

theorem StorageOnly.loadPair {s t : State} (h : StorageOnly s t) (f : Wide → Wide) {lo hi : Place} (hlo : lo.Writable)
    (hhi : hi.Writable) : StorageOnly s (loadPair f t lo hi) :=
  ((((h.setL _).rewrite hlo).setA _).rewrite hhi).setL _

theorem StorageOnly.storeA {s t : State} (h : StorageOnly s t) {p : Place} (hp : p.Writable) : StorageOnly s (storeA t p) :=
  (((h.putWide hp _).setA _).setZ _).ite (h.putWide hp _) _

theorem StorageOnly.overflowSkip {s t : State} (h : StorageOnly s t) : StorageOnly s (overflowSkip t) := (h.setZ _).ite h _

theorem StorageOnly.jumpToA {s t : State} (h : StorageOnly s t) : StorageOnly s (jumpToA t) := ((h.setZ _).setA _).ite (h.setZ _) _

theorem StorageOnly.countCompareSkip {s t : State} (h : StorageOnly s t) (v : Wide) : StorageOnly s (countCompareSkip v t) :=
  ((h.setA _).setZ _).ite (((h.setA _).setZ _).ite (((h.setA _).setZ _).ite (h.setA _) _) _) _

theorem StorageOnly.addPairToStorage {s t : State} (h : StorageOnly s t) {lo hi : Place} (hlo : lo.Writable)
    (hhi : hi.Writable) : StorageOnly s (addPairToStorage t lo hi) :=
  (((h.putWide hlo _).putWide hhi _).setL _).setA _

theorem StorageOnly.divide {s t : State} (h : StorageOnly s t) (k : Word) : StorageOnly s (divide t k) :=
  (((h.setA _).setL _).setDraws _).ite ((h.setA _).setL _) _

/-- The same request made in both. -/
theorem StorageOnly.requestInterrupt {s t : State} (h : StorageOnly s t) (n : Rupt) :
    StorageOnly (requestInterrupt n s) (requestInterrupt n t) :=
  { h with req := congrArg (Requests.put · n true) h.req }

/-- TIME6 at zero in both. -/
theorem StorageOnly.time6Zero {s t : State} (h : StorageOnly s t) : StorageOnly (time6Zero s) (time6Zero t) :=
  { h.requestInterrupt .t6rupt with
    channels := congrArg (fun m : Memory => m.write 0o13 (m.read 0o13 &&& 0o37777)) h.channels }

/-- The state INDEX prepares before it rewrites its operand. -/
def withIndex (s : State) (v : Word) (extracode : Bool) : State :=
  { s with indexPending := true, indexValue := v, extracode := extracode }

/-- All that an instruction can do where it completes. -/
inductive Effect (s t : State) : Instr → Prop where
  | storage {i : Instr} (h : StorageOnly s t) : Effect s t i
  | extend (h : t = s.setExtracode true) : Effect s t .extend
  | relint (h : t = s.setInhibit false) : Effect s t .relint
  | inhint (h : t = s.setInhibit true) : Effect s t .inhint
  | resume (h : t = resumeInterrupted s) : Effect s t .resume
  | index {k : EAddr} {v : Word} (h : StorageOnly (withIndex s v false) t) : Effect s t (.index k)
  | indexExt {k : Addr} {v : Word} (h : StorageOnly (withIndex s v true) t) : Effect s t (.indexExt k)
  | write {c : Chan} (h : chWrite s c s.a = .ok t) : Effect s t (.write c)
  | wand {c : Chan} {v : Wide} (h : chWrite (s.setA v) c v = .ok t) : Effect s t (.wand c)
  | wor {c : Chan} {v : Wide} (h : chWrite (s.setA v) c v = .ok t) : Effect s t (.wor c)
  | incr {k : EAddr} {n : Rupt} (h : StorageOnly (requestInterrupt n s) t) : Effect s t (.incr k)
  | aug {k : EAddr} {n : Rupt} (h : StorageOnly (requestInterrupt n s) t) : Effect s t (.aug k)
  | dim (h : StorageOnly (time6Zero s) t) : Effect s t (.dim 0o31)

/-- An instruction with a memory operand that touches storage only. -/
theorem Effect.of_onOperand {s t : State} {i : Instr} {k : Addr} {f : Place → State} (h : onOperand s k f = .next t)
    (hf : ∀ p : Place, p.Writable → StorageOnly s (f p)) : Effect s t i := by
  obtain ⟨p, hp, rfl⟩ := onOperand_next h
  exact .storage (hf p (writable_of_locate hp))

/-- An instruction with a double-word operand that touches storage only. -/
theorem Effect.of_onPair {s t : State} {i : Instr} {k : Addr} {g : Place → Place → State} (h : onPair s k g = .next t)
    (hg : ∀ lo hi : Place, lo.Writable → hi.Writable → StorageOnly s (g lo hi)) : Effect s t i := by
  obtain ⟨lo, hi, hp, rfl⟩ := onPair_next h
  obtain ⟨-, hlo, hhi⟩ := locatePair_cases hp
  exact .storage (hg lo hi (writable_of_locate hlo) (writable_of_locate hhi))

/-- An instruction that always completes and touches storage only. -/
theorem Effect.of_next {s t u : State} {i : Instr} (h : Host.Outcome.next (φ := Fault) (ρ := Refusal) u = .next t)
    (hu : StorageOnly s u) : Effect s t i := by
  injection h with h
  exact .storage (h ▸ hu)

/-- INCR and AUG: storage, or a timer's request besides. -/
theorem storeCount_effect (s : State) (k : EAddr) {p : Place} (hp : p.Writable) (r : Wide) :
    StorageOnly s (storeCount s k p r) ∨ ∃ n, StorageOnly (requestInterrupt n s) (storeCount s k p r) := by
  have hput := (StorageOnly.refl s).putWide hp r
  unfold storeCount
  split
  · rcases instructionOverflow_cases k.toNat (putWide s p r) with ⟨n, -, he⟩ | ⟨-, he⟩ <;> rw [he]
    · exact .inr ⟨n, hput.requestInterrupt n⟩
    · exact .inl hput
  · exact .inl hput

/-- DIM: storage, or TIME6's arrival at zero besides. -/
theorem diminish_effect (s : State) (k : EAddr) {p : Place} (hp : p.Writable) :
    StorageOnly s (diminish s k p) ∨ k = 0o31 ∧ StorageOnly (time6Zero s) (diminish s k p) := by
  have hput := (StorageOnly.refl s).putWide hp (diminished (getWide s p))
  unfold diminish
  dsimp only
  split
  · rename_i hk
    exact .inr ⟨hk.1, hput.time6Zero⟩
  · exact .inl hput

theorem pendIndex_effect (s : State) {p : Place} (hp : p.Writable) (extracode : Bool) :
    StorageOnly (withIndex s (ovc (getWide s p)) extracode) ((pendIndex s p).setExtracode extracode) := by
  have h := (StorageOnly.refl (s.setIndexValue (ovc (getWide s p)))).rewrite hp
  exact { h with indexPending := rfl, extracode := rfl }

/-- Every instruction has one of these effects. -/
theorem effect_of_exec {i : Instr} {s t : State} (h : exec i s = .next t) : Effect s t i := by
  have hs := StorageOnly.refl s
  cases i with
  | tc k => exact .of_next h ((hs.setZ 2).ite ((hs.setQ _).setZ k) _)
  | xxalq => exact .of_next h ((hs.setQ _).setZ 0)
  | xlq => exact .of_next h ((hs.setQ _).setZ 1)
  | ret => exact .of_next h (hs.setZ 2)
  | relint => injection h with h; exact .relint h.symm
  | inhint => injection h with h; exact .inhint h.symm
  | extend => injection h with h; exact .extend h.symm
  | ccs k => exact .of_onOperand h fun p hp => (hs.rewrite hp).countCompareSkip _
  | tcf k => exact .of_next h (hs.setZ k)
  | noopFixed => exact .of_next h (hs.setZ s.z)
  | das f =>
    change (if f = 1 then _ else _) = _ at h
    split at h
    · exact .of_next h ((hs.setL _).setA _)
    · exact .of_onPair h fun lo hi hlo hhi => hs.addPairToStorage hlo hhi
  | ddoubl => exact .of_next h ((hs.setL _).setA _)
  | lxch k => exact .of_onOperand h fun p hp => hs.exchangeWith (r := .l) nofun hp
  | zl => exact .of_next h (hs.setL _)
  | incr k =>
    obtain ⟨p, hp, rfl⟩ := onOperand_next h
    rcases storeCount_effect s k (writable_of_locate hp) (add16 (getWide s p) plusOne) with g | ⟨n, g⟩
    · exact .storage g
    · exact .incr g
  | ads k => exact .of_onOperand h fun p hp => (hs.setA _).putWide hp _
  | ca k => exact .of_onOperand h fun p hp => (hs.setA _).rewrite hp
  | noopErasable => exact .of_next h (hs.setA s.a)
  | cs k => exact .of_onOperand h fun p hp => (hs.setA _).rewrite hp
  | com => exact .of_next h (hs.setA _)
  | index k =>
    obtain ⟨p, hp, rfl⟩ := onOperand_next h
    exact .index (pendIndex_effect s (writable_of_locate hp) false)
  | resume => injection h with h; exact .resume h.symm
  | dxch f => exact .of_onPair h fun lo hi hlo hhi => hs.exchangePair hlo hhi
  | dtcf => exact .of_next h (hs.exchangePair nofun nofun)
  | dtcb => exact .of_next h (hs.exchangePair nofun nofun)
  | ts k =>
    change (if k = 0 then _ else if k = 5 then _ else _) = _ at h
    split at h
    · exact .of_next h hs.overflowSkip
    split at h
    · exact .of_next h hs.jumpToA
    · exact .of_onOperand h fun p hp => hs.storeA hp
  | ovsk => exact .of_next h hs.overflowSkip
  | tcaa => exact .of_next h hs.jumpToA
  | xch k => exact .of_onOperand h fun p hp => hs.exchangeWith (r := .a) nofun hp
  | ad k => exact .of_onOperand h fun p hp => (hs.setA _).rewrite hp
  | double => exact .of_next h (hs.setA _)
  | mask k => exact .of_onOperand h fun p _ => hs.setA _
  | read kc => exact .of_next h (hs.setA _)
  | write kc => exact .write (finish_next h)
  | rand kc => exact .of_next h (hs.setA _)
  | wand kc => exact .wand (finish_next h)
  | ror kc => exact .of_next h (hs.setA _)
  | wor kc => exact .wor (finish_next h)
  | rxor kc => exact .of_next h (hs.setA _)
  | edrupt kc => exact nomatch h
  | dv k => exact .of_onOperand h fun p _ => hs.divide _
  | bzf k => exact .of_next h ((hs.setZ k).ite hs _)
  | msu k => exact .of_onOperand h fun p hp => (hs.setA _).rewrite hp
  | qxch k => exact .of_onOperand h fun p hp => hs.exchangeWith (r := .q) nofun hp
  | zq => exact .of_next h (hs.setQ _)
  | aug k =>
    obtain ⟨p, hp, rfl⟩ := onOperand_next h
    rcases storeCount_effect s k (writable_of_locate hp) (augmented (getWide s p)) with g | ⟨n, g⟩
    · exact .storage g
    · exact .aug g
  | dim k =>
    obtain ⟨p, hp, rfl⟩ := onOperand_next h
    rcases diminish_effect s k (writable_of_locate hp) with g | ⟨rfl, g⟩
    · exact .storage g
    · exact .dim g
  | dca f => exact .of_onPair h fun lo hi hlo hhi => hs.loadPair _ hlo hhi
  | dcs f => exact .of_onPair h fun lo hi hlo hhi => hs.loadPair _ hlo hhi
  | dcom => exact .of_next h (hs.loadPair _ nofun nofun)
  | indexExt k =>
    obtain ⟨p, hp, rfl⟩ := onOperand_next h
    exact .indexExt (pendIndex_effect s (writable_of_locate hp) true)
  | su k => exact .of_onOperand h fun p hp => (hs.setA _).rewrite hp
  | bzmf k => exact .of_next h ((hs.setZ k).ite hs _)
  | mp k => exact .of_onOperand h fun p _ => (hs.setA _).setL _
  | square => exact .of_next h ((hs.setA _).setL _)

/-- A channel write changes L, Q or a channel, nothing else. -/
theorem chWrite_frame {s t : State} {c : Chan} {v : Wide} (h : chWrite s c v = .ok t) :
    t = { s with l := t.l, q := t.q, channels := t.channels } := by
  rcases chWrite_cases h with ⟨-, rfl⟩ | ⟨-, rfl⟩ | ⟨-, -, -, -, rfl⟩ <;> rfl

/-- Settles O10: by the effects, the hidden flags move under their own instructions only. -/
theorem hiddenStateWriters : Obligations.HiddenStateWriters := by
  intro i s t h
  cases effect_of_exec h with
  | storage g | incr g | aug g | dim g =>
    exact ⟨fun e => absurd g.inIsr e, fun e => absurd g.inhibit e, fun e => absurd g.extracode e,
      fun e => absurd g.indexPending e, fun e => absurd g.indexValue e, fun e => absurd g.substitute e⟩
  | extend g =>
    subst g
    exact ⟨absurd rfl, absurd rfl, fun _ => .inl rfl, absurd rfl, absurd rfl, absurd rfl⟩
  | relint g =>
    subst g
    exact ⟨absurd rfl, fun _ => .inl rfl, absurd rfl, absurd rfl, absurd rfl, absurd rfl⟩
  | inhint g =>
    subst g
    exact ⟨absurd rfl, fun _ => .inr rfl, absurd rfl, absurd rfl, absurd rfl, absurd rfl⟩
  | resume g =>
    subst g
    exact ⟨fun _ => rfl, absurd rfl, absurd rfl, absurd rfl, absurd rfl, fun _ => rfl⟩
  | index g =>
    exact ⟨fun e => absurd g.inIsr e, fun e => absurd g.inhibit e, fun _ => .inr (.inl ⟨_, rfl⟩),
      fun _ => .inl ⟨_, rfl⟩, fun _ => .inl ⟨_, rfl⟩, fun e => absurd g.substitute e⟩
  | indexExt g =>
    exact ⟨fun e => absurd g.inIsr e, fun e => absurd g.inhibit e, fun _ => .inr (.inr ⟨_, rfl⟩),
      fun _ => .inr ⟨_, rfl⟩, fun _ => .inr ⟨_, rfl⟩, fun e => absurd g.substitute e⟩
  | write g | wand g | wor g =>
    rw [chWrite_frame g]
    exact ⟨absurd rfl, absurd rfl, absurd rfl, absurd rfl, absurd rfl, absurd rfl⟩

/-- Settles O11: by the effects, the channels move under the three channel writes and DIM of TIME6 only. -/
theorem channelWriters : Obligations.ChannelWriters := by
  intro i s t h hne
  cases effect_of_exec h with
  | storage g | incr g | aug g | index g | indexExt g => exact absurd g.channels hne
  | extend g | relint g | inhint g | resume g => exact absurd (congrArg State.channels g) hne
  | write => exact .inl ⟨_, rfl⟩
  | wand => exact .inr (.inl ⟨_, rfl⟩)
  | wor => exact .inr (.inr (.inl ⟨_, rfl⟩))
  | dim => exact .inr (.inr (.inr rfl))

/-- The requests as one request leaves them: none is cleared. -/
theorem pending_of_requestInterrupt {s t : State} {n : Rupt} (h : t.req = s.req.put n true) (m : Rupt)
    (hm : s.req.pending m = true) : t.req.pending m = true := h ▸ pending_put_true hm n

/-- Settles O12: by the effects, the requests are as they were but under INCR, AUG and DIM of TIME6, which make one. -/
theorem requestWriters : Obligations.RequestWriters := by
  intro i s t h
  have unmoved : t.req = s.req → (∀ n, s.req.pending n = true → t.req.pending n = true) ∧
      (t.req ≠ s.req → (∃ k, i = .incr k) ∨ (∃ k, i = .aug k) ∨ i = .dim 0o31) :=
    fun e => ⟨fun _ hn => e ▸ hn, fun hne => absurd e hne⟩
  cases effect_of_exec h with
  | storage g | index g | indexExt g => exact unmoved g.req
  | extend g | relint g | inhint g | resume g => exact unmoved (congrArg State.req g :)
  | write g | wand g | wor g => exact unmoved (congrArg State.req (chWrite_frame g) :)
  | incr g => exact ⟨pending_of_requestInterrupt g.req, fun _ => .inl ⟨_, rfl⟩⟩
  | aug g => exact ⟨pending_of_requestInterrupt g.req, fun _ => .inr (.inl ⟨_, rfl⟩)⟩
  | dim g => exact ⟨pending_of_requestInterrupt (n := .t6rupt) g.req, fun _ => .inr (.inr rfl)⟩

/-! ### Fixed memory -/

theorem exec_fixed {i : Instr} {s t : State} (h : exec i s = .next t) : t.fixed = s.fixed ∧ t.vehicle = s.vehicle := by
  cases effect_of_exec h with
  | storage g | index g | indexExt g | incr g | aug g | dim g => exact ⟨g.fixed, g.vehicle⟩
  | extend g | relint g | inhint g | resume g => exact ⟨(congrArg State.fixed g :), (congrArg State.vehicle g :)⟩
  | write g | wand g | wor g =>
    exact ⟨(congrArg State.fixed (chWrite_frame g) :), (congrArg State.vehicle (chWrite_frame g) :)⟩

theorem applyActions_fixed (es : List EnvAction) (s : State) :
    (applyActions es s).fixed = s.fixed ∧ (applyActions es s).vehicle = s.vehicle := by
  induction es generalizing s with
  | nil => exact ⟨rfl, rfl⟩
  | cons e rest ih =>
    obtain ⟨⟨-, -, -, -, -, hf, hv, -⟩, -⟩ := environmentFrame e s
    obtain ⟨gf, gv⟩ := ih (applyAction e s)
    exact ⟨gf.trans hf, gv.trans hv⟩

/-- All a boundary can do where it does not stop (R350, R384). -/
theorem boundary_cases {s t : State} (h : boundary s = .ok t) :
    t = environmentActs s ∨ ∃ n, enterInterrupt n (environmentActs s) = .ok t := by
  unfold boundary at h
  split at h
  · exact .inr ⟨_, h⟩
  · injection h with h
    exact .inl h.symm

theorem boundary_fixed {s t : State} (h : boundary s = .ok t) : t.fixed = s.fixed ∧ t.vehicle = s.vehicle := by
  have hacts : (environmentActs s).fixed = s.fixed ∧ (environmentActs s).vehicle = s.vehicle := applyActions_fixed _ _
  rcases boundary_cases h with rfl | ⟨n, hn⟩
  · exact hacts
  · obtain ⟨p, -, rfl⟩ := enterInterrupt_cases hn
    exact hacts

/-- All a step can do where it does not stop: a boundary, a fetch, and the instruction read (R160). -/
theorem step_cases {s t : State} (h : step s = .next t) :
    ∃ u w, boundary s = .ok u ∧ fetchWord u = .ok w ∧ exec (instructionOf u w) (advanced u) = .next t := by
  unfold step at h
  split at h
  · exact nomatch h
  · rename_i u hu
    unfold cycle at h
    split at h
    · exact nomatch h
    · rename_i w hw
      exact ⟨u, w, hu, hw, h⟩

/-- Settles O9: boundary and instruction each leave fixed memory and the vehicle. -/
theorem stepKeepsFixedMemory : Obligations.StepKeepsFixedMemory := by
  intro s t h
  obtain ⟨u, w, hu, -, hi⟩ := step_cases h
  obtain ⟨hf, hv⟩ := boundary_fixed hu
  obtain ⟨gf, gv⟩ := exec_fixed hi
  exact ⟨gf.trans hf, gv.trans hv⟩

/-! ### Coherence -/

theorem Coherent.of_storageOnly {s t : State} (h : Coherent s) (g : StorageOnly s t) : Coherent t := by
  obtain ⟨hwf, hkeys⟩ := g.core ⟨h.erasable_wf, h.erasable_keys⟩
  exact { erasable_wf := hwf
          erasable_keys := hkeys
          fixed_wf := g.fixed ▸ h.fixed_wf
          fixed_keys := g.fixed ▸ h.fixed_keys
          channels_wf := g.channels ▸ h.channels_wf
          channels_keys := g.channels ▸ h.channels_keys
          superbank_bits := g.channels ▸ h.superbank_bits
          index_value := g.indexPending ▸ g.indexValue ▸ h.index_value
          substitute_plain := g.substitute ▸ g.extracode ▸ g.indexPending ▸ h.substitute_plain }

/-- An instruction given no pending hidden state, as step 5 of R160 gives it, leaves a coherent state. -/
theorem Coherent.exec {s t : State} (h : Coherent s) (hx : s.extracode = false) (hp : s.indexPending = false)
    (hs : s.substitute = false) {i : Instr} (ht : exec i s = .next t) : Coherent t := by
  have hidx : ∀ v x, Coherent (withIndex s v x) := fun v x =>
    { h with index_value := nofun, substitute_plain := fun e => absurd (hs.symm.trans e) Bool.false_ne_true }
  cases effect_of_exec ht with
  | storage g => exact h.of_storageOnly g
  | extend g => exact g ▸ { h with substitute_plain := fun e => absurd (hs.symm.trans e) Bool.false_ne_true }
  | relint g => exact g ▸ h.setInhibit false
  | inhint g => exact g ▸ h.setInhibit true
  | resume g => exact g ▸ { h with substitute_plain := fun _ => ⟨hx, hp⟩ }
  | index g => exact (hidx _ _).of_storageOnly g
  | indexExt g => exact (hidx _ _).of_storageOnly g
  | write g => exact h.chWrite g
  | wand g => exact (h.setA _).chWrite g
  | wor g => exact (h.setA _).chWrite g
  | incr g | aug g => exact (h.requestInterrupt _).of_storageOnly g
  | dim g => exact h.time6Zero.of_storageOnly g

theorem Coherent.boundary {s t : State} (h : Coherent s) (ht : boundary s = .ok t) : Coherent t := by
  have hacts : Coherent (environmentActs s) := (h.setSchedule _).applyActions _
  rcases boundary_cases ht with rfl | ⟨n, hn⟩
  · exact hacts
  · exact hacts.enterInterrupt hn

/-- Steps 1 to 4 of R160 consume the pending index with its value, and the other hidden state. -/
theorem Coherent.advanced {s : State} (h : Coherent s) : Coherent (advanced s) :=
  { h with
    index_value := fun _ => by
      show (if s.indexPending then 0 else s.indexValue) = 0
      split
      · rfl
      · rename_i hp
        exact h.index_value (Bool.eq_false_iff.mpr hp)
    substitute_plain := nofun }

/-- Settles O8: the boundary, the consuming of the hidden state and the instruction each keep coherence. -/
theorem stepKeepsCoherent : Obligations.StepKeepsCoherent := by
  intro s t h hst
  obtain ⟨u, w, hu, -, hi⟩ := step_cases hst
  exact (h.boundary hu).advanced.exec rfl rfl rfl hi

/-- Settles O7: every memory is empty and no hidden flag is set. -/
theorem resetCoherent : Obligations.ResetCoherent where
  erasable_wf := rfl
  fixed_wf := rfl
  channels_wf := rfl
  erasable_keys := rfl
  fixed_keys := rfl
  channels_keys := rfl
  superbank_bits := rfl
  index_value _ := rfl
  substitute_plain := nofun

end Sys2Proof.Machine
end

section
/-!
PROOF. Where an address leads, one equation per region (spec/20_memory.md R82-R85, R90), the two words of a double-word operand (R97), and
the stops of the operand forms.
-/

namespace Sys2Proof.Machine

theorem locate_central {k : Addr} (s : State) (h : k.toNat < 0o10) : locate s k = .ok (centralPlace k.toNat) := if_pos h

theorem locate_unswitched {k : Addr} (s : State) (h1 : 0o10 ≤ k.toNat) (h2 : k.toNat < 0o1400) :
    locate s k = .ok (.core k.toNat) := by
  unfold locate
  dsimp only
  rw [if_neg (by omega), if_pos h2]

theorem locate_switchedErasable {k : Addr} (s : State) (h1 : 0o1400 ≤ k.toNat) (h2 : k.toNat < 0o2000) :
    locate s k = locateSwitchedErasable s (k.toNat - 0o1400) := by
  unfold locate
  dsimp only
  rw [if_neg (by omega), if_neg (by omega), if_pos h2]

theorem locate_switchedFixed {k : Addr} (s : State) (h1 : 0o2000 ≤ k.toNat) (h2 : k.toNat < 0o4000) :
    locate s k = locateSwitchedFixed s (k.toNat - 0o2000) := by
  unfold locate
  dsimp only
  rw [if_neg (by omega), if_neg (by omega), if_neg (by omega), if_pos h2]

/-- Fixed-fixed memory: the key is the address itself. -/
theorem locate_fixedFixed {k : Addr} (s : State) (h : 0o4000 ≤ k.toNat) : locate s k = .ok (.fixed k.toNat) := by
  have hkey : fixedKey (k.toNat / 0o2000) (k.toNat % 0o2000) = k.toNat := by unfold fixedKey; omega
  unfold locate
  dsimp only
  rw [if_neg (by omega), if_neg (by omega), if_neg (by omega), if_neg (by omega), hkey]

/-- The window of EB, refused at the registers (R83). -/
theorem locateSwitchedErasable_eq (s : State) (o : Nat) : locateSwitchedErasable s o =
    if s.eb = 0 ∧ o ≤ 0o60 then .error .registerWindow else .ok (.core (s.eb.toNat * 0o400 + o)) := by
  simp [locateSwitchedErasable]

/-- The window of FB under the superbank bit (R85). -/
theorem locateSwitchedFixed_eq (s : State) (o : Nat) : locateSwitchedFixed s o =
    if superbank s = false ∨ s.fb.toNat < 0o30 then .ok (.fixed (s.fb.toNat * 0o2000 + o))
    else if s.fb.toNat ≤ 0o33 then .ok (.fixed ((s.fb.toNat + 0o10) * 0o2000 + o))
    else .error (.nonexistentFixedBank (s.fb.toNat + 0o10)) := by
  simp [locateSwitchedFixed, fixedKey]

theorem centralPlace_eq_getD (n : Nat) :
    centralPlace n = ([.a, .l, .q, .eb, .fb, .z, .bb, .zero] : List Place).getD n .zero := by
  match n with
  | 0 | 1 | 2 | 3 | 4 | 5 | 6 | 7 => rfl
  | _ + 8 => rfl

/-- Settles O25: each clause in its region. -/
theorem addressMap : Obligations.AddressMap := by
  intro s k
  dsimp only
  refine ⟨fun h => ?_, locate_unswitched s, fun h1 h2 he hn => ?_, fun h1 h2 hn => ?_, fun h1 h2 hf => ?_,
    fun h1 h2 hb hl hh => ?_, fun h1 h2 hb hl => ?_, fun h1 h2 => ?_, fun h1 => ?_⟩
  · rw [locate_central s h, centralPlace_eq_getD]
  · rw [locate_switchedErasable s h1 h2, locateSwitchedErasable_eq, if_pos ⟨he, by omega⟩]
  · rw [locate_switchedErasable s h1 h2, locateSwitchedErasable_eq, if_neg, Nat.mul_comm]
    rintro ⟨he, ho⟩
    exact hn.elim (fun h => h he) (fun h => by omega)
  · rw [locate_switchedFixed s h1 h2, locateSwitchedFixed_eq, superbank, if_pos hf, Nat.mul_comm]
  · have hneg : ¬(superbank s = false ∨ s.fb.toNat < 0o30) := by rintro (h | h) <;> [simp_all [superbank]; omega]
    rw [locate_switchedFixed s h1 h2, locateSwitchedFixed_eq, if_neg hneg, if_pos hh, Nat.mul_comm]
  · have hneg : ¬(superbank s = false ∨ s.fb.toNat < 0o30) := by rintro (h | h) <;> [simp_all [superbank]; omega]
    rw [locate_switchedFixed s h1 h2, locateSwitchedFixed_eq, if_neg hneg, if_neg (by omega)]
  · rw [locate_fixedFixed s h1, show 0o2000 * 2 + (k.toNat - 0o4000) = k.toNat by omega]
  · rw [locate_fixedFixed s (by omega), show 0o2000 * 3 + (k.toNat - 0o6000) = k.toNat by omega]

theorem locatePair_zero (s : State) : locatePair s 0 = .error .doubleWordFieldZero := rfl

theorem locatePair_of_locate {s : State} {f : Addr} (hf : f ≠ 0) {lo hi : Place} (hlo : locate s f = .ok lo)
    (hhi : locate s (f - 1) = .ok hi) : locatePair s f = .ok (lo, hi) := by
  rw [locatePair, beq_eq_false_iff_ne.mpr hf, hlo, hhi]
  rfl

theorem locatePair_of_stopLow {s : State} {f : Addr} (hf : f ≠ 0) {e : Refusal} (hlo : locate s f = .error e) :
    locatePair s f = .error e := by
  rw [locatePair, beq_eq_false_iff_ne.mpr hf, hlo]
  rfl

theorem locatePair_of_stopHigh {s : State} {f : Addr} (hf : f ≠ 0) {lo : Place} {e : Refusal} (hlo : locate s f = .ok lo)
    (hhi : locate s (f - 1) = .error e) : locatePair s f = .error e := by
  rw [locatePair, beq_eq_false_iff_ne.mpr hf, hlo, hhi]
  rfl

/-- Settles O26: the four outcomes of a pair, and that its words share no state. -/
theorem pairAddress : Obligations.PairAddress := fun s _ =>
  ⟨locatePair_zero s,
    fun _ _ hf hlo hhi => ⟨locatePair_of_locate hf hlo hhi, locatePair_apart (locatePair_of_locate hf hlo hhi)⟩,
    fun _ hf hlo => locatePair_of_stopLow hf hlo, fun _ _ hf hlo hhi => locatePair_of_stopHigh hf hlo hhi⟩

/-- Field 1 names the pair A, L, which is always found, so DAS stops like any other double-word form. -/
theorem exec_das_of_stop {s : State} {f : EAddr} {e : Refusal} (h : locatePair s (erasableAddr f) = .error e) :
    exec (.das f) s = .refused e := by
  have hf : f ≠ 1 := by
    rintro rfl
    have hfound : locatePair s (erasableAddr 1) = .ok (.l, .a) := rfl
    rw [hfound] at h
    exact nomatch h
  exact (if_neg hf).trans (onPair_of_stop h _)

/-- TS stops at an address that leads nowhere: its forms at 0 and 5 are registers, which are always found. -/
theorem exec_ts_of_stop {s : State} {k : EAddr} {e : Refusal} (h : locate s (erasableAddr k) = .error e) :
    exec (.ts k) s = .refused e := by
  have h0 : k ≠ 0 := by rintro rfl; exact nomatch h
  have h5 : k ≠ 5 := by rintro rfl; exact nomatch h
  exact ((if_neg h0).trans (if_neg h5)).trans (onOperand_of_stop h _)

/-- Settles O60: every operand form stops as its access does. -/
theorem operandStops : Obligations.OperandStops := by
  refine fun s e => ⟨fun k h i hi => ?_, fun k h i hi => ?_, fun f h i hi => ?_, fun f h i hi => ?_⟩
  all_goals simp only [List.mem_cons, List.not_mem_nil, or_false] at hi
  · rcases hi with rfl | rfl | rfl | rfl | rfl | rfl <;> exact onOperand_of_stop h _
  · rcases hi with rfl | rfl | rfl | rfl | rfl | rfl | rfl | rfl | rfl | rfl | rfl | rfl | rfl
    case inr.inr.inl => exact exec_ts_of_stop h
    all_goals exact onOperand_of_stop h _
  · rcases hi with rfl | rfl <;> exact onPair_of_stop h _
  · rcases hi with rfl | rfl
    · exact exec_das_of_stop h
    · exact onPair_of_stop h _

end Sys2Proof.Machine
end

section
/-!
PROOF. The step in its parts (spec/40_sequence_control.md R160, 60_exceptions.md R384): what a boundary, a fetch and a cycle answer, each
in one equation per case; the first fetch after reset; and the end of a run (70_reset_and_hazards.md R455).
-/

namespace Sys2Proof.Machine

theorem boundary_of_none {s : State} (h : interruptTaken (environmentActs s) = none) : boundary s = .ok (environmentActs s) := by
  rw [boundary, h]

theorem boundary_of_some {s : State} {n : Rupt} (h : interruptTaken (environmentActs s) = some n) :
    boundary s = enterInterrupt n (environmentActs s) := by
  rw [boundary, h]

/-- An empty schedule: the environment does nothing more (log 5). -/
theorem environmentActs_of_nil {s : State} (h : s.schedule = []) : environmentActs s = s := by
  rw [environmentActs, h]
  show { s with schedule := [] } = s
  rw [← h]

theorem boundary_quiet {s : State} (hs : s.schedule = []) (hi : interruptTaken s = none) : boundary s = .ok s := by
  have h := environmentActs_of_nil hs
  rw [boundary_of_none (h.symm ▸ hi), h]

theorem fetchWord_of_substitute {s : State} (h : s.substitute = true) : fetchWord s = .ok (s.erasable.read 0o17) := by
  rw [fetchWord, if_pos h]

theorem fetchWord_of_locate {s : State} (hs : s.substitute = false) {p : Place} (hp : locate s s.z = .ok p) :
    fetchWord s = .ok (getWord s p) := by
  rw [fetchWord, if_neg (Bool.eq_false_iff.mp hs), hp]

theorem fetchWord_of_stop {s : State} (hs : s.substitute = false) {e : Refusal} (he : locate s s.z = .error e) :
    fetchWord s = .error e := by
  rw [fetchWord, if_neg (Bool.eq_false_iff.mp hs), he]

/-- Interrupt entry stops where Z leads nowhere (log 6). -/
theorem enterInterrupt_of_stop {s : State} {e : Refusal} (he : locate s s.z = .error e) (n : Rupt) :
    enterInterrupt n s = .error e := by
  have hz := (locate_zruptSaved n s).trans he
  simp only [zruptSaved] at hz
  rw [enterInterrupt, hz]

theorem step_of_fetch {s t : State} {w : Word} (hb : boundary s = .ok t) (hf : fetchWord t = .ok w) :
    step s = exec (instructionOf t w) (advanced t) := by
  simp only [step, cycle, hb, hf]

theorem step_of_boundaryStop {s : State} {e : Refusal} (hb : boundary s = .error e) : step s = .refused e := by
  simp only [step, hb]

theorem step_of_fetchStop {s t : State} {e : Refusal} (hb : boundary s = .ok t) (hf : fetchWord t = .error e) :
    step s = .refused e := by
  simp only [step, cycle, hb, hf]

/-- Settles O4: the three outcomes of a step. -/
theorem stepRunsDecodedInstruction : Obligations.StepRunsDecodedInstruction := fun _ =>
  ⟨fun _ _ hb hf => step_of_fetch hb hf, fun _ hb => step_of_boundaryStop hb, fun _ _ hb hf => step_of_fetchStop hb hf⟩

/-- Settles O5: the cases of a boundary, of a fetch, and the stop of an entry. -/
theorem boundaryAndFetch : Obligations.BoundaryAndFetch := fun _ =>
  ⟨boundary_quiet, boundary_of_none, fun _ => boundary_of_some, fetchWord_of_substitute, fun _ hs hp => fetchWord_of_locate hs hp,
    fun _ hs he => fetchWord_of_stop hs he, fun n _ he => enterInterrupt_of_stop he n⟩

/-- Settles O6: 0o4000 is in fixed-fixed memory, so FB and the superbank do not matter. -/
theorem resetFetchesBank2 : Obligations.ResetFetchesBank2 := by
  refine ⟨rfl, rfl, rfl, rfl, rfl, rfl, fun program fb channels => ⟨?_, fun _ => rfl⟩⟩
  exact fetchWord_of_locate (s := { State.reset with fixed := program, fb := fb, channels := channels }) rfl
    (locate_fixedFixed (k := 0o4000) _ (by decide))

/-! ### The end of a run -/

/-- A run at its end: nothing pending, and the word at Z a jump to itself (R455). -/
theorem runEnds_iff (s : State) : runEnds s = true ↔
    s.extracode = false ∧ s.indexPending = false ∧ s.substitute = false ∧
      ∃ p, locate s s.z = .ok p ∧ jumpsToItself s (getWord s p) = true := by
  unfold runEnds
  cases locate s s.z with
  | error e => simp
  | ok p => simp [and_assoc]

/-- The two forms of a jump to itself: TCF in fixed memory, TC in erasable memory above the registers. -/
theorem jumpsToItself_cases {s : State} {w : Word} (h : jumpsToItself s w = true) :
    (Instr.fixedAddress s.z = true ∧ w = word12 1 s.z) ∨ (0o10 ≤ s.z.toNat ∧ w = word12 0 s.z) := by
  simp only [jumpsToItself, Bool.or_eq_true, Bool.and_eq_true, beq_iff_eq, decide_eq_true_eq] at h
  rcases h with ⟨hf, hw⟩ | ⟨⟨-, h8⟩, hw⟩
  · exact .inl ⟨hf, hw⟩
  · exact .inr ⟨h8, hw⟩

/-- With nothing pending, only Z moves before the instruction. -/
theorem advanced_quiet {s : State} (hx : s.extracode = false) (hp : s.indexPending = false) (hs : s.substitute = false) :
    advanced s = s.setZ (s.z + 1) := by
  simp [advanced, State.setZ, hx, hp, hs]

/-- With nothing pending, the word is read as it stands, as a basic instruction. -/
theorem instructionOf_quiet {s : State} (hx : s.extracode = false) (hp : s.indexPending = false) (w : Word) :
    instructionOf s w = decode false false w := by
  simp [instructionOf, indexedWord, hx, hp]

/-- A TC above the registers is read as itself: no register form and no flag instruction has its word. -/
theorem decode_tc_of_high {k : Addr} (hk : 0o10 ≤ k.toNat) : decode false false (word12 0 k) = .tc k := by
  have hne : ∀ j : Addr, j.toNat < 0o10 → (k == j) = false := fun j hj => by
    rw [beq_eq_false_iff_ne]
    rintro rfl
    omega
  exact Laws.RoundTrip.tc k 0 false (by simp [Instr.wellFormed, hne]) (by simp [Instr.readableWhen, hne]) nofun

/-- The call of a TC to itself leaves the word at Z: Z is not the address of Q. -/
theorem runEnds_setQ {s : State} (h8 : 0o10 ≤ s.z.toNat) (h : runEnds s = true) (v : Wide) : runEnds (s.setQ v) = true := by
  obtain ⟨hx, hi, hs, p, hp, hj⟩ := (runEnds_iff s).mp h
  refine (runEnds_iff _).mpr ⟨hx, hi, hs, p, hp, ?_⟩
  have hq : p ≠ .q := by
    rintro rfl
    obtain ⟨-, -, hk, -⟩ := address_of_register hp
    have := hk rfl
    omega
  have hsame : getWord (s.setQ v) p = getWord s p := by
    cases p with
    | q => exact absurd rfl hq
    | a | l | eb | fb | z | bb | zero | core _ | fixed _ => rfl
  rw [hsame]
  exact hj

/-- Settles O14: the word at Z is the jump, TCF restores the very state, TC all of it but Q. -/
theorem endOfRunIsStable : Obligations.EndOfRunIsStable := by
  intro s hsch hint hend
  obtain ⟨hx, hi, hs, p, hp, hj⟩ := (runEnds_iff s).mp hend
  have hstep := step_of_fetch (boundary_quiet hsch hint) (fetchWord_of_locate hs hp)
  rw [instructionOf_quiet hx hi, advanced_quiet hx hi hs] at hstep
  rcases jumpsToItself_cases hj with ⟨hf, hw⟩ | ⟨h8, hw⟩
  · have hdec : decode false false (word12 1 s.z) = .tcf s.z := Laws.RoundTrip.tcf s.z 0 false hf rfl nofun
    rw [hw, hdec] at hstep
    exact ⟨s, hstep, hend, rfl⟩
  · have hne : s.z ≠ 2 := fun e => absurd (e ▸ h8) (by decide)
    have hcall : exec (.tc s.z) (s.setZ (s.z + 1)) = .next (s.setQ (zWide (s.z + 1))) :=
      congrArg Host.Outcome.next (if_neg hne)
    rw [hw, decode_tc_of_high h8, hcall] at hstep
    exact ⟨_, hstep, runEnds_setQ h8 hend _, rfl⟩

end Sys2Proof.Machine
end

section
/-!
PROOF. Which interrupt is taken (spec/60_exceptions.md R385, R388), and the return from one (R389, 40_sequence_control.md R170).
-/

namespace Sys2Proof.Machine

theorem acceptsInterrupt_iff (s : State) : acceptsInterrupt s = true ↔
    s.inhibit = false ∧ s.inIsr = false ∧ hasOverflow s.a = false ∧ s.extracode = false ∧ s.indexPending = false ∧
      s.substitute = false := by
  simp [acceptsInterrupt, and_assoc]

theorem interruptTaken_eq_some_iff (s : State) (n : Rupt) :
    interruptTaken s = some n ↔ acceptsInterrupt s = true ∧ bestRequest s.req = some n := by
  unfold interruptTaken
  cases acceptsInterrupt s <;> simp

/-- The order of the vectors is the order of the interrupts' numbers. -/
theorem vector_lt_iff (m n : Rupt) : vector m < vector n ↔ ruptNumber m < ruptNumber n := by
  rw [BitVec.lt_def, toNat_vector, toNat_vector]
  omega

/-- The interrupts in the order of their vectors (R381). -/
def ruptOrder : List Rupt :=
  [.t6rupt, .t5rupt, .t3rupt, .t4rupt, .keyrupt1, .keyrupt2, .uprupt, .downrupt, .radarupt, .rupt10]

theorem bestRequest_eq_find (r : Requests) : bestRequest r = ruptOrder.find? r.pending := by
  simp only [bestRequest, ruptOrder, List.find?, Requests.pending]
  split_ifs <;> simp_all

theorem mem_ruptOrder (n : Rupt) : n ∈ ruptOrder := by cases n <;> decide

theorem ruptOrder_sorted : ruptOrder.Pairwise fun m n => ruptNumber m < ruptNumber n := by decide

/-- In a list sorted by a measure, the first element that passes is the one below which none does. -/
theorem find?_eq_some_iff_of_sorted {α : Type} {f : α → Nat} {p : α → Bool} {n : α} {l : List α}
    (hl : l.Pairwise fun a b => f a < f b) (hn : n ∈ l) :
    l.find? p = some n ↔ p n = true ∧ ∀ m ∈ l, f m < f n → p m = false := by
  induction l with
  | nil => exact absurd hn List.not_mem_nil
  | cons a rest ih =>
    obtain ⟨ha, hrest⟩ := List.pairwise_cons.mp hl
    cases hpa : p a with
    | true =>
      rw [List.find?_cons_of_pos hpa, Option.some_inj]
      constructor
      · rintro rfl
        refine ⟨hpa, fun m hm hlt => ?_⟩
        rcases List.mem_cons.mp hm with rfl | hm
        · omega
        · have := ha m hm
          omega
      · rintro ⟨-, hlow⟩
        rcases List.mem_cons.mp hn with rfl | hn
        · rfl
        · exact absurd (hpa.symm.trans (hlow a List.mem_cons_self (ha n hn))) (by decide)
    | false =>
      rw [List.find?_cons_of_neg (by simp [hpa])]
      rcases List.mem_cons.mp hn with rfl | hn
      · constructor
        · exact fun h => absurd (hpa.symm.trans (List.find?_some h)) (by decide)
        · exact fun h => absurd (hpa.symm.trans h.1) (by decide)
      · rw [ih hrest hn]
        exact and_congr_right fun _ => ⟨fun h m hm hlt => (List.mem_cons.mp hm).elim (fun e => e ▸ hpa) fun hm => h m hm hlt,
          fun h m hm => h m (List.mem_cons_of_mem _ hm)⟩

/-- The request of highest priority is the pending one below whose vector none is pending (R388). -/
theorem bestRequest_eq_some_iff (r : Requests) (n : Rupt) :
    bestRequest r = some n ↔ r.pending n = true ∧ ∀ m, vector m < vector n → r.pending m = false := by
  rw [bestRequest_eq_find, find?_eq_some_iff_of_sorted ruptOrder_sorted (mem_ruptOrder n)]
  simp only [vector_lt_iff, mem_ruptOrder, true_imp_iff]

/-- Settles O15: the six conditions and the priority order. -/
theorem interruptTakenIff : Obligations.InterruptTakenIff := by
  intro s n
  rw [interruptTaken_eq_some_iff, acceptsInterrupt_iff, bestRequest_eq_some_iff]
  simp only [and_assoc]

theorem exec_resume (s : State) : exec .resume s = .next (resumeInterrupted s) := rfl

/-- Only address 0o15 leads to ZRUPT: the window of EB refuses the registers. -/
theorem address_of_zrupt {s : State} {k : Addr} (h : locate s k = .ok (.core 0o15)) : k = 0o15 := by
  apply BitVec.eq_of_toNat_eq
  show k.toNat = 0o15
  have hzero : s.eb.toNat = 0 → s.eb = 0 := fun h => BitVec.eq_of_toNat_eq h
  rcases locate_cases h with ⟨h1, hp⟩ | ⟨-, -, hp⟩ | ⟨h1, h2, h3, hp⟩ | ⟨_, _, _, _, hp⟩ | ⟨-, hp⟩
  · rcases centralPlace_eq h1 with ⟨_, hc⟩ | ⟨_, hc⟩ | ⟨_, hc⟩ | ⟨_, hc⟩ | ⟨_, hc⟩ | ⟨_, hc⟩ | ⟨_, hc⟩ | ⟨_, hc⟩ <;>
      exact absurd (hp.trans hc) (by simp)
  · injection hp with hp
    exact hp.symm
  · injection hp with hp
    exact absurd ⟨hzero (by omega), by omega⟩ h3
  · exact absurd hp (by simp)
  · exact absurd hp (by simp)

/-- Settles O17: BRUPT holds the word at the interrupted Z, and the return sends Z there with BRUPT as the word to fetch. -/
theorem resumeRestoresInterrupted : Obligations.ResumeRestoresInterrupted := by
  intro n s t u hs hsub hz ht hzr hbr
  obtain ⟨p, hp, -⟩ := enterInterrupt_cases ht
  have hne : p ≠ .core 0o15 := fun e => hz (address_of_zrupt (e ▸ hp))
  obtain rfl : entered n s (bruptWord s p) = t := Except.ok.inj ((enterInterrupt_of_locate hs hp n).symm.trans ht)
  rw [entered_zrupt hs] at hzr
  rw [entered_brupt hs, bruptWord, if_neg hne] at hbr
  refine ⟨resumeInterrupted u, exec_resume u, ?_, ?_, rfl, rfl⟩
  · show zField (u.erasable.read 0o15) = s.z
    rw [hzr, zField_zWord]
  · rw [fetchWord_of_locate hsub hp, fetchWord_of_substitute rfl]
    exact congrArg Except.ok hbr

theorem toNat_zField (w : Word) : (zField w).toNat = w.toNat % 2 ^ 12 := by
  simp [zField, BitVec.extractLsb'_toNat]

/-- Settles O33: Z takes the twelve low bits of ZRUPT. -/
theorem resumeReturns : Obligations.ResumeReturns := fun s => ⟨_, exec_resume s, toNat_zField _, rfl⟩

/-- Settles O35: the spec gives EDRUPT no semantics, and no path of it completes. -/
theorem edruptRefused : Obligations.EdruptRefused := fun _ _ => rfl

end Sys2Proof.Machine
end

section
/-!
PROOF. The transfers of control that are equations (spec/41_transfer_control.md R192-R197, R210-R213).
-/

namespace Sys2Proof.Machine

theorem zWide_eq (z : Addr) : zWide z = z.setWidth 16 := by
  apply BitVec.eq_of_toNat_eq
  have := z.isLt
  simp only [zWide, BitVec.toNat_append, BitVec.toNat_setWidth]
  simp
  omega

theorem callTo_eq (k : Addr) (s : State) : callTo k s = { s with q := s.z.setWidth 16, z := k } := by
  rw [← zWide_eq]
  rfl

theorem exec_tc_of_ne {k : Addr} (hk : k ≠ 2) (s : State) : exec (.tc k) s = .next { s with q := s.z.setWidth 16, z := k } :=
  congrArg Host.Outcome.next ((if_neg hk).trans (callTo_eq k s))

/-- Settles O36: the calls by the equation of `callTo`, the jumps as they stand. -/
theorem transferJumps : Obligations.TransferJumps := fun s =>
  ⟨fun _ hk => exec_tc_of_ne hk s, rfl, congrArg Host.Outcome.next (callTo_eq 0 s), congrArg Host.Outcome.next (callTo_eq 1 s),
    rfl, fun _ => rfl, rfl⟩

theorem overflowSkip_eq (s : State) : overflowSkip s = if hasOverflow s.a then { s with z := s.z + 1 } else s := rfl

/-- +1, -1 or the value itself, by its overflow. -/
theorem ite_overflowUnit (v : Wide) : (if hasOverflow v then overflowUnit v else v) =
    if posOverflow v then 0o000001 else if negOverflow v then 0o177776 else v := by
  unfold hasOverflow overflowUnit
  cases posOverflow v <;> cases negOverflow v <;> rfl

theorem jumpToA_eq (s : State) : jumpToA s = { s with
    z := s.a.setWidth 12
    a := if posOverflow s.a then 0o000001 else if negOverflow s.a then 0o177776 else s.a } := by
  have hz : s.a.extractLsb' 0 12 = s.a.setWidth 12 := by
    apply BitVec.eq_of_toNat_eq
    simp [BitVec.extractLsb'_toNat]
  rw [← ite_overflowUnit, ← hz]
  unfold jumpToA
  split <;> rfl

/-- Settles O39: the skip and the jump, TS 0 and TS 5 being the same operations. -/
theorem overflowSkipAndJump : Obligations.OverflowSkipAndJump := fun s =>
  ⟨congrArg Host.Outcome.next (overflowSkip_eq s), congrArg Host.Outcome.next (jumpToA_eq s), rfl, rfl⟩

/-- Z in a 16-bit register: the bits above its twelve are 0 (R212). -/
theorem sx16_zWord (z : Addr) : sx16 (zWord z) = z.setWidth 16 := by
  apply BitVec.eq_of_toNat_eq
  have := z.isLt
  rw [toNat_sx16, toNat_zWord, if_pos (by omega), BitVec.toNat_setWidth]
  omega

theorem exec_dtcf (s : State) : exec .dtcf s =
    .next { s with z := zField (ovc s.l), fb := fbField (ovc s.a), a := sx16 (fbWord s.fb), l := s.z.setWidth 16 } := by
  rw [← sx16_zWord, ← ovc_sx16 (zWord s.z)]
  rfl

theorem exec_dtcb (s : State) : exec .dtcb s =
    .next { s with fb := fbField (ovc s.l), eb := bbEbField (ovc s.l), z := zField (ovc s.a), a := s.z.setWidth 16,
                   l := sx16 (bbWord s.fb s.eb) } := by
  rw [← sx16_zWord, ← ovc_sx16 (bbWord s.fb s.eb)]
  rfl

/-- Settles O40: the exchanges of the pairs FB, Z and Z, BB. -/
theorem doubleTransfers : Obligations.DoubleTransfers := fun s => ⟨exec_dtcf s, exec_dtcb s⟩

end Sys2Proof.Machine
end

section
/-!
PROOF. The words of the counters as numbers (spec/00_scope.md R12-R16), the adder as integer addition, and memories as their reads: what the
statements about counters in motion rest on.
-/

namespace Sys2Proof.Machine

theorem isZero15_eq (w : Word) : isZero15 w = decide (w.toNat = 0 ∨ w.toNat = 2 ^ 15 - 1) := by
  rw [Bool.eq_iff_iff, decide_eq_true_eq, isZero15, Bool.or_eq_true, beq_iff_eq, beq_iff_eq]
  exact or_congr ⟨fun h => congrArg BitVec.toNat h, fun h => BitVec.eq_of_toNat_eq h⟩
    ⟨fun h => congrArg BitVec.toNat h, fun h => BitVec.eq_of_toNat_eq h⟩

theorem toNat_plusOne : plusOne.toNat = 1 := rfl

theorem toNat_minusOne : minusOne.toNat = 2 ^ 16 - 2 := rfl

/-- The count up overflows from the largest word alone. -/
theorem posOverflow_sx16_add_one (w : Word) : posOverflow (add16 (sx16 w) plusOne) = decide (w = 0o37777) := by
  have hw := w.isLt
  have hmax : w = 0o37777 ↔ w.toNat = 2 ^ 14 - 1 :=
    ⟨fun h => congrArg BitVec.toNat h, fun h => BitVec.eq_of_toNat_eq h⟩
  rw [posOverflow_eq, decide_eq_decide, hmax, toNat_add16, toNat_sx16, toNat_plusOne]
  split_ifs <;> omega

/-- The count down overflows from the smallest word alone. -/
theorem negOverflow_sx16_sub_one (w : Word) : negOverflow (add16 (sx16 w) minusOne) = decide (w = 0o40000) := by
  have hw := w.isLt
  have hmin : w = 0o40000 ↔ w.toNat = 2 ^ 14 :=
    ⟨fun h => congrArg BitVec.toNat h, fun h => BitVec.eq_of_toNat_eq h⟩
  rw [negOverflow_eq, decide_eq_decide, hmin, toNat_add16, toNat_sx16, toNat_minusOne]
  split_ifs <;> omega

theorem pincOverflows_eq (w : Word) : pincOverflows w = decide (w = 0o37777) := posOverflow_sx16_add_one w

/-- What PINC stores (R353). -/
theorem pincWord_eq (w : Word) : pincWord w = if w = 0o37777 then 0 else ovc (add16 (sx16 w) 1) := by
  unfold pincWord
  simp only [posOverflow_sx16_add_one, decide_eq_true_eq]
  rfl

/-- What MINC stores (R355). -/
theorem mincWord_eq (w : Word) : mincWord w = if w = 0o40000 then 0o77777 else ovc (add16 (sx16 w) 0o177776) := by
  unfold mincWord
  simp only [negOverflow_sx16_sub_one, decide_eq_true_eq]
  rfl

/-- What DINC stores, as a number (R357): +1 goes to -0, not to +0. -/
theorem toNat_dincWord (w : Word) : (dincWord w).toNat =
    if w.toNat = 0 ∨ w.toNat = 2 ^ 15 - 1 then w.toNat
    else if 2 ^ 14 ≤ w.toNat then w.toNat + 1
    else if w.toNat = 1 then 2 ^ 15 - 1 else w.toNat - 1 := by
  have hw := w.isLt
  simp only [dincWord, isZero15_eq, bit15_eq, decide_eq_true_eq]
  split_ifs with h0 hneg hone
  · rfl
  · have hs : (sx16 w).toNat = w.toNat + 2 ^ 15 := by rw [toNat_sx16, if_neg (by omega)]
    rw [toNat_ovc, toNat_add16, hs, toNat_plusOne, if_neg (by omega)]
    omega
  all_goals have hs : (sx16 w).toNat = w.toNat := by rw [toNat_sx16, if_pos (by omega)]
  · rw [toNat_ovc, toNat_add16, hs, toNat_minusOne, if_neg (by omega)]
    omega
  · rw [toNat_ovc, toNat_add16, hs, toNat_minusOne, if_pos (by omega)]
    omega

/-- Two words added, by the overflow of the sum (43_arithmetic.md section 1). -/
theorem val15_ovc_add16 (x y : Word) : val15 (ovc (add16 (sx16 x) (sx16 y))) =
    if posOverflow (add16 (sx16 x) (sx16 y)) then val15 x + val15 y - 2 ^ 14
    else if negOverflow (add16 (sx16 x) (sx16 y)) then val15 x + val15 y + 2 ^ 14
    else val15 x + val15 y := by
  have hx := x.isLt
  have hy := y.isLt
  simp only [posOverflow_eq, negOverflow_eq, decide_eq_true_eq, val15_eq, toNat_ovc, toNat_add16, toNat_sx16]
  by_cases hxs : x.toNat < 2 ^ 14 <;> by_cases hys : y.toNat < 2 ^ 14 <;> simp only [hxs, hys, if_true, if_false] <;>
    split_ifs <;> omega

/-- Settles O31: the value of a wide value without overflow, and the sum of words by its overflow. -/
theorem adderIsIntegerSum : Obligations.AdderIsIntegerSum := by
  refine ⟨fun v => val16_of_not_hasOverflow, fun x y => ?_⟩
  dsimp only
  have hsum := val15_ovc_add16 x y
  refine ⟨fun h => ?_, fun h => ?_, fun h => ?_⟩
  · obtain ⟨hp, hn⟩ := Bool.or_eq_false_iff.mp h
    rw [if_neg (Bool.eq_false_iff.mp hp), if_neg (Bool.eq_false_iff.mp hn)] at hsum
    exact ⟨(val16_of_not_hasOverflow h).trans hsum, hsum⟩
  · rwa [if_pos h] at hsum
  · have hp : posOverflow (add16 (sx16 x) (sx16 y)) = false := by
      have hbits := (negOverflow_iff _).mp h
      rw [posOverflow, hbits.1]
      rfl
    rwa [if_neg (Bool.eq_false_iff.mp hp), if_pos h] at hsum

/-! ### Memories as their reads -/

theorem Memory.read_cons_same (k : Nat) (v : Word) (rest : Memory) : Memory.read ((k, v) :: rest) k = v := if_pos rfl

theorem Memory.read_cons_other {i k : Nat} (h : i ≠ k) (v : Word) (rest : Memory) :
    Memory.read ((k, v) :: rest) i = rest.read i := if_neg h

theorem Memory.wfFrom_cons {lo k : Nat} {v : Word} {rest : Memory} (h : Memory.wfFrom lo ((k, v) :: rest) = true) :
    lo ≤ k ∧ v ≠ 0 ∧ Memory.wfFrom (k + 1) rest = true := by
  simpa [Memory.wfFrom, and_assoc] using h

/-- In a canonical memory the first key reads as a word that is not +0. -/
theorem Memory.read_head_ne_zero {lo k : Nat} {v : Word} {rest : Memory} (h : Memory.wfFrom lo ((k, v) :: rest) = true) :
    Memory.read ((k, v) :: rest) k ≠ 0 := by
  rw [Memory.read_cons_same]
  exact (Memory.wfFrom_cons h).2.1

/-- In a canonical memory every key before the first reads as +0. -/
theorem Memory.read_before_head {lo k i : Nat} {v : Word} {rest : Memory} (h : Memory.wfFrom lo ((k, v) :: rest) = true)
    (hi : i < k) : Memory.read ((k, v) :: rest) i = 0 := by
  obtain ⟨-, -, hrest⟩ := Memory.wfFrom_cons h
  rw [Memory.read_cons_other (by omega)]
  exact Memory.read_eq_zero_of_lt hrest (by omega)

/-- Canonical memories with equal reads are equal (log 1). -/
theorem Memory.eq_of_read_eq {m m' : Memory} {lo : Nat} (hm : Memory.wfFrom lo m = true) (hm' : Memory.wfFrom lo m' = true)
    (h : ∀ i, m.read i = m'.read i) : m = m' := by
  induction m generalizing lo m' with
  | nil =>
    cases m' with
    | nil => rfl
    | cons c rest => exact absurd (h c.1).symm (Memory.read_head_ne_zero hm')
  | cons c rest ih =>
    cases m' with
    | nil => exact absurd (h c.1) (Memory.read_head_ne_zero hm)
    | cons c' rest' =>
      obtain ⟨k, v⟩ := c
      obtain ⟨k', v'⟩ := c'
      have hkk : k = k' := by
        rcases Nat.lt_trichotomy k k' with hlt | heq | hgt
        · exact absurd ((h k).trans (Memory.read_before_head hm' hlt)) (Memory.read_head_ne_zero hm)
        · exact heq
        · exact absurd ((h k').symm.trans (Memory.read_before_head hm hgt)) (Memory.read_head_ne_zero hm')
      subst hkk
      obtain ⟨-, -, hr⟩ := Memory.wfFrom_cons hm
      obtain ⟨-, -, hr'⟩ := Memory.wfFrom_cons hm'
      have hv : v = v' := by simpa only [Memory.read_cons_same] using h k
      have hrest : rest = rest' := ih hr hr' fun i => by
        by_cases hi : i = k
        · rw [hi, Memory.read_eq_zero_of_lt hr (Nat.lt_succ_self k), Memory.read_eq_zero_of_lt hr' (Nat.lt_succ_self k)]
        · simpa only [Memory.read_cons_other hi] using h i
      rw [hv, hrest]

/-- Writing a word and then writing back what was there restores the memory. -/
theorem Memory.write_back {m : Memory} (h : m.wf = true) (i : Nat) (w : Word) : (m.write i w).write i (m.read i) = m := by
  refine Memory.eq_of_read_eq (Memory.wf_write (Memory.wf_write h i w) i _) h fun j => ?_
  rw [Memory.read_write (Memory.wf_write h i w)]
  split
  · rename_i hj
    rw [hj]
  · rename_i hj
    exact Memory.read_write_other m w hj

/-! ### A counter written -/

theorem read_setCore {s : State} (hs : Coherent s) (i : Nat) (w : Word) : (setCore s i w).erasable.read i = w :=
  Memory.read_write_same hs.erasable_wf i w

theorem unchangedBut_setCore (s : State) (i : Nat) (w : Word) : UnchangedBut [.core i] s (setCore s i w) :=
  unchangedBut_setErasable s i w

theorem setCore_back {s : State} (hs : Coherent s) (i : Nat) (w : Word) : setCore (setCore s i w) i (s.erasable.read i) = s :=
  congrArg s.setErasable (Memory.write_back hs.erasable_wf i w)

end Sys2Proof.Machine
end

section
/-!
PROOF. PINC and MINC (spec/45_unprogrammed_sequences.md R352, R353, R355): the count, the overflow of a clock, and the gate of the hand
controller's counters (R59, R386), which the two share.
-/

namespace Sys2Proof.Machine

/-- PINC where it does not overflow. -/
theorem pinc_of_ne_max {s : State} {i : Nat} (h : s.erasable.read i ≠ 0o37777) :
    pinc i s = setCore s i (pincWord (s.erasable.read i)) := by
  rw [pinc, pincOverflows_eq, decide_eq_false h]
  rfl

/-- PINC where it overflows. -/
theorem pinc_of_max {s : State} {i : Nat} (h : s.erasable.read i = 0o37777) :
    pinc i s = counterOverflow i (setCore s i (pincWord (s.erasable.read i))) := by
  rw [pinc, pincOverflows_eq, decide_eq_true h]
  rfl

/-- The overflow of a counter does not change that counter. -/
theorem read_counterOverflow_self (i : Nat) (s : State) : (counterOverflow i s).erasable.read i = s.erasable.read i := by
  rcases counterOverflow_cases i s with ⟨rfl, h⟩ | ⟨n, -, h⟩ | ⟨-, h⟩ <;> rw [h]
  · exact Memory.read_write_other _ _ (by decide)
  · rfl

theorem read_pinc {s : State} (hs : Coherent s) (i : Nat) : (pinc i s).erasable.read i = pincWord (s.erasable.read i) := by
  by_cases h : s.erasable.read i = 0o37777
  · rw [pinc_of_max h, read_counterOverflow_self, read_setCore hs]
  · rw [pinc_of_ne_max h, read_setCore hs]

/-- PINC of a counter without an overflow of its own, in one equation. -/
theorem pinc_of_pulse {i : Nat} (hi : 0o31 < i) (s : State) : pinc i s = setCore s i (pincWord (s.erasable.read i)) := by
  by_cases h : s.erasable.read i = 0o37777
  · rw [pinc_of_max h]
    rcases counterOverflow_cases i (setCore s i (pincWord (s.erasable.read i))) with ⟨rfl, -⟩ | ⟨n, hn, -⟩ | ⟨-, h⟩
    · exact absurd hi (by decide)
    · simp only [List.mem_cons, Prod.mk.injEq, List.not_mem_nil, or_false] at hn
      omega
    · exact h
  · exact pinc_of_ne_max h

/-- The overflow of TIME1 counts TIME2. -/
theorem read_pinc_time1_time2 {s : State} (hs : Coherent s) (h : s.erasable.read 0o25 = 0o37777) :
    (pinc 0o25 s).erasable.read 0o24 = pincWord (s.erasable.read 0o24) := by
  have hkept : (setCore s 0o25 (pincWord (s.erasable.read 0o25))).erasable.read 0o24 = s.erasable.read 0o24 :=
    Memory.read_write_other _ _ (by decide)
  rw [pinc_of_max h, ← hkept]
  exact read_setCore (hs.setCore (by decide) _) _ _

theorem unchangedBut_pinc_time1 {s : State} (h : s.erasable.read 0o25 = 0o37777) :
    UnchangedBut [.core 0o25, .core 0o24] s (pinc 0o25 s) := by
  rw [pinc_of_max h]
  exact (unchangedBut_setCore s 0o25 _).trans (unchangedBut_setCore _ 0o24 _)

/-- The clocks by their addresses. -/
theorem timeAddress_of_mem {c : TimeCounter} {i : Nat}
    (h : (c, i) ∈ [(TimeCounter.time1, 0o25), (.time2, 0o24), (.time3, 0o26), (.time4, 0o27), (.time5, 0o30)]) :
    i = timeAddress c := by
  simp only [List.mem_cons, Prod.mk.injEq, List.not_mem_nil, or_false] at h
  rcases h with ⟨rfl, rfl⟩ | ⟨rfl, rfl⟩ | ⟨rfl, rfl⟩ | ⟨rfl, rfl⟩ | ⟨rfl, rfl⟩ <;> rfl

/-- The gate of the hand controller's counters (R59, R366, R386). -/
def RhcGate (s : State) : Prop :=
  s.vehicle = .lm ∧ (s.channels.read 0o13).getLsbD 7 = true ∧ (s.channels.read 0o13).getLsbD 8 = true

/-- The counters of PINC and MINC by their addresses, and whether they are the hand controller's. -/
def pulseCounters : List (PulseCounter × Nat × Bool) :=
  [(.pipaX, 0o37, false), (.pipaY, 0o40, false), (.pipaZ, 0o41, false), (.qRhc, 0o42, true), (.pRhc, 0o43, true),
    (.rRhc, 0o44, true)]

/-- A pulse reaches a PIPA always, a counter of the hand controller under the gate. -/
theorem pulseCounters_spec {c : PulseCounter} {i : Nat} {rhc : Bool} (h : (c, i, rhc) ∈ pulseCounters) (s : State) :
    i = pulseAddress c ∧ 0o31 < i ∧ (pulseCounts s c = true ↔ rhc = false ∨ RhcGate s) := by
  simp only [pulseCounters, List.mem_cons, Prod.mk.injEq, List.not_mem_nil, or_false] at h
  rcases h with ⟨rfl, rfl, rfl⟩ | ⟨rfl, rfl, rfl⟩ | ⟨rfl, rfl, rfl⟩ | ⟨rfl, rfl, rfl⟩ | ⟨rfl, rfl, rfl⟩ | ⟨rfl, rfl, rfl⟩
  · exact ⟨rfl, by decide, by simp [pulseCounts]⟩
  · exact ⟨rfl, by decide, by simp [pulseCounts]⟩
  · exact ⟨rfl, by decide, by simp [pulseCounts]⟩
  · exact ⟨rfl, by decide, by simp [pulseCounts, rhcCounts_iff, RhcGate]⟩
  · exact ⟨rfl, by decide, by simp [pulseCounts, rhcCounts_iff, RhcGate]⟩
  · exact ⟨rfl, by decide, by simp [pulseCounts, rhcCounts_iff, RhcGate]⟩

/-- A sequence that stores `f` of its counter, where the pulse reaches it and where it does not. -/
theorem pulse_stores {c : PulseCounter} {i : Nat} {rhc : Bool} (h : (c, i, rhc) ∈ pulseCounters) {s : State} (hs : Coherent s)
    {t : State} {w : Word} (ht : t = if pulseCounts s c then setCore s i w else s) :
    (rhc = false ∨ RhcGate s → t.erasable.read i = w ∧ UnchangedBut [.core i] s t) ∧ (rhc = true → ¬RhcGate s → t = s) := by
  obtain ⟨-, -, hcounts⟩ := pulseCounters_spec h s
  constructor
  · intro hopen
    rw [if_pos (hcounts.mpr hopen)] at ht
    subst ht
    exact ⟨read_setCore hs i w, unchangedBut_setCore s i w⟩
  · intro hrhc hclosed
    rwa [if_neg] at ht
    rw [hcounts]
    exact fun ho => ho.elim (fun e => absurd (hrhc.symm.trans e) (by decide)) hclosed

theorem pincCounts_clock (c : TimeCounter) {s : State} (hs : Coherent s) :
    let i := timeAddress c
    let w := s.erasable.read i
    let t := pinc i s
    t.erasable.read i = (if w = 0o37777 then 0 else ovc (add16 (sx16 w) 1)) ∧
    (w ≠ 0o37777 → UnchangedBut [.core i] s t) ∧
    (w = 0o37777 →
      (c = .time1 → t.erasable.read 0o24 = (if s.erasable.read 0o24 = 0o37777 then 0
          else ovc (add16 (sx16 (s.erasable.read 0o24)) 1)) ∧ UnchangedBut [.core 0o25, .core 0o24] s t) ∧
      (c = .time2 → UnchangedBut [.core 0o24] s t) ∧
      (c = .time3 → UnchangedBut [.core 0o26] (requestInterrupt .t3rupt s) t) ∧
      (c = .time4 → UnchangedBut [.core 0o27] (requestInterrupt .t4rupt s) t) ∧
      (c = .time5 → UnchangedBut [.core 0o30] (requestInterrupt .t5rupt s) t)) := by
  dsimp only
  refine ⟨(read_pinc hs _).trans (pincWord_eq _), fun h => ?_, fun h => ⟨?_, ?_, ?_, ?_, ?_⟩⟩
  · rw [pinc_of_ne_max h]
    exact unchangedBut_setCore s _ _
  · rintro rfl
    exact ⟨(read_pinc_time1_time2 hs h).trans (pincWord_eq _), unchangedBut_pinc_time1 h⟩
  · rintro rfl
    rw [pinc_of_max h]
    exact unchangedBut_setCore s 0o24 _
  · rintro rfl
    rw [pinc_of_max h]
    exact unchangedBut_setCore (requestInterrupt .t3rupt s) 0o26 _
  · rintro rfl
    rw [pinc_of_max h]
    exact unchangedBut_setCore (requestInterrupt .t4rupt s) 0o27 _
  · rintro rfl
    rw [pinc_of_max h]
    exact unchangedBut_setCore (requestInterrupt .t5rupt s) 0o30 _

/-- Settles O18: the clocks by the cases of the overflow, the pulse counters by their one store under the gate. -/
theorem pincCounts : Obligations.PincCounts := by
  refine ⟨fun c i s hmem hs => ?_, fun c i rhc s hmem hs => ?_⟩
  · obtain rfl := timeAddress_of_mem hmem
    exact pincCounts_clock c hs
  · obtain ⟨rfl, hi, -⟩ := pulseCounters_spec hmem s
    dsimp only
    rw [← pincWord_eq]
    exact pulse_stores hmem hs (pinc_of_pulse hi s ▸ rfl)

/-- Settles O19: one store under the gate. -/
theorem mincCounts : Obligations.MincCounts := by
  intro c i rhc s hmem hs
  obtain ⟨rfl, -, -⟩ := pulseCounters_spec hmem s
  dsimp only
  rw [← mincWord_eq]
  exact pulse_stores hmem hs rfl

end Sys2Proof.Machine
end

section
/-!
PROOF. PCDU, MCDU, DINC, SHINC and SHANC (spec/45_unprogrammed_sequences.md R354, R356-R359): each is one store to its counter, and DINC and
the shifts request an interrupt besides; the serial word of D39 is fifteen shifts.
-/

namespace Sys2Proof.Machine

theorem cduAddress_of_mem {c : CduCounter} {i : Nat}
    (h : (c, i) ∈ [(CduCounter.cduX, 0o32), (.cduY, 0o33), (.cduZ, 0o34), (.optY, 0o35), (.optX, 0o36)]) :
    i = cduAddress c := by
  simp only [List.mem_cons, Prod.mk.injEq, List.not_mem_nil, or_false] at h
  rcases h with ⟨rfl, rfl⟩ | ⟨rfl, rfl⟩ | ⟨rfl, rfl⟩ | ⟨rfl, rfl⟩ | ⟨rfl, rfl⟩ <;> rfl

theorem mcdu_pcdu {s : State} (hs : Coherent s) (i : Nat) : mcdu i (pcdu i s) = s := by
  have hback : (pcdu i s).erasable.read i - 1 = s.erasable.read i := by
    rw [pcdu, read_setCore hs, BitVec.add_sub_cancel]
  rw [mcdu, hback]
  exact setCore_back hs i _

theorem pcdu_mcdu {s : State} (hs : Coherent s) (i : Nat) : pcdu i (mcdu i s) = s := by
  have hback : (mcdu i s).erasable.read i + 1 = s.erasable.read i := by
    rw [mcdu, read_setCore hs, BitVec.sub_add_cancel]
  rw [pcdu, hback]
  exact setCore_back hs i _

/-- Settles O20: addition and subtraction of 1 on 15 bits, each one store. -/
theorem cduCountersWrap : Obligations.CduCountersWrap := by
  intro c i s hmem hs
  obtain rfl := cduAddress_of_mem hmem
  refine ⟨?_, unchangedBut_setCore s _ _, ?_, unchangedBut_setCore s _ _, mcdu_pcdu hs _, pcdu_mcdu hs _⟩
  · exact (congrArg BitVec.toNat (read_setCore hs _ _)).trans (BitVec.toNat_add _ _)
  · refine (congrArg BitVec.toNat (read_setCore hs _ _)).trans ?_
    rw [BitVec.toNat_sub, Nat.add_comm]
    rfl

/-! ### DINC -/

/-- The magnitude of a word (R12). -/
theorem natAbs_val15 (w : Word) : (val15 w).natAbs = if w.toNat < 2 ^ 14 then w.toNat else 2 ^ 15 - 1 - w.toNat := by
  have hw := w.isLt
  rw [val15_eq]
  split_ifs <;> omega

/-- The magnitude goes down by one, and a zero stays a zero. -/
theorem natAbs_val15_dincWord (w : Word) : (val15 (dincWord w)).natAbs = (val15 w).natAbs - 1 := by
  have hw := w.isLt
  rw [natAbs_val15, natAbs_val15, toNat_dincWord]
  split_ifs <;> omega

theorem bit15_dincWord {w : Word} (h : 1 < (val15 w).natAbs) : bit15 (dincWord w) = bit15 w := by
  have hw := w.isLt
  rw [natAbs_val15] at h
  rw [bit15_eq, bit15_eq, decide_eq_decide, toNat_dincWord]
  split_ifs at h ⊢ <;> omega

/-- The two words one unit from zero, as a number. -/
theorem toNat_of_unit {w : Word} (h : w = 0o00001 ∨ w = 0o77776) : w.toNat = 1 ∨ w.toNat = 2 ^ 15 - 2 :=
  h.imp (congrArg BitVec.toNat) (congrArg BitVec.toNat)

theorem dincWord_of_unit {w : Word} (h : w = 0o00001 ∨ w = 0o77776) : dincWord w = 0o77777 := by
  apply BitVec.eq_of_toNat_eq
  have hn := toNat_of_unit h
  show (dincWord w).toNat = 2 ^ 15 - 1
  rw [toNat_dincWord]
  split_ifs <;> omega

theorem dincWord_of_zero {w : Word} (h : w = 0 ∨ w = 0o77777) : dincWord w = w := by
  have hz : isZero15 w = true := by simpa [isZero15] using h
  rw [dincWord, if_pos hz]

/-- The result is a zero where the count was at most one unit from it. -/
theorem isZero15_dincWord (w : Word) : isZero15 (dincWord w) = decide ((val15 w).natAbs ≤ 1) := by
  have hw := w.isLt
  have hd := toNat_dincWord w
  rw [isZero15_eq, decide_eq_decide, natAbs_val15]
  split_ifs at hd ⊢ <;> omega

theorem dinc_of_disabled {s : State} (h : (s.channels.read 0o13).getLsbD 14 = false) : dinc s = s :=
  if_neg (Bool.eq_false_iff.mp h)

/-- DINC that leaves TIME6 off zero. -/
theorem dinc_of_far {s : State} (he : (s.channels.read 0o13).getLsbD 14 = true)
    (hw : 1 < (val15 (s.erasable.read 0o31)).natAbs) : dinc s = setCore s 0o31 (dincWord (s.erasable.read 0o31)) := by
  have hz : isZero15 (dincWord (s.erasable.read 0o31)) = false := by
    rw [isZero15_dincWord, decide_eq_false (by omega)]
  exact (if_pos he).trans (if_neg (Bool.eq_false_iff.mp hz))

/-- DINC that brings TIME6 to zero, or finds it there. -/
theorem dinc_of_near {s : State} (he : (s.channels.read 0o13).getLsbD 14 = true)
    (hw : (val15 (s.erasable.read 0o31)).natAbs ≤ 1) :
    dinc s = setCore (time6Zero s) 0o31 (dincWord (s.erasable.read 0o31)) := by
  have hz : isZero15 (dincWord (s.erasable.read 0o31)) = true := by
    rw [isZero15_dincWord, decide_eq_true hw]
  exact (if_pos he).trans (if_pos hz)

theorem read_dinc {s : State} (hs : Coherent s) (he : (s.channels.read 0o13).getLsbD 14 = true) :
    (dinc s).erasable.read 0o31 = dincWord (s.erasable.read 0o31) := by
  by_cases hw : (val15 (s.erasable.read 0o31)).natAbs ≤ 1
  · rw [dinc_of_near he hw]
    exact read_setCore hs.time6Zero _ _
  · rw [dinc_of_far he (by omega)]
    exact read_setCore hs _ _

/-- Settles O21: the store of the diminished count, in the state TIME6's zero leaves where it is reached. -/
theorem dincCounts : Obligations.DincCounts := by
  intro s hs
  dsimp only
  refine ⟨dinc_of_disabled, fun he => ?_⟩
  have hread : (applyAction .dinc s).erasable.read 0o31 = dincWord (s.erasable.read 0o31) := read_dinc hs he
  rw [hread]
  refine ⟨natAbs_val15_dincWord _, bit15_dincWord, dincWord_of_unit, dincWord_of_zero, rfl, fun hw => ?_, fun hw => ?_⟩
  · have ht : applyAction .dinc s = _ := dinc_of_far he hw
    exact ht ▸ unchangedBut_setCore s 0o31 _
  · have ht : applyAction .dinc s = _ := dinc_of_near he hw
    exact ht ▸ unchangedBut_setCore (time6Zero s) 0o31 _

/-! ### The shifts -/

/-- The counters of the shifts with their addresses and interrupts. -/
def shiftCounters : List (ShiftCounter × Nat × Rupt) :=
  [(.inlink, 0o45, .uprupt), (.rnrad, 0o46, .radarupt), (.outlink, 0o57, .downrupt)]

theorem shiftCounters_spec {c : ShiftCounter} {i : Nat} {n : Rupt} (h : (c, i, n) ∈ shiftCounters) :
    i = shiftAddress c ∧ n = shiftRupt c := by
  simp only [shiftCounters, List.mem_cons, Prod.mk.injEq, List.not_mem_nil, or_false] at h
  rcases h with ⟨rfl, rfl, rfl⟩ | ⟨rfl, rfl, rfl⟩ | ⟨rfl, rfl, rfl⟩ <;> exact ⟨rfl, rfl⟩

/-- The state a shift stores into: with the interrupt requested where a 1 leaves bit 15. -/
def shiftRequested (c : ShiftCounter) (s : State) : State :=
  if (s.erasable.read (shiftAddress c)).getLsbD 14 then requestInterrupt (shiftRupt c) s else s

theorem shiftCounter_eq (c : ShiftCounter) (b : Word) (s : State) : shiftCounter c b s =
    setCore (shiftRequested c s) (shiftAddress c)
      (s.erasable.read (shiftAddress c) + s.erasable.read (shiftAddress c) + b) := by
  by_cases h : (s.erasable.read (shiftAddress c)).getLsbD 14 = true
  · rw [shiftRequested, if_pos h]
    exact if_pos h
  · rw [shiftRequested, if_neg h]
    exact if_neg h

theorem shiftRequested_coherent {s : State} (hs : Coherent s) (c : ShiftCounter) : Coherent (shiftRequested c s) := by
  unfold shiftRequested
  split
  · exact hs.requestInterrupt _
  · exact hs

theorem toNat_read_shiftCounter {s : State} (hs : Coherent s) (c : ShiftCounter) (b : Word) :
    ((shiftCounter c b s).erasable.read (shiftAddress c)).toNat =
      (2 * (s.erasable.read (shiftAddress c)).toNat + b.toNat) % 2 ^ 15 := by
  rw [shiftCounter_eq, read_setCore (shiftRequested_coherent hs c), BitVec.toNat_add, BitVec.toNat_add]
  omega

theorem shiftCounter_req (c : ShiftCounter) (b : Word) (s : State) : (shiftCounter c b s).req =
    if (s.erasable.read (shiftAddress c)).getLsbD 14 then s.req.put (shiftRupt c) true else s.req := by
  rw [shiftCounter_eq]
  unfold shiftRequested
  split <;> rfl

theorem unchangedBut_shiftCounter (c : ShiftCounter) (b : Word) (s : State) :
    UnchangedBut [.core (shiftAddress c)] (shiftRequested c s) (shiftCounter c b s) := by
  rw [shiftCounter_eq]
  exact unchangedBut_setCore _ _ _

/-- Settles O22: the shift by 0 and by 1. -/
theorem shiftCountersShift : Obligations.ShiftCountersShift := by
  intro c i n s hmem hs
  obtain ⟨rfl, rfl⟩ := shiftCounters_spec hmem
  exact ⟨toNat_read_shiftCounter hs c 0, unchangedBut_shiftCounter c 0 s, toNat_read_shiftCounter hs c 1,
    unchangedBut_shiftCounter c 1 s⟩

/-- The action that sends a word's bit `j`, counted from the most significant one. -/
def serialBit (c : ShiftCounter) (w : Word) (j : Nat) : EnvAction := if w.getLsbD (14 - j) then .shanc c else .shinc c

/-- The actions that send the first `k` bits of a word. -/
def serialBits (c : ShiftCounter) (w : Word) (k : Nat) : List EnvAction := (List.range k).map (serialBit c w)

theorem applyActions_append (es fs : List EnvAction) (s : State) :
    applyActions (es ++ fs) s = applyActions fs (applyActions es s) := by
  induction es generalizing s with
  | nil => rfl
  | cons e rest ih => exact ih (applyAction e s)

theorem applyActions_serialBits_succ (c : ShiftCounter) (w : Word) (k : Nat) (s : State) :
    applyActions (serialBits c w (k + 1)) s = applyAction (serialBit c w k) (applyActions (serialBits c w k) s) := by
  rw [serialBits, List.range_succ, List.map_append, applyActions_append]
  rfl

theorem applyAction_serialBit (c : ShiftCounter) (w : Word) (j : Nat) (s : State) :
    applyAction (serialBit c w j) s = shiftCounter c (if w.getLsbD (14 - j) then 1 else 0) s := by
  unfold serialBit
  split <;> rfl

theorem toNat_bitWord (w : Word) (i : Nat) : (if w.getLsbD i then 1 else 0 : Word).toNat = w.toNat / 2 ^ i % 2 := by
  rw [BitVec.getLsbD, Nat.testBit_eq_decide_div_mod_eq]
  have h2 : w.toNat / 2 ^ i % 2 = 0 ∨ w.toNat / 2 ^ i % 2 = 1 := Nat.mod_two_eq_zero_or_one _
  rcases h2 with h | h <;> rw [h] <;> rfl

/-- One more bit of a word from its most significant end. -/
theorem div_two_pow_succ (n k : Nat) (hk : k ≤ 14) : n / 2 ^ (15 - (k + 1)) = 2 * (n / 2 ^ (15 - k)) + n / 2 ^ (14 - k) % 2 := by
  have hexp : 15 - k = 14 - k + 1 := by omega
  have hexp' : 15 - (k + 1) = 14 - k := by omega
  rw [hexp, hexp', Nat.pow_succ, ← Nat.div_div_eq_div_mul]
  omega

/-- After `k` bits, at most fourteen, the counter holds the marker above those bits, and nothing has been requested. -/
theorem serialBits_invariant (c : ShiftCounter) (w : Word) {s : State} (hs : Coherent s)
    (hm : s.erasable.read (shiftAddress c) = 1) (k : Nat) (hk : k ≤ 14) :
    ((applyActions (serialBits c w k) s).erasable.read (shiftAddress c)).toNat = 2 ^ k + w.toNat / 2 ^ (15 - k) ∧
      (applyActions (serialBits c w k) s).req = s.req := by
  induction k with
  | zero =>
    have hw : w.toNat / 2 ^ 15 = 0 := Nat.div_eq_of_lt w.isLt
    refine ⟨?_, rfl⟩
    show (s.erasable.read (shiftAddress c)).toNat = 1 + w.toNat / 2 ^ 15
    rw [hm, hw]
    rfl
  | succ k ih =>
    obtain ⟨hread, hreq⟩ := ih (by omega)
    have hbits : w.toNat / 2 ^ (15 - k) < 2 ^ k := by
      rw [Nat.div_lt_iff_lt_mul (by positivity), ← Nat.pow_add, show k + (15 - k) = 15 by omega]
      exact w.isLt
    have hpow : 2 ^ (k + 1) ≤ 2 ^ 14 := Nat.pow_le_pow_right (by decide) hk
    rw [Nat.pow_succ] at hpow
    rw [applyActions_serialBits_succ, applyAction_serialBit]
    constructor
    · rw [toNat_read_shiftCounter (hs.applyActions _), hread, toNat_bitWord, div_two_pow_succ _ k (by omega), Nat.pow_succ,
        Nat.mod_eq_of_lt (by omega)]
      omega
    · have hclear : ((applyActions (serialBits c w k) s).erasable.read (shiftAddress c)).getLsbD 14 = false := by
        rw [← bit15, bit15_eq, hread, decide_eq_false (by omega)]
      rw [shiftCounter_req, hclear, hreq]
      rfl

/-- Settles O23: fourteen bits under the marker, and the fifteenth pushes the marker out. -/
theorem serialWordArrives : Obligations.SerialWordArrives := by
  intro c i n w s hmem hs hm
  obtain ⟨rfl, rfl⟩ := shiftCounters_spec hmem
  have hw := w.isLt
  obtain ⟨hread, hreq⟩ := serialBits_invariant c w hs hm 14 (by decide)
  show (applyActions (serialBits c w 15) s).erasable.read _ = w ∧ (applyActions (serialBits c w 15) s).req = _
  rw [applyActions_serialBits_succ, applyAction_serialBit]
  constructor
  · apply BitVec.eq_of_toNat_eq
    rw [toNat_read_shiftCounter (hs.applyActions _), hread, toNat_bitWord]
    omega
  · have hset : ((applyActions (serialBits c w 14) s).erasable.read (shiftAddress c)).getLsbD 14 = true := by
      rw [← bit15, bit15_eq, hread, decide_eq_true (by omega)]
    rw [shiftCounter_req, hset, hreq]
    rfl

end Sys2Proof.Machine
end

section
/-!
PROOF. Requests, words and counts from outside (spec/60_exceptions.md R383, R386; 45_unprogrammed_sequences.md R367): one latch, one counter
or one channel each.
-/

namespace Sys2Proof.Machine

theorem put_put_same (r : Requests) (n : Rupt) (b : Bool) : (r.put n b).put n b = r.put n b := by cases n <;> rfl

/-- A second request of a pending interrupt changes nothing (R386). -/
theorem requestInterrupt_twice (n : Rupt) (s : State) :
    requestInterrupt n (requestInterrupt n s) = requestInterrupt n s :=
  congrArg s.setReq (put_put_same s.req n true)

/-- The actions that are one request. -/
theorem applyAction_request {e : EnvAction} {n : Rupt}
    (h : (e, n) ∈ [(EnvAction.keystroke1, Rupt.keyrupt1), (.keystroke2, .keyrupt2), (.downlinkReady, .downrupt),
      (.rupt10Event, .rupt10)]) (s : State) : applyAction e s = requestInterrupt n s := by
  simp only [List.mem_cons, Prod.mk.injEq, List.not_mem_nil, or_false] at h
  rcases h with ⟨rfl, rfl⟩ | ⟨rfl, rfl⟩ | ⟨rfl, rfl⟩ | ⟨rfl, rfl⟩ <;> rfl

theorem pending_put_true_eq (r : Requests) (n m : Rupt) :
    (r.put n true).pending m = (decide (m = n) || r.pending m) := by
  rw [pending_put]
  by_cases h : m = n <;> simp [h]

theorem read_setChannelWord {s : State} (hs : Coherent s) (c d : Nat) (w : Word) :
    (setChannelWord s c w).channels.read d = if d = c then w else s.channels.read d :=
  Memory.read_write hs.channels_wf c d w

/-- Out of detent, channel 0o31 loses bit 15 and no other channel changes (R59). -/
theorem read_clearDetent {s : State} (hs : Coherent s) (d : Nat) : (clearDetent s).channels.read d =
    if d = 0o31 then s.channels.read 0o31 &&& 0o37777 else s.channels.read d :=
  read_setChannelWord hs 0o31 d _

theorem rhcAddress_of_mem {c : RhcAxis} {i : Nat} (h : (c, i) ∈ [(RhcAxis.pitch, 0o42), (.yaw, 0o43), (.roll, 0o44)]) :
    i = rhcAddress c ∧ (i = 0o42 ∨ i = 0o43 ∨ i = 0o44) := by
  simp only [List.mem_cons, Prod.mk.injEq, List.not_mem_nil, or_false] at h
  rcases h with ⟨rfl, rfl⟩ | ⟨rfl, rfl⟩ | ⟨rfl, rfl⟩ <;> exact ⟨rfl, by decide⟩

/-- A deposit at an open gate. -/
def deposited (s : State) (i : Nat) (w : Word) (outOfDetent : Bool) : State :=
  if outOfDetent then clearDetent (setCore s i w) else setCore s i w

theorem applyAction_rhcDeposit (c : RhcAxis) (w : Word) (outOfDetent : Bool) (s : State) :
    applyAction (.rhcDeposit c w outOfDetent) s =
      if rhcCounts s (rhcAddress c) = true ∧ (val15 w).natAbs ≤ 57 then deposited s (rhcAddress c) w outOfDetent else s := by
  simp only [applyAction, deposited, Bool.and_eq_true, decide_eq_true_eq]

theorem read_deposited {s : State} (hs : Coherent s) (i : Nat) (w : Word) (outOfDetent : Bool) :
    (deposited s i w outOfDetent).erasable.read i = w := by
  cases outOfDetent <;> exact read_setCore hs i w

theorem channels_deposited {s : State} (hs : Coherent s) {i : Nat} (hi : erasableKey i = true) (w : Word) (outOfDetent : Bool)
    (d : Nat) : (deposited s i w outOfDetent).channels.read d =
      if d = 0o31 ∧ outOfDetent = true then s.channels.read 0o31 &&& 0o37777 else s.channels.read d := by
  cases outOfDetent with
  | false => simp [deposited, setCore]
  | true => simpa [deposited, setCore] using read_clearDetent (hs.setCore hi w) d

theorem unchangedBut_deposited (s : State) (i : Nat) (w : Word) (outOfDetent : Bool) :
    UnchangedBut [.core i] { s with channels := (deposited s i w outOfDetent).channels } (deposited s i w outOfDetent) := by
  cases outOfDetent
  · exact unchangedBut_setCore s i w
  · exact unchangedBut_setCore { s with channels := (clearDetent s).channels } i w

theorem rhcDeposit_spec {s : State} (hs : Coherent s) {c : RhcAxis} {i : Nat} (w : Word) (outOfDetent : Bool)
    (hmem : (c, i) ∈ [(RhcAxis.pitch, 0o42), (.yaw, 0o43), (.roll, 0o44)]) :
    let gate := s.vehicle = .lm ∧ (s.channels.read 0o13).getLsbD 7 = true ∧ (s.channels.read 0o13).getLsbD 8 = true ∧
      (val15 w).natAbs ≤ 57
    let t := applyAction (.rhcDeposit c w outOfDetent) s
    (gate → t.erasable.read i = w ∧
      t.channels.read 0o31 = (if outOfDetent then s.channels.read 0o31 &&& 0o37777 else s.channels.read 0o31) ∧
      (∀ d, d ≠ 0o31 → t.channels.read d = s.channels.read d) ∧ UnchangedBut [.core i] { s with channels := t.channels } t) ∧
    (¬gate → t = s) := by
  obtain ⟨rfl, hi⟩ := rhcAddress_of_mem hmem
  have hkey : erasableKey (rhcAddress c) = true := by cases c <;> decide
  have hgate : rhcCounts s (rhcAddress c) = true ∧ (val15 w).natAbs ≤ 57 ↔ s.vehicle = .lm ∧
      (s.channels.read 0o13).getLsbD 7 = true ∧ (s.channels.read 0o13).getLsbD 8 = true ∧ (val15 w).natAbs ≤ 57 := by
    rw [rhcCounts_iff s hi, and_assoc, and_assoc]
  dsimp only
  rw [applyAction_rhcDeposit]
  refine ⟨fun hg => ?_, fun hg => if_neg fun h => hg (hgate.mp h)⟩
  rw [if_pos (hgate.mpr hg)]
  refine ⟨read_deposited hs _ w _, ?_, fun d hd => ?_, unchangedBut_deposited s _ w _⟩
  · rw [channels_deposited hs hkey]
    simp
  · rw [channels_deposited hs hkey, if_neg (fun h => hd h.1)]

/-- Settles O24: one request, one counter with its request, one channel, and the deposit under its gate. -/
theorem environmentRequests : Obligations.EnvironmentRequests := by
  intro s hs
  refine ⟨fun e n hmem => ?_, pending_put_true_eq s.req, fun w => ?_, fun c w hc => ?_, fun c i w out hmem => ?_⟩
  · simp only [applyAction_request hmem]
    exact ⟨rfl, requestInterrupt_twice n s⟩
  · exact ⟨read_setCore hs 0o45 w, unchangedBut_setCore (requestInterrupt .uprupt s) 0o45 w⟩
  · have ht : applyAction (.setChannel c w) s = setChannelWord s c.toNat w := if_pos hc
    dsimp only
    rw [ht]
    exact ⟨(read_setChannelWord hs _ _ w).trans (if_pos rfl), fun d hd => (read_setChannelWord hs _ d w).trans (if_neg hd), rfl⟩
  · exact rhcDeposit_spec hs w out hmem

end Sys2Proof.Machine
end

section
/-!
PROOF. The masks of EB, FB, Z and BB and the editing registers, bit by bit (spec/10_state.md R23-R26, R47-R50; 20_memory.md R91, R94).
-/

namespace Sys2Proof.Machine

/-- EB keeps bits 11-9 of a word. -/
theorem ebWord_ebField (w : Word) : ebWord (ebField w) = w &&& 0o03400 := by
  apply BitVec.eq_of_getLsbD_eq
  intro b hb
  simp only [ebWord, ebField, BitVec.getLsbD_append, BitVec.getLsbD_extractLsb', BitVec.getLsbD_and]
  interval_cases b <;> simp

/-- FB keeps bits 15-11 of a word. -/
theorem fbWord_fbField (w : Word) : fbWord (fbField w) = w &&& 0o76000 := by
  apply BitVec.eq_of_getLsbD_eq
  intro b hb
  simp only [fbWord, fbField, BitVec.getLsbD_append, BitVec.getLsbD_extractLsb', BitVec.getLsbD_and]
  interval_cases b <;> simp

/-- Z keeps bits 12-1 of a word. -/
theorem zWord_zField (w : Word) : zWord (zField w) = w &&& 0o07777 := by
  apply BitVec.eq_of_getLsbD_eq
  intro b hb
  simp only [zWord, zField, BitVec.getLsbD_append, BitVec.getLsbD_extractLsb', BitVec.getLsbD_and]
  interval_cases b <;> simp

/-- BB keeps bits 15-11 and 3-1 of a word. -/
theorem bbWord_fields (w : Word) : bbWord (fbField w) (bbEbField w) = w &&& 0o76007 := by
  apply BitVec.eq_of_getLsbD_eq
  intro b hb
  simp only [bbWord, fbField, bbEbField, BitVec.getLsbD_append, BitVec.getLsbD_extractLsb', BitVec.getLsbD_and]
  interval_cases b <;> simp

/-- A store to BB shows in EB eight bits higher. -/
theorem ebWord_bbEbField (w : Word) : ebWord (bbEbField w) = (w &&& 0o00007) <<< 8 := by
  apply BitVec.eq_of_getLsbD_eq
  intro b hb
  simp only [ebWord, bbEbField, BitVec.getLsbD_append, BitVec.getLsbD_extractLsb', BitVec.getLsbD_shiftLeft, BitVec.getLsbD_and]
  interval_cases b <;> simp

/-- BB reads as FB with the three bits of EB lowest (R26). -/
theorem bbWord_eq (f : BitVec 5) (e : BitVec 3) : bbWord f e = fbWord f + (ebWord e >>> 8) := by
  revert f e
  decide

/-- A store at address 7 or in fixed memory is discarded (R91, R96). -/
theorem putWide_discarded {p : Place} (hp : p = .zero ∨ ∃ i, p = .fixed i) (s : State) (v : Wide) : putWide s p v = s := by
  rcases hp with rfl | ⟨i, rfl⟩ <;> rfl

/-- Settles O28: the store and the Rewrite by their laws, the bank registers by their masks. -/
theorem storeThenRead : Obligations.StoreThenRead := by
  refine ⟨fun s p v hs => ⟨getWide_putWide hs.erasable_wf p v, unchangedBut_putWide s p v, fun hp => putWide_discarded hp s v,
    getWide_rewrite hs.erasable_wf p, unchangedBut_rewrite hs.erasable_wf p⟩, fun s w => ?_⟩
  dsimp only
  exact ⟨ebWord_ebField w, fbWord_fbField w, zWord_zField w, bbWord_fields w, bbWord_eq s.fb s.eb,
    (bbWord_eq s.fb (ebField w)).trans (congrArg (fun e : Word => fbWord s.fb + (e >>> 8)) (ebWord_ebField w)), rfl,
    (bbWord_eq (fbField w) s.eb).trans (congrArg (fun f : Word => f + (ebWord s.eb >>> 8)) (fbWord_fbField w)), rfl,
    fbWord_fbField w, ebWord_bbEbField w⟩

theorem getLsbD_edit_cyr (w : Word) {b : Nat} (hb : b < 15) : (edit 0o20 w).getLsbD b = w.getLsbD ((b + 1) % 15) := by
  rw [edit, if_pos rfl, BitVec.getLsbD_append, BitVec.getLsbD_extractLsb']
  interval_cases b <;> simp

theorem getLsbD_edit_sr (w : Word) {b : Nat} (hb : b < 15) : (edit 0o21 w).getLsbD b = w.getLsbD (min (b + 1) 14) := by
  rw [edit, if_neg (by decide), if_pos rfl, BitVec.getLsbD_append, BitVec.getLsbD_extractLsb']
  interval_cases b <;> simp

theorem getLsbD_edit_cyl (w : Word) {b : Nat} (hb : b < 15) : (edit 0o22 w).getLsbD b = w.getLsbD ((b + 14) % 15) := by
  rw [edit, if_neg (by decide), if_neg (by decide), if_pos rfl, BitVec.getLsbD_append, BitVec.getLsbD_extractLsb']
  interval_cases b <;> simp

theorem getLsbD_edit_edop (w : Word) {b : Nat} (hb : b < 7) : (edit 0o23 w).getLsbD b = w.getLsbD (b + 7) := by
  rw [edit, if_neg (by decide), if_neg (by decide), if_neg (by decide), if_pos rfl, BitVec.getLsbD_append, BitVec.getLsbD_extractLsb']
  interval_cases b <;> simp

/-- Settles O29: the four registers, and the words that do not edit. -/
theorem editingRegisters : Obligations.EditingRegisters := fun w _ hb =>
  ⟨getLsbD_edit_cyr w hb, getLsbD_edit_sr w hb, getLsbD_edit_cyl w hb, getLsbD_edit_edop w,
    fun _ hi => edit_of_not_editing (by omega) w⟩

end Sys2Proof.Machine
end

section
/-!
PROOF. INDEX, CCS, MSU and TS (spec/40_sequence_control.md R166, R167; 41_transfer_control.md R200; 43_arithmetic.md R283;
42_load_store_exchange.md R250): what each leaves in the registers, and the frame of its Rewrite or store.
-/

namespace Sys2Proof.Machine

/-- INDEX prepares the hidden state and rewrites its operand; the order does not matter. -/
theorem pendIndex_eq (s : State) (p : Place) (x : Bool) :
    (pendIndex s p).setExtracode x = rewrite (withIndex s (ovc (getWide s p)) x) p := by
  cases p <;> rfl

/-- A Rewrite gives the same word whatever the hidden state. -/
theorem rewrittenAs_withIndex (s : State) (v : Word) (x : Bool) (p : Place) :
    rewrittenAs (withIndex s v x) p = rewrittenAs s p := by
  cases p <;> rfl

/-- The shape both forms of INDEX share. -/
theorem onOperand_pendIndex {s : State} (hs : Coherent s) {k : Addr} {p : Place} (hp : locate s k = .ok p) (x : Bool) :
    ∃ t, onOperand s k (fun p => (pendIndex s p).setExtracode x) = .next t ∧ getWide t p = rewrittenAs s p ∧
      UnchangedBut p.edited { s with indexPending := true, indexValue := ovc (getWide s p), extracode := x } t := by
  have hwf : (withIndex s (ovc (getWide s p)) x).erasable.wf = true := hs.erasable_wf
  refine ⟨_, onOperand_of_locate hp _, ?_, ?_⟩
  · rw [pendIndex_eq, getWide_rewrite hwf, rewrittenAs_withIndex]
  · rw [pendIndex_eq]
    exact unchangedBut_rewrite hwf p

/-- Settles O34: one shape, with the Extracode flag each form leaves. -/
theorem indexPends : Obligations.IndexPends := fun _ _ hs =>
  ⟨fun _ hp => onOperand_pendIndex hs hp false, fun _ hp => onOperand_pendIndex hs hp true⟩

/-! ### CCS -/

/-- The diminished absolute value of CCS's operand. -/
def ccsValue (v : Wide) : Wide :=
  if v = 0 ∨ v = 0o177777 then 0 else if v.getLsbD 15 then ~~~v - 1 else v - 1

/-- How many words CCS skips. -/
def ccsSkip (v : Wide) : Addr :=
  if v = 0 then 1 else if v = 0o177777 then 3 else if v.getLsbD 15 then 2 else 0

theorem countCompareSkip_eq (v : Wide) (s : State) :
    countCompareSkip v s = (s.setA (ccsValue v)).setZ (s.z + ccsSkip v) := by
  unfold countCompareSkip ccsValue ccsSkip bit16
  by_cases h0 : v = 0
  · rw [if_pos h0, if_pos (.inl h0), if_pos h0]
    rfl
  by_cases h1 : v = 0o177777
  · rw [if_neg h0, if_pos h1, if_pos (.inr h1), if_neg h0, if_pos h1]
    rfl
  rw [if_neg h0, if_neg h1, if_neg (not_or.mpr ⟨h0, h1⟩), if_neg h0, if_neg h1]
  by_cases hb : v.getLsbD 15 = true
  · rw [if_pos hb, if_pos hb, if_pos hb]
    rfl
  · rw [if_neg hb, if_neg hb, if_neg hb]
    exact congrArg (s.setA (v - 1)).setZ (BitVec.add_zero s.z).symm

/-- A negative wide value, as a number. -/
theorem getLsbD_15_iff (v : Wide) : v.getLsbD 15 = true ↔ 2 ^ 15 ≤ v.toNat := by
  have hv := v.isLt
  rw [BitVec.getLsbD, Nat.testBit_eq_decide_div_mod_eq, decide_eq_true_eq]
  omega

/-- The two zeros as numbers. -/
theorem wide_zero_iff (v : Wide) : v = 0 ∨ v = 0o177777 ↔ v.toNat = 0 ∨ v.toNat = 2 ^ 16 - 1 :=
  or_congr ⟨congrArg BitVec.toNat, fun h => BitVec.eq_of_toNat_eq h⟩ ⟨congrArg BitVec.toNat, fun h => BitVec.eq_of_toNat_eq h⟩

theorem toNat_wide_sub_one {v : Wide} (h : v.toNat ≠ 0) : (v - 1).toNat = v.toNat - 1 := by
  have hv := v.isLt
  have hone : (1 : Wide).toNat = 1 := rfl
  rw [BitVec.toNat_sub, hone]
  omega

theorem toNat_ccsValue (v : Wide) : (ccsValue v).toNat =
    if v.toNat = 0 ∨ v.toNat = 2 ^ 16 - 1 then 0
    else if 2 ^ 15 ≤ v.toNat then 2 ^ 16 - 1 - v.toNat - 1 else v.toNat - 1 := by
  have hv := v.isLt
  simp only [ccsValue, wide_zero_iff, getLsbD_15_iff]
  split_ifs with h0 hneg
  · rfl
  · have hne : (~~~v).toNat ≠ 0 := by rw [BitVec.toNat_not]; omega
    rw [toNat_wide_sub_one hne, BitVec.toNat_not]
  · exact toNat_wide_sub_one (by omega)

/-- The diminished absolute value of a word. -/
theorem toNat_ccsValue_sx16 (w : Word) : (ccsValue (sx16 w)).toNat = (val15 w).natAbs - 1 := by
  have hw := w.isLt
  have hs := toNat_sx16 w
  rw [toNat_ccsValue, natAbs_val15]
  split_ifs at hs ⊢ <;> omega

/-- A magnitude below 2^14 is a word without overflow, and its own value. -/
theorem value_of_small {v : Wide} (h : v.toNat < 2 ^ 14) : hasOverflow v = false ∧ val15 (ovc v) = v.toNat := by
  constructor
  · rw [hasOverflow, posOverflow_eq, negOverflow_eq, Bool.or_eq_false_iff, decide_eq_false_iff_not, decide_eq_false_iff_not]
    omega
  · rw [val15_eq, toNat_ovc]
    split_ifs <;> omega

theorem countCompareSkip_spec {s : State} (hs : Coherent s) (p : Place) :
    let v := getWide s p
    let t := countCompareSkip v (rewrite s p)
    t.a = ccsValue v ∧ t.z = s.z + ccsSkip v ∧ (p ≠ .a → p ≠ .z → getWide t p = rewrittenAs s p) ∧
      UnchangedBut (.a :: .z :: p.edited) s t := by
  intro v t
  have ht : t = ((rewrite s p).setA (ccsValue v)).setZ ((rewrite s p).z + ccsSkip v) := countCompareSkip_eq v _
  have hregisters := (unchangedBut_setA (rewrite s p) (ccsValue v)).trans (unchangedBut_setZ _ ((rewrite s p).z + ccsSkip v))
  rw [ht]
  refine ⟨rfl, congrArg (· + ccsSkip v) (rewrite_z s p), fun ha hz => ?_, ?_⟩
  · have hapart : p.apartFrom ([.a] ++ [.z]) = true := by
      rw [Place.apartFrom_append, Place.apartFrom_a ha, Place.apartFrom_z hz]
      rfl
    rw [hregisters.places p hapart, getWide_rewrite hs.erasable_wf]
  · refine ((unchangedBut_rewrite hs.erasable_wf p).trans hregisters).mono ?_
    intro x hx
    simp only [List.mem_append, List.mem_cons, List.not_mem_nil, or_false] at hx ⊢
    tauto

/-- Outside A, L, Q the diminished value is exactly one less in magnitude, but for the zeros. -/
theorem ccsValue_of_word (w : Word) : hasOverflow (ccsValue (sx16 w)) = false ∧
      val15 (ovc (ccsValue (sx16 w))) = (val15 w).natAbs - 1 ∨ val15 w = 0 ∧ ccsValue (sx16 w) = 0 := by
  have hn := toNat_ccsValue_sx16 w
  have hlt := natAbs_val15_lt w
  by_cases hz : val15 w = 0
  · refine .inr ⟨hz, BitVec.eq_of_toNat_eq ?_⟩
    rw [hn, hz]
    rfl
  · obtain ⟨hclear, hval⟩ := value_of_small (v := ccsValue (sx16 w)) (by omega)
    exact .inl ⟨hclear, by rw [hval, hn]; omega⟩

/-- Outside A, L, Q the 16-bit reading is the word sign-extended (R92). -/
theorem getWide_of_is16_eq_false {p : Place} (hp : p.is16 = false) (s : State) : getWide s p = sx16 (getWord s p) := by
  cases p with
  | a | l | q => cases hp
  | eb | fb | z | bb | zero | core _ | fixed _ => rfl

end Sys2Proof.Machine

namespace Sys2Proof

open Machine

/-- Settles O38: the value and the skip by the four cases of the operand, and the frame. It stands outside `Machine`, where its name
is the operation's. -/
theorem countCompareSkip : Obligations.CountCompareSkip := by
  intro s k p hs hp v
  obtain ⟨ha, hz, hoperand, hframe⟩ := countCompareSkip_spec hs p
  refine ⟨_, onOperand_of_locate hp _, fun h0 => ?_, fun h1 => ?_, fun h0 hb => ?_, fun h1 hb => ?_, fun hw => ?_, hoperand,
    hframe⟩
  · have hv : getWide s p = 0 := h0
    rw [ha, hz, hv]
    exact ⟨rfl, rfl⟩
  · have hv : getWide s p = 0o177777 := h1
    rw [ha, hz, hv]
    exact ⟨rfl, rfl⟩
  · have h1 : v ≠ 0o177777 := fun e => absurd (e ▸ hb) (by decide)
    refine ⟨ha.trans ?_, hz.trans ?_⟩
    · exact (if_neg (not_or.mpr ⟨h0, h1⟩)).trans (if_neg (Bool.eq_false_iff.mp hb))
    · have hskip : ccsSkip v = 0 := (if_neg h0).trans ((if_neg h1).trans (if_neg (Bool.eq_false_iff.mp hb)))
      exact (congrArg (s.z + ·) hskip).trans (BitVec.add_zero s.z)
  · have h0 : v ≠ 0 := fun e => absurd (e ▸ hb) (by decide)
    refine ⟨ha.trans ?_, hz.trans ?_⟩
    · exact (if_neg (not_or.mpr ⟨h0, h1⟩)).trans (if_pos hb)
    · exact congrArg (s.z + ·) ((if_neg h0).trans ((if_neg h1).trans (if_pos hb)))
  · rw [ha, getWide_of_is16_eq_false hw]
    exact ccsValue_of_word (getWord s p)

end Sys2Proof

namespace Sys2Proof.Machine

/-! ### MSU -/

/-- What MSU leaves in A, by the width of its operand. -/
theorem modularDifference_eq (s : State) (p : Place) : modularDifference s p =
    if p.is16 then (if (s.a - getWide s p).getLsbD 15 then s.a - getWide s p - 1 else s.a - getWide s p)
    else sx16 (if (ovc s.a - getWord s p).getLsbD 14 then ovc s.a - getWord s p - 1 else ovc s.a - getWord s p) := rfl

/-- One less, where it is negative, turns a two's-complement word into the one's-complement word of the same value; -2^14 has
none (decision D31). -/
theorem val15_onesComplement {d : Word} (h : d.toInt ≠ -2 ^ 14) :
    val15 (if d.getLsbD 14 then d - 1 else d) = d.toInt := by
  have hd := d.isLt
  have hbit : d.getLsbD 14 = decide (2 ^ 14 ≤ d.toNat) := bit15_eq d
  have hone : (1 : Word).toNat = 1 := rfl
  rw [BitVec.toInt_eq_toNat_cond] at h ⊢
  rw [hbit]
  simp only [decide_eq_true_eq]
  split_ifs at h ⊢
  · rw [val15_eq, BitVec.toNat_sub, hone]
    omega
  · rw [val15_eq, BitVec.toNat_sub, hone]
    split_ifs <;> omega
  · rw [val15_eq]
    split_ifs <;> omega
  · omega

/-- Settles O42: the shape of the loads of A, with the difference as its value. -/
theorem modularSubtract : Obligations.ModularSubtract := by
  intro s p k hs hp
  obtain ⟨t, ht, hload⟩ := onOperand_loadedA hs hp fun p => modularDifference s p
  rw [modularDifference_eq] at hload
  refine ⟨t, ht, hload, fun hw hne => ?_⟩
  rw [hload.a, hw, if_neg Bool.false_ne_true, ovc_sx16]
  exact val15_onesComplement hne

/-! ### TS -/

theorem putWide_z_of_ne {p : Place} (hp : p ≠ .z) (s : State) (v : Wide) : (putWide s p v).z = s.z := by
  cases p with
  | z => exact absurd rfl hp
  | a | l | q | eb | fb | bb | zero | core _ | fixed _ => rfl

theorem storeA_of_clear {s : State} (h : hasOverflow s.a = false) (p : Place) : storeA s p = putWide s p s.a :=
  if_neg (Bool.eq_false_iff.mp h)

theorem storeA_of_overflow {s : State} (h : hasOverflow s.a = true) (p : Place) :
    storeA s p = ((putWide s p s.a).setA (overflowUnit s.a)).setZ ((putWide s p s.a).z + 1) := if_pos h

theorem getWide_storeA {s : State} (hs : Coherent s) {p : Place} (ha : p ≠ .a) (hz : p ≠ .z) :
    getWide (storeA s p) p = storedAs s s.a p := by
  cases h : hasOverflow s.a with
  | false => rw [storeA_of_clear h, getWide_putWide hs.erasable_wf]
  | true =>
    have hapart : p.apartFrom ([.a] ++ [.z]) = true := by
      rw [Place.apartFrom_append, Place.apartFrom_a ha, Place.apartFrom_z hz]
      rfl
    rw [storeA_of_overflow h, ((unchangedBut_setA _ _).trans (unchangedBut_setZ _ _)).places p hapart,
      getWide_putWide hs.erasable_wf]

/-- With overflow the unit of its sign goes to A and one word is skipped. -/
theorem storeA_registers {s : State} (h : hasOverflow s.a = true) {p : Place} (hz : p ≠ .z) :
    (storeA s p).a = overflowUnit s.a ∧ (storeA s p).z = s.z + 1 := by
  rw [storeA_of_overflow h]
  exact ⟨rfl, congrArg (· + 1) (putWide_z_of_ne hz s s.a)⟩

theorem exec_ts_of_locate {s : State} {k : EAddr} (h0 : k ≠ 0) (h5 : k ≠ 5) {p : Place} (hp : locate s (erasableAddr k) = .ok p) :
    exec (.ts k) s = .next (storeA s p) :=
  ((if_neg h0).trans (if_neg h5)).trans (onOperand_of_locate hp _)

/-- An erasable operand at another address than 0 and 5 is not A and not Z. -/
theorem operand_ne_a_z {s : State} {k : EAddr} (h0 : k ≠ 0) (h5 : k ≠ 5) {p : Place} (hp : locate s (erasableAddr k) = .ok p) :
    p ≠ .a ∧ p ≠ .z := by
  obtain ⟨ha, -, -, -, -, hz, -, -⟩ := address_of_register hp
  rw [toNat_erasableAddr] at ha hz
  exact ⟨fun e => h0 (BitVec.eq_of_toNat_eq (ha e)), fun e => h5 (BitVec.eq_of_toNat_eq (hz e))⟩

/-- Settles O46: the store, and what an overflow of A does besides. -/
theorem transferToStorage : Obligations.TransferToStorage := by
  intro s k p hs h0 h5 hp
  obtain ⟨ha, hz⟩ := operand_ne_a_z h0 h5 hp
  refine ⟨_, exec_ts_of_locate h0 h5 hp, getWide_storeA hs ha hz, fun h => ?_, fun h => ?_, fun h => ?_, ?_⟩
  · rw [storeA_of_clear h]
    exact ⟨putWide_a_of_ne ha s s.a, putWide_z_of_ne hz s s.a⟩
  · have hunit : overflowUnit s.a = 0o000001 := if_pos h
    rw [← hunit]
    exact storeA_registers (by rw [hasOverflow, h, Bool.true_or]) hz
  · have hpos : posOverflow s.a = false := by
      rw [posOverflow, ((negOverflow_iff s.a).mp h).1]
      rfl
    have hunit : overflowUnit s.a = 0o177776 := (if_neg (Bool.eq_false_iff.mp hpos)).trans (if_pos h)
    rw [← hunit]
    exact storeA_registers (by rw [hasOverflow, h, Bool.or_true]) hz
  · exact (unchangedBut_storeA s p).mono (by simp)

end Sys2Proof.Machine
end

section
/-!
PROOF. DCA, DCS, DXCH and DAS (spec/42_load_store_exchange.md R240, R243, R258; 43_arithmetic.md R276): two operands one after the other. The
words of a pair share no state, so what one access leaves in its word the other does not touch. Then the overlaps with A, L.
-/

namespace Sys2Proof.Machine

/-! ### What the rules of a place rest on -/

/-- A Rewrite depends on what its place reads as alone. -/
theorem rewrittenAs_congr {s t : State} {p : Place} (h : getWide t p = getWide s p) : rewrittenAs t p = rewrittenAs s p := by
  cases p with
  | core i =>
    have hsx : sx16 (t.erasable.read i) = sx16 (s.erasable.read i) := h
    have hread : t.erasable.read i = s.erasable.read i := by simpa using congrArg ovc hsx
    rw [rewrittenAs, rewrittenAs, hread]
  | a | l | q | eb | fb | z | bb | zero | fixed _ => exact h

/-- What a store leaves depends on the state in fixed memory only, where it leaves what was there. -/
theorem storedAs_congr {s t : State} {p : Place} (h : getWide t p = getWide s p) (v : Wide) :
    storedAs t v p = storedAs s v p := by
  cases p with
  | fixed i => exact h
  | a | l | q | eb | fb | z | bb | zero | core _ => rfl

theorem erasable_wf_putWide {s : State} (h : s.erasable.wf = true) (p : Place) (v : Wide) :
    (putWide s p v).erasable.wf = true := by
  cases p with
  | core i => exact Memory.wf_write h i _
  | a | l | q | eb | fb | z | bb | zero | fixed _ => exact h

theorem erasable_wf_rewrite {s : State} (h : s.erasable.wf = true) (p : Place) : (rewrite s p).erasable.wf = true := by
  cases p with
  | core i => exact Memory.wf_write h i _
  | a | l | q | eb | fb | z | bb | zero | fixed _ => exact h

theorem erasable_wf_exchangeWith {s : State} (h : s.erasable.wf = true) (r p : Place) :
    (exchangeWith r s p).erasable.wf = true := by
  unfold exchangeWith
  dsimp only
  split
  · exact erasable_wf_putWide h p _
  · exact erasable_wf_putWide (erasable_wf_putWide h p _) r _

theorem Place.edited_subset (p : Place) : p.edited ⊆ [p] := by
  cases p with
  | core i => by_cases hi : 0o20 ≤ i ∧ i ≤ 0o23 <;> simp [Place.edited, hi]
  | a | l | q | eb | fb | z | bb | zero | fixed _ => simp [Place.edited]

theorem Place.apartFrom_cons {x y : Place} {c : List Place} (hy : x.apartFrom [y] = true) (hc : x.apartFrom c = true) :
    x.apartFrom (y :: c) = true := by
  have h := Place.apartFrom_append x [y] c
  rw [hy, hc] at h
  exact h

/-- The places of a double-word operand that holds neither A nor L. -/
structure PairApart (lo hi : Place) : Prop where
  lo_a : lo ≠ .a
  lo_l : lo ≠ .l
  hi_a : hi ≠ .a
  hi_l : hi ≠ .l
  lo_from_hi : lo.apartFrom [hi] = true
  hi_from_lo : hi.apartFrom [lo] = true

/-- The addresses of a pair's words, as the registers they can be: A is at 0, L at 1. -/
theorem locatePair_registers {s : State} {f : Addr} {lo hi : Place} (h : locatePair s f = .ok (lo, hi)) :
    (lo = .a → f.toNat = 0) ∧ (lo = .l → f.toNat = 1) ∧ (hi = .a → f.toNat = 1) ∧ (hi = .l → f.toNat = 2) := by
  obtain ⟨hf, hlo, hhi⟩ := locatePair_cases h
  obtain ⟨hla, hll, -⟩ := address_of_register hlo
  obtain ⟨hha, hhl, -⟩ := address_of_register hhi
  have h0 : f.toNat ≠ 0 := fun e => hf (BitVec.eq_of_toNat_eq e)
  rw [toNat_sub_one hf] at hha hhl
  exact ⟨hla, hll, fun e => by have := hha e; omega, fun e => by have := hhl e; omega⟩

theorem locatePair_lo_from_hi {s : State} {f : Addr} {lo hi : Place} (h : locatePair s f = .ok (lo, hi)) :
    lo.apartFrom [hi] = true :=
  Place.apartFrom_of_not_shares (Place.sharesState_symm (locatePair_apart h))

theorem locatePair_hi_from_lo {s : State} {f : Addr} {lo hi : Place} (h : locatePair s f = .ok (lo, hi)) :
    hi.apartFrom [lo] = true :=
  Place.apartFrom_of_not_shares (locatePair_apart h)

/-- From field 3 on a pair holds neither A nor L. -/
theorem pairApart_of_locatePair {s : State} {f : Addr} {lo hi : Place} (h : locatePair s f = .ok (lo, hi))
    (hf : 3 ≤ f.toNat) : PairApart lo hi := by
  obtain ⟨hla, hll, hha, hhl⟩ := locatePair_registers h
  refine ⟨fun e => ?_, fun e => ?_, fun e => ?_, fun e => ?_, locatePair_lo_from_hi h, locatePair_hi_from_lo h⟩
  · have := hla e; omega
  · have := hll e; omega
  · have := hha e; omega
  · have := hhl e; omega

/-! ### DCA and DCS -/

/-- A register loaded through `f` from the place, and the place rewritten: one half of a double load. -/
theorem rewrite_setL_frame {s : State} (h : s.erasable.wf = true) (p : Place) (v : Wide) :
    UnchangedBut (.l :: p.edited) s (rewrite (s.setL v) p) :=
  (unchangedBut_setL s v).trans (unchangedBut_rewrite (s := s.setL v) h p)

theorem rewrite_setA_frame {s : State} (h : s.erasable.wf = true) (p : Place) (v : Wide) :
    UnchangedBut (.a :: p.edited) s (rewrite (s.setA v) p) :=
  (unchangedBut_setA s v).trans (unchangedBut_rewrite (s := s.setA v) h p)

/-- A double load from a pair apart from A, L. -/
theorem loadedPair_loadPair (f : Wide → Wide) {s : State} (hs : s.erasable.wf = true) {lo hi : Place} (hp : PairApart lo hi) :
    LoadedPair s (loadPair f s lo hi) lo hi f := by
  let t := rewrite (s.setL (f (getWide s lo))) lo
  let u := rewrite (t.setA (f (getWide t hi))) hi
  have ht : t.erasable.wf = true := erasable_wf_rewrite (s := s.setL (f (getWide s lo))) hs lo
  have hst : UnchangedBut (.l :: lo.edited) s t := rewrite_setL_frame hs lo _
  have htu : UnchangedBut (.a :: hi.edited) t u := rewrite_setA_frame ht hi _
  have hcorrect : UnchangedBut [.l] u (correctL u) := unchangedBut_setL u _
  have hhi : getWide t hi = getWide s hi :=
    hst.places hi (Place.apartFrom_cons (Place.apartFrom_l hp.hi_l)
      (Place.apartFrom_of_subset lo.edited_subset hp.hi_from_lo))
  have hlo : getWide t lo = rewrittenAs s lo :=
    (getWide_rewrite (s := s.setL (f (getWide s lo))) hs lo).trans
      (rewrittenAs_congr ((unchangedBut_setL s _).places lo (Place.apartFrom_l hp.lo_l)))
  refine ⟨?_, ?_, ?_, ?_, ?_⟩
  · show u.a = f (getWide s hi)
    rw [← hhi]
    exact rewrite_a _ hi
  · show sx16 (ovc u.l) = sx16 (ovc (f (getWide s lo)))
    have hul : u.l = f (getWide s lo) := (rewrite_l _ hi).trans (rewrite_l _ lo)
    rw [hul]
  · calc getWide (correctL u) lo
      _ = getWide u lo := hcorrect.places lo (Place.apartFrom_l hp.lo_l)
      _ = getWide t lo := htu.places lo (Place.apartFrom_cons (Place.apartFrom_a hp.lo_a)
            (Place.apartFrom_of_subset hi.edited_subset hp.lo_from_hi))
      _ = rewrittenAs s lo := hlo
  · calc getWide (correctL u) hi
      _ = getWide u hi := hcorrect.places hi (Place.apartFrom_l hp.hi_l)
      _ = rewrittenAs (t.setA (f (getWide t hi))) hi := getWide_rewrite (s := t.setA (f (getWide t hi))) ht hi
      _ = rewrittenAs t hi := rewrittenAs_setA hp.hi_a t _
      _ = rewrittenAs s hi := rewrittenAs_congr hhi
  · refine ((hst.trans htu).trans hcorrect).mono fun x hx => ?_
    simp only [List.mem_append, List.mem_cons, List.not_mem_nil, or_false] at hx ⊢
    tauto

/-- Settles O44: one load, as it stands and complemented. -/
theorem doubleLoads : Obligations.DoubleLoads := fun _ _ _ _ hs hf hp =>
  have hpair := pairApart_of_locatePair hp hf
  ⟨⟨_, onPair_of_locate hp _, loadedPair_loadPair _ hs.erasable_wf hpair⟩,
    ⟨_, onPair_of_locate hp _, loadedPair_loadPair _ hs.erasable_wf hpair⟩⟩

/-! ### DXCH -/

theorem exchangePair_spec {s : State} (hs : s.erasable.wf = true) {lo hi : Place} (hp : PairApart lo hi) :
    let t := exchangePair s lo hi
    t.a = getWide s hi ∧ t.l = sx16 (ovc (getWide s lo)) ∧ getWide t lo = storedAs s s.l lo ∧
      getWide t hi = storedAs s s.a hi ∧ UnchangedBut [.a, .l, lo, hi] s t := by
  let u := exchangeWith .l s lo
  let v := exchangeWith .a u hi
  have hu : u.erasable.wf = true := erasable_wf_exchangeWith hs .l lo
  have hsu : UnchangedBut [.l, lo] s u := unchangedBut_exchangeWith .l s lo
  have huv : UnchangedBut [.a, hi] u v := unchangedBut_exchangeWith .a u hi
  have hvt : UnchangedBut [.l] v (correctL v) := unchangedBut_setL v _
  have hhi : getWide u hi = getWide s hi :=
    hsu.places hi (Place.apartFrom_cons (Place.apartFrom_l hp.hi_l) hp.hi_from_lo)
  have hua : u.a = s.a := hsu.places .a (Place.apartFrom_cons rfl (Place.a_apartFrom hp.lo_a))
  have hvl : v.l = u.l := by
    have hfrom : Place.l.apartFrom [hi] = true :=
      Place.apartFrom_of_not_shares (Place.sharesState_symm (by simpa [Place.apartFrom] using Place.apartFrom_l hp.hi_l))
    exact huv.places .l (Place.apartFrom_cons rfl hfrom)
  refine ⟨?_, ?_, ?_, ?_, ?_⟩
  · exact (getWide_exchangeWith_register (r := .a) rfl u hi).trans hhi
  · show sx16 (ovc v.l) = sx16 (ovc (getWide s lo))
    rw [hvl]
    exact congrArg (fun x => sx16 (ovc x)) (getWide_exchangeWith_register (r := .l) rfl s lo)
  · calc getWide (correctL v) lo
      _ = getWide v lo := hvt.places lo (Place.apartFrom_l hp.lo_l)
      _ = getWide u lo := huv.places lo (Place.apartFrom_cons (Place.apartFrom_a hp.lo_a) hp.lo_from_hi)
      _ = storedAs s s.l lo := getWide_exchangeWith_operand (r := .l) rfl hs lo
  · calc getWide (correctL v) hi
      _ = getWide v hi := hvt.places hi (Place.apartFrom_l hp.hi_l)
      _ = storedAs u u.a hi := getWide_exchangeWith_operand (r := .a) rfl hu hi
      _ = storedAs s u.a hi := storedAs_congr hhi _
      _ = storedAs s s.a hi := by rw [hua]
  · exact ((hsu.trans huv).trans hvt).mono (by simp)

/-- Settles O48: the two exchanges of a pair apart from A, L. -/
theorem doubleExchange : Obligations.DoubleExchange := fun _ _ _ _ hs hf hp =>
  ⟨_, onPair_of_locate hp _,
    exchangePair_spec hs.erasable_wf (pairApart_of_locatePair hp (by rw [toNat_erasableAddr]; exact hf))⟩

/-! ### DAS -/

/-- The sums of DAS on a pair that A is not in; L may be its more significant word. -/
theorem addPairToStorage_spec {s : State} (hs : s.erasable.wf = true) {lo hi : Place} (hla : lo ≠ .a) (hll : lo ≠ .l)
    (hha : hi ≠ .a) (hlo : lo.apartFrom [hi] = true) (hhi : hi.apartFrom [lo] = true) :
    let low := add16 s.l (getWide s lo)
    let high := addCarry (add16 s.a (getWide s hi)) low
    let t := addPairToStorage s lo hi
    getWide t lo = storedAs s (sx16 (ovc low)) lo ∧ (hi ≠ .l → getWide t hi = storedAs s high hi) ∧
      UnchangedBut [.a, .l, lo, hi] s t := by
  intro low high t
  let u := putWide s lo (sx16 (ovc low))
  let v := putWide u hi high
  have hu : u.erasable.wf = true := erasable_wf_putWide hs lo _
  have hsu : UnchangedBut [lo] s u := unchangedBut_putWide s lo _
  have huv : UnchangedBut [hi] u v := unchangedBut_putWide u hi high
  have hvt : UnchangedBut ([.l] ++ [.a]) v t := (unchangedBut_setL v 0).trans (unchangedBut_setA _ _)
  refine ⟨?_, fun hhl => ?_, ?_⟩
  · calc getWide t lo
      _ = getWide v lo := hvt.places lo (Place.apartFrom_cons (Place.apartFrom_l hll) (Place.apartFrom_a hla))
      _ = getWide u lo := huv.places lo hlo
      _ = storedAs s (sx16 (ovc low)) lo := getWide_putWide hs lo _
  · calc getWide t hi
      _ = getWide v hi := hvt.places hi (Place.apartFrom_cons (Place.apartFrom_l hhl) (Place.apartFrom_a hha))
      _ = storedAs u high hi := getWide_putWide hu hi high
      _ = storedAs s high hi := storedAs_congr (hsu.places hi hhi) high
  · refine ((hsu.trans huv).trans hvt).mono fun x hx => ?_
    simp only [List.mem_append, List.mem_cons, List.not_mem_nil, or_false] at hx ⊢
    tauto

/-- Settles O50: from field 2 on A is not in the pair, and the two sums are stored one after the other. -/
theorem doubleAddToStorage : Obligations.DoubleAddToStorage := by
  intro s f lo hi hs hf hp
  have hne : f ≠ 1 := by
    rintro rfl
    exact absurd hf (by decide)
  obtain ⟨hla, hll, hha, -⟩ := locatePair_registers hp
  rw [toNat_erasableAddr] at hla hll hha
  obtain ⟨hlow, hhigh, hframe⟩ := addPairToStorage_spec hs.erasable_wf (lo := lo) (hi := hi)
    (fun e => by have := hla e; omega) (fun e => by have := hll e; omega) (fun e => by have := hha e; omega)
    (locatePair_lo_from_hi hp) (locatePair_hi_from_lo hp)
  exact ⟨addPairToStorage s lo hi, (if_neg hne).trans (onPair_of_locate hp _), rfl, rfl, hlow, hhigh, hframe⟩

/-! ### The overlaps with A, L -/

/-- The low word goes first: in field 2 L takes Q, then A takes that very Q. -/
theorem exec_dxch_two (s : State) : exec (.dxch 2) s = .next { s with a := s.q, l := sx16 (ovc s.a), q := s.l } := rfl

/-- In field 2 of DCS A takes L as it has just been loaded, so Q is complemented twice. -/
theorem exec_dcs_two (s : State) : exec (.dcs 2) s = .next { s with a := s.q, l := sx16 (ovc (~~~s.q)) } := by
  have hexec : exec (.dcs 2) s = .next { s with a := ~~~(~~~s.q), l := sx16 (ovc (~~~s.q)) } := rfl
  rw [hexec, BitVec.not_not]

/-- Settles O45: each is an equation of the two accesses in their order. -/
theorem doubleOverlaps : Obligations.DoubleOverlaps := fun s =>
  ⟨rfl, rfl, rfl, rfl, exec_dcs_two s, rfl, exec_dxch_two s, rfl, rfl⟩

end Sys2Proof.Machine
end

section
/-!
PROOF. INCR, AUG and DIM (spec/43_arithmetic.md R285, R287, R289; decision D32): a plain store, but where a timer overflows or TIME6 comes
to zero.
-/

namespace Sys2Proof.Machine

theorem storeCount_of_clear {k : EAddr} {r : Wide} (h : hasOverflow r = false) (s : State) (p : Place) :
    storeCount s k p r = putWide s p r := by
  rw [storeCount, h, Bool.and_false]
  rfl

/-- An overflow outside TIME3 to TIME6 has no effect besides the store. -/
theorem storeCount_of_not_timer {k : EAddr} (h : k.toNat < 0o26 ∨ 0o31 < k.toNat) (s : State) (p : Place) (r : Wide) :
    storeCount s k p r = putWide s p r := by
  unfold storeCount
  split
  · rcases instructionOverflow_cases k.toNat (putWide s p r) with ⟨n, hn, -⟩ | ⟨-, he⟩
    · simp only [List.mem_cons, Prod.mk.injEq, List.not_mem_nil, or_false] at hn
      omega
    · exact he
  · rfl

/-- INCR and AUG where no timer overflows. -/
theorem storeCount_plain {k : EAddr} {r : Wide} (h : k.toNat < 0o26 ∨ 0o31 < k.toNat ∨ hasOverflow r = false) (s : State)
    (p : Place) : storeCount s k p r = putWide s p r := by
  rcases h with h | h | h
  · exact storeCount_of_not_timer (.inl h) s p r
  · exact storeCount_of_not_timer (.inr h) s p r
  · exact storeCount_of_clear h s p

/-- One store at the operand found. -/
theorem onOperand_stores {s : State} (hs : Coherent s) {k : Addr} {p : Place} (hp : locate s k = .ok p) {f : Place → State}
    {v : Wide} (hf : f p = putWide s p v) :
    ∃ t, onOperand s k f = .next t ∧ getWide t p = storedAs s v p ∧ UnchangedBut [p] s t :=
  ⟨_, onOperand_of_locate hp f, hf ▸ getWide_putWide hs.erasable_wf p v, hf ▸ unchangedBut_putWide s p v⟩

/-- One step toward zero, with the two zeros by name. -/
theorem diminished_eq (v : Wide) : diminished v =
    if v = 0 ∨ v = 0o177777 then v else if v.getLsbD 15 then add16 v 0o000001 else add16 v 0o177776 := by
  simp only [← isZero16_iff]
  rfl

/-- DIM where TIME6 does not come to zero. -/
theorem diminish_plain {s : State} {k : EAddr} {p : Place}
    (h : k ≠ 0o31 ∨ isZero16 (getWide s p) = true ∨ isZero16 (diminished (getWide s p)) = false) :
    diminish s k p = putWide s p (diminished (getWide s p)) := by
  refine if_neg ?_
  rintro ⟨hk, hv, hd⟩
  rcases h with h | h | h
  · exact h hk
  · exact absurd (h.symm.trans hv) (by decide)
  · exact absurd (hd.symm.trans h) (by decide)

/-- Settles O51: each is the one store of its new value. -/
theorem incrementAugmentDiminish : Obligations.IncrementAugmentDiminish := by
  intro s k p hs hp
  dsimp only
  refine ⟨fun h => onOperand_stores hs hp (storeCount_plain h s p), fun h => onOperand_stores hs hp (storeCount_plain h s p),
    fun h => ?_⟩
  rw [← diminished_eq] at h ⊢
  refine onOperand_stores hs hp (diminish_plain ?_)
  rcases h with h | h | h | ⟨h0, h1⟩
  · exact .inl h
  · exact .inr (.inl ((isZero16_iff _).mpr (.inl h)))
  · exact .inr (.inl ((isZero16_iff _).mpr (.inr h)))
  · refine .inr (.inr (Bool.eq_false_iff.mpr fun hz => ?_))
    exact ((isZero16_iff _).mp hz).elim h0 h1

/-! ### The timers -/

/-- The timers by their addresses, with the interrupts their overflow requests (R352). -/
def timers : List (EAddr × Rupt) := [(0o26, .t3rupt), (0o27, .t4rupt), (0o30, .t5rupt), (0o31, .t6rupt)]

/-- A timer is a word of unswitched erasable memory that does not edit, and its overflow is its request. -/
theorem timers_spec {k : EAddr} {n : Rupt} (h : (k, n) ∈ timers) (s : State) :
    locate s (erasableAddr k) = .ok (.core k.toNat) ∧ 2 < k.toNat ∧ ¬(0o20 ≤ k.toNat ∧ k.toNat ≤ 0o23) ∧
      instructionOverflow k.toNat s = requestInterrupt n s := by
  simp only [timers, List.mem_cons, Prod.mk.injEq, List.not_mem_nil, or_false] at h
  rcases h with ⟨rfl, rfl⟩ | ⟨rfl, rfl⟩ | ⟨rfl, rfl⟩ | ⟨rfl, rfl⟩ <;>
    exact ⟨locate_unswitched s (by decide) (by decide), by decide, by decide, rfl⟩

/-- A store in a word of core that does not edit. -/
theorem putWide_core {i : Nat} (hi : ¬(0o20 ≤ i ∧ i ≤ 0o23)) (s : State) (v : Wide) :
    putWide s (.core i) v = setCore s i (ovc v) := by
  show setCore s i (edit i (ovc v)) = _
  rw [edit_of_not_editing hi]

/-- The shape of INCR and AUG that overflow a timer: the corrected sum stored, the timer's interrupt requested. -/
theorem onOperand_timer {s : State} (hs : Coherent s) {k : EAddr} {n : Rupt} (h : (k, n) ∈ timers) {f : Wide → Wide}
    (ho : hasOverflow (f (sx16 (s.erasable.read k.toNat))) = true) :
    ∃ t, onOperand s (erasableAddr k) (fun p => storeCount s k p (f (getWide s p))) = .next t ∧
      t.erasable.read k.toNat = ovc (f (sx16 (s.erasable.read k.toNat))) ∧
      UnchangedBut [.core k.toNat] (requestInterrupt n s) t := by
  obtain ⟨hp, hk, hedit, -⟩ := timers_spec h s
  have hstore : storeCount s k (.core k.toNat) (f (getWide s (.core k.toNat))) =
      setCore (requestInterrupt n s) k.toNat (ovc (f (sx16 (s.erasable.read k.toNat)))) := by
    obtain ⟨-, -, -, hover⟩ := timers_spec h (putWide s (.core k.toNat) (f (getWide s (.core k.toNat))))
    have hcond : (decide (2 < k.toNat) && hasOverflow (f (getWide s (.core k.toNat)))) = true := by
      rw [decide_eq_true hk, Bool.true_and]
      exact ho
    rw [storeCount, if_pos hcond, hover, putWide_core hedit]
    rfl
  refine ⟨_, onOperand_of_locate hp _, ?_, ?_⟩
  · rw [hstore]
    exact read_setCore (hs.requestInterrupt n) _ _
  · rw [hstore]
    exact unchangedBut_setCore _ _ _

/-- Both counts beyond the largest word, and AUG beyond the smallest: the overflow, and the word stored. -/
theorem overflow_of_max : hasOverflow (add16 (sx16 0o37777) plusOne) = true ∧ ovc (add16 (sx16 0o37777) plusOne) = 0 := by
  decide

theorem augmented_overflows {w : Word} (hw : w = 0o37777 ∨ w = 0o40000) :
    hasOverflow (augmented (sx16 w)) = true ∧ ovc (augmented (sx16 w)) = if w = 0o37777 then 0 else 0o77777 := by
  rcases hw with rfl | rfl <;> decide

/-- DIM of a TIME6 one unit from zero. -/
theorem diminish_time6 {s : State} (h : s.erasable.read 0o31 = 0o00001 ∨ s.erasable.read 0o31 = 0o77776) :
    diminish s 0o31 (.core 0o31) = setCore (time6Zero s) 0o31 0o77777 := by
  have hunit : isZero16 (sx16 (s.erasable.read 0o31)) = false ∧
      diminished (sx16 (s.erasable.read 0o31)) = 0o177777 := by
    rcases h with h | h <;> rw [h] <;> decide
  obtain ⟨hv, hd⟩ := hunit
  have hcond : (0o31 : EAddr) = 0o31 ∧ isZero16 (getWide s (.core 0o31)) = false ∧
      isZero16 (diminished (getWide s (.core 0o31))) = true :=
    ⟨rfl, hv, (isZero16_iff _).mpr (.inr hd)⟩
  have hput : putWide s (.core 0o31) (diminished (getWide s (.core 0o31))) = setCore s 0o31 0o77777 := by
    have hdim : diminished (getWide s (.core 0o31)) = 0o177777 := hd
    rw [hdim, putWide_core (by decide)]
    rfl
  refine (if_pos hcond).trans ?_
  rw [hput]
  rfl

/-- Settles O52: INCR and AUG at a timer by the shape they share, DIM by its case of TIME6. -/
theorem timersByInstruction : Obligations.TimersByInstruction := by
  refine ⟨fun s w k n hs hw hmem hread => ⟨fun hmax => ?_, ?_⟩, fun s hs h => ?_⟩
  · obtain ⟨ho, hz⟩ := overflow_of_max
    rw [← hmax, ← hread] at ho hz
    rw [← hz]
    exact onOperand_timer hs hmem (f := fun v => add16 v plusOne) ho
  · obtain ⟨ho, hz⟩ := augmented_overflows hw
    rw [← hz]
    rw [← hread] at ho ⊢
    exact onOperand_timer hs hmem ho
  · have hp : locate s (erasableAddr 0o31) = .ok (.core 0o31) := locate_unswitched s (by decide) (by decide)
    have hexec : exec (.dim 0o31) s = .next (setCore (time6Zero s) 0o31 0o77777) := by
      rw [← diminish_time6 h]
      exact onOperand_of_locate hp _
    exact ⟨_, hexec, read_setCore hs.time6Zero _ _, unchangedBut_setCore _ _ _⟩

end Sys2Proof.Machine
end

section
/-!
PROOF. MP, SQUARE and DV (spec/43_arithmetic.md R295, R300, R305): sign and magnitude on integers, then the two words that carry them.
-/

namespace Sys2Proof.Machine

/-- A result in A, L: the shape MP and DV share. -/
def pairResult (s : State) (a l : Word) : State := (s.setA (sx16 a)).setL (sx16 l)

theorem bothClear_pairResult (s : State) (a l : Word) : bothClear (pairResult s a l).a (pairResult s a l).l :=
  ⟨hasOverflow_sx16 a, hasOverflow_sx16 l⟩

theorem ovc_pairResult_a (s : State) (a l : Word) : ovc (pairResult s a l).a = a := ovc_sx16 a

theorem ovc_pairResult_l (s : State) (a l : Word) : ovc (pairResult s a l).l = l := ovc_sx16 l

theorem unchangedBut_pairResult (s : State) (a l : Word) : UnchangedBut [.a, .l] s (pairResult s a l) :=
  (unchangedBut_setA s _).trans (unchangedBut_setL _ _)

/-! ### The product -/

theorem multiply_eq (s : State) (k : Word) : multiply s k =
    pairResult s (signedWord ((val15 (ovc s.a) * val15 k).natAbs / 2 ^ 14) (productNegative (ovc s.a) k))
      (signedWord ((val15 (ovc s.a) * val15 k).natAbs % 2 ^ 14) (productNegative (ovc s.a) k)) := rfl

/-- A product's magnitude takes 28 bits. -/
theorem natAbs_product_lt (a k : Word) : (val15 a * val15 k).natAbs < 2 ^ 14 * 2 ^ 14 := by
  rw [Int.natAbs_mul]
  exact Nat.mul_lt_mul'' (natAbs_val15_lt a) (natAbs_val15_lt k)

theorem productNegative_of_ne_zero {a k : Word} (h : val15 a * val15 k ≠ 0) :
    productNegative a k = decide (val15 a * val15 k < 0) := if_neg h

/-- The sign of a zero product (R295). -/
theorem productNegative_of_zero {a k : Word} (h : val15 a * val15 k = 0) :
    productNegative a k = true ↔ (a = 0 ∧ val15 k < 0) ∨ (a = 0o77777 ∧ 0 < val15 k) := by
  rw [productNegative, if_pos h]
  simp [zeroProductNegative]

theorem sx16_signedWord_zero (negative : Bool) : sx16 (signedWord 0 negative) = if negative then 0o177777 else 0 := by
  cases negative <;> decide

/-- Both halves of a magnitude with its sign are the whole with its sign. -/
theorem val15_halves {m : Nat} (hm : m < 2 ^ 14 * 2 ^ 14) (negative : Bool) :
    val15 (signedWord (m / 2 ^ 14) negative) * 2 ^ 14 + val15 (signedWord (m % 2 ^ 14) negative) =
      if negative then -(m : Int) else m := by
  rw [val15_signedWord (by omega), val15_signedWord (by omega)]
  split <;> omega

theorem multiplied_multiply (s : State) (k : Word) : Multiplied s (multiply s k) k := by
  have hm := natAbs_product_lt (ovc s.a) k
  rw [multiply_eq]
  refine ⟨bothClear_pairResult s _ _, ?_, ?_, fun h => ?_, fun h => ?_, unchangedBut_pairResult s _ _⟩
  · rw [ovc_pairResult_a, ovc_pairResult_l, val15_halves hm]
    by_cases hz : val15 (ovc s.a) * val15 k = 0
    · simp [hz]
    · rw [productNegative_of_ne_zero hz]
      simp only [decide_eq_true_eq]
      split <;> omega
  · rw [ovc_pairResult_a, ovc_pairResult_l, bit15_signedWord (by omega), bit15_signedWord (by omega)]
  · rw [ovc_pairResult_a, bit15_signedWord (by omega), productNegative_of_ne_zero h]
  · have hzero : (val15 (ovc s.a) * val15 k).natAbs / 2 ^ 14 = 0 := by rw [h]; rfl
    rw [hzero]
    refine (sx16_signedWord_zero _).trans ?_
    simp only [productNegative_of_zero h]

/-- Settles O53: MP at the word found, SQUARE at A's own. -/
theorem multiplication : Obligations.Multiplication := fun s =>
  ⟨fun _ p hp => ⟨_, onOperand_of_locate hp _, multiplied_multiply s (getWord s p)⟩,
    ⟨_, rfl, multiplied_multiply s (ovc s.a)⟩⟩

/-! ### The quotient -/

theorem divide_of_le {s : State} {k : Word}
    (h : (dividend (ovc s.a) (ovc s.l)).natAbs ≤ (val15 k).natAbs * 2 ^ 14) : divide s k =
      pairResult s
        (signedWord (quotientOf (dividend (ovc s.a) (ovc s.l)).natAbs (val15 k).natAbs)
          (dividendNegative (ovc s.a) (ovc s.l) != bit15 k))
        (signedWord (remainderOf (dividend (ovc s.a) (ovc s.l)).natAbs (val15 k).natAbs)
          (dividendNegative (ovc s.a) (ovc s.l))) :=
  if_neg (Nat.not_lt.mpr h)

theorem quotientOf_lt {d m : Nat} (h : d ≤ m * 2 ^ 14) : quotientOf d m < 2 ^ 14 := by
  unfold quotientOf
  split
  · decide
  · exact Nat.div_lt_of_lt_mul (by omega)

theorem remainderOf_lt {d m : Nat} (hm : m < 2 ^ 14) (h : d ≤ m * 2 ^ 14) : remainderOf d m < 2 ^ 14 := by
  unfold remainderOf
  split
  · exact hm
  · have hpos : 0 < m := by omega
    exact (Nat.mod_lt d hpos).trans hm

/-- A word is its magnitude with its sign. -/
theorem val15_eq_sign (w : Word) : val15 w = if bit15 w then -((val15 w).natAbs : Int) else (val15 w).natAbs := by
  have hw := w.isLt
  rw [natAbs_val15, val15_eq, bit15_eq]
  simp only [decide_eq_true_eq]
  split_ifs <;> omega

/-- A dividend is its magnitude with its sign (R305). -/
theorem dividend_eq_sign (a l : Word) :
    dividend a l = if dividendNegative a l then -((dividend a l).natAbs : Int) else (dividend a l).natAbs := by
  have ha := a.isLt
  have hl := l.isLt
  have hva := val15_eq a
  have hvl := val15_eq l
  simp only [dividend, dividendNegative, isZero15_eq, bit15_eq, decide_eq_true_eq]
  split_ifs at hva hvl ⊢ <;> simp only [decide_eq_true_eq] at * <;> omega

/-- Quotient and remainder with their signs make up the dividend with its sign. -/
theorem signed_div_add_mod {d m : Nat} (dneg kneg : Bool) :
    (if dneg != kneg then -((d / m : Nat) : Int) else (d / m : Nat)) * (if kneg then -(m : Int) else m) +
      (if dneg then -((d % m : Nat) : Int) else (d % m : Nat)) = if dneg then -(d : Int) else d := by
  have h : ((d / m : Nat) : Int) * m + (d % m : Nat) = d := by
    rw [← Nat.cast_mul, ← Nat.cast_add, Nat.div_add_mod']
  generalize d / m = q, d % m = r at h ⊢
  cases dneg <;> cases kneg <;> simp <;> linarith

theorem divided_divide {s : State} {k : Word}
    (h : (dividend (ovc s.a) (ovc s.l)).natAbs ≤ (val15 k).natAbs * 2 ^ 14) : Divided s (divide s k) k := by
  have hq := quotientOf_lt h
  have hr := remainderOf_lt (natAbs_val15_lt k) h
  rw [divide_of_le h]
  refine ⟨bothClear_pairResult s _ _, fun hlt => ?_, fun heq => ?_, ?_, ?_, unchangedBut_pairResult s _ _⟩
  · rw [ovc_pairResult_a, ovc_pairResult_l, val15_signedWord hq, val15_signedWord hr]
    unfold quotientOf remainderOf
    rw [if_neg hlt.ne, if_neg hlt.ne]
    constructor
    · have hsum := signed_div_add_mod (d := (dividend (ovc s.a) (ovc s.l)).natAbs) (m := (val15 k).natAbs)
        (dividendNegative (ovc s.a) (ovc s.l)) (bit15 k)
      rwa [← val15_eq_sign, ← dividend_eq_sign] at hsum
    · have hpos : 0 < (val15 k).natAbs := by omega
      have hmod := Nat.mod_lt (dividend (ovc s.a) (ovc s.l)).natAbs hpos
      split <;> omega
  · rw [ovc_pairResult_a, ovc_pairResult_l, val15_signedWord hq, val15_signedWord hr]
    unfold quotientOf remainderOf
    rw [if_pos heq, if_pos heq]
    constructor <;> split <;> omega
  · rw [ovc_pairResult_a, bit15_signedWord hq]
  · rw [ovc_pairResult_l, bit15_signedWord hr]

/-- Settles O54: the division at the word found. -/
theorem division : Obligations.Division := fun _ _ _ hp h => ⟨_, onOperand_of_locate hp _, divided_divide h⟩

/-- Settles O55: two free values, drawn and counted. -/
theorem divisionNonsense : Obligations.DivisionNonsense := by
  intro s k p hp h
  have hdiv : divide s (getWord s p) =
      ((s.setA (Config.drawnWide s.draws)).setL (Config.drawnWide (s.draws + 1))).setDraws (s.draws + 2) := if_pos h
  refine ⟨_, onOperand_of_locate hp _, ?_⟩
  rw [hdiv]
  exact (unchangedBut_setA (s.setDraws (s.draws + 2)) _).trans (unchangedBut_setL _ _)

end Sys2Proof.Machine
end

section
/-!
PROOF. WRITE, WAND, WOR (spec/44_logic_io.md R322, R324, R326, R328): the three are one channel write of a value, WAND and WOR after
putting it into A.
-/

namespace Sys2Proof.Machine

/-- A channel with storage of its own takes the word it keeps. -/
theorem chWrite_storage {c : Chan} (h1 : c ≠ 1) (h2 : c ≠ 2) (h3 : c ≠ 3) (h4 : c ≠ 4) (s : State) (v : Wide) :
    chWrite s c v = .ok (setChannelWord s c.toNat (channelMask c (ovc v))) := by
  rw [chWrite, if_neg h1, if_neg h2, if_neg (not_or.mpr ⟨h3, h4⟩)]
  rfl

/-- The scaler's channels are refused (U11). -/
theorem chWrite_scaler {c : Chan} (h : c = 3 ∨ c = 4) (s : State) (v : Wide) :
    chWrite s c v = .error .scalerChannelWrite := by
  rcases h with rfl | rfl <;> rfl

/-- A combination with a channel that is no register is a word sign-extended. -/
theorem combine_storage (op16 : Wide → Wide → Wide) (op15 : Word → Word → Word) {c : Chan} (h1 : c ≠ 1) (h2 : c ≠ 2)
    (s : State) : combine op16 op15 s c = sx16 (op15 (ovc s.a) (s.channels.read c.toNat)) :=
  if_neg (not_or.mpr ⟨h1, h2⟩)

theorem exec_write_eq (c : Chan) (s : State) : exec (.write c) s = finish (chWrite s c s.a) := rfl

theorem exec_wand_eq (c : Chan) (s : State) :
    exec (.wand c) s = finish (chWrite (s.setA (combineAnd s c)) c (combineAnd s c)) := rfl

theorem exec_wor_eq (c : Chan) (s : State) :
    exec (.wor c) s = finish (chWrite (s.setA (combineOr s c)) c (combineOr s c)) := rfl

/-- What the three leave, with `v` in A and the word `x` sent to the channel. -/
theorem setChannelWord_spec {s : State} (hs : Coherent s) (c : Chan) (v : Wide) (x : Word) :
    let t := setChannelWord (s.setA v) c.toNat (channelMask c x)
    t.channels.read c.toNat = channelMask c x ∧ (∀ d : Nat, d ≠ c.toNat → t.channels.read d = s.channels.read d) ∧
      t.a = v ∧ UnchangedBut [.a] { s with channels := t.channels } t := by
  intro t
  exact ⟨(read_setChannelWord (hs.setA v) _ _ _).trans (if_pos rfl),
    fun d hd => (read_setChannelWord (hs.setA v) _ d _).trans (if_neg hd), rfl,
    unchangedBut_setA { s with channels := t.channels } v⟩

/-- WAND and WOR on a channel with storage: the combined word to A and to the channel. -/
theorem finish_combined {c : Chan} (h1 : c ≠ 1) (h2 : c ≠ 2) (h3 : c ≠ 3) (h4 : c ≠ 4) {s : State} {v : Wide} {x : Word}
    (hv : v = sx16 x) :
    finish (chWrite (s.setA v) c v) = .next (setChannelWord (s.setA (sx16 x)) c.toNat (channelMask c x)) := by
  rw [hv, chWrite_storage h1 h2 h3 h4, ovc_sx16]
  rfl

/-- Settles O58: each of the three is the write of its word, WRITE with A as it was. -/
theorem channelWrites : Obligations.ChannelWrites := by
  intro s c hs h1 h2 h3 h4
  dsimp only
  rintro i x (⟨rfl, rfl⟩ | ⟨rfl, rfl⟩ | ⟨rfl, rfl⟩)
  · have hexec : exec (.write c) s = .next (setChannelWord (s.setA s.a) c.toNat (channelMask c (ovc s.a))) := by
      rw [exec_write_eq, chWrite_storage h1 h2 h3 h4]
      rfl
    rw [if_pos (rfl : Instr.write c = .write c)]
    exact ⟨_, hexec, setChannelWord_spec hs c s.a _⟩
  · rw [if_neg (nofun : Instr.wand c ≠ .write c)]
    exact ⟨_, (exec_wand_eq c s).trans (finish_combined h1 h2 h3 h4 (combine_storage _ _ h1 h2 s)),
      setChannelWord_spec hs c _ _⟩
  · rw [if_neg (nofun : Instr.wor c ≠ .write c)]
    exact ⟨_, (exec_wor_eq c s).trans (finish_combined h1 h2 h3 h4 (combine_storage _ _ h1 h2 s)),
      setChannelWord_spec hs c _ _⟩

/-- Settles O59: on channels 1 and 2 the registers' own updates, on 3 and 4 the refusal. -/
theorem specialChannelWrites : Obligations.SpecialChannelWrites := by
  refine fun s => ⟨rfl, rfl, rfl, rfl, rfl, rfl, fun c hc => ⟨?_, ?_, ?_⟩⟩
  · rw [exec_write_eq, chWrite_scaler hc]
    rfl
  · rw [exec_wand_eq, chWrite_scaler hc]
    rfl
  · rw [exec_wor_eq, chWrite_scaler hc]
    rfl

end Sys2Proof.Machine
end
